-- ==== Sys2Proof/Word.lean ====
section
/-! DEFINITION. The two bit-vector types of the TS core: the byte of a packet and the 32-bit register word
(spec/00_scope.md R12, R13). -/

namespace Sys2Proof

/-- A packet byte; bit 7 is the first bit on the wire (R13). -/
abbrev Byte := BitVec 8

/-- A register, command or event word (R12). -/
abbrev Word := BitVec 32

end Sys2Proof
end

