-- ==== Sys2Proof/Config.lean ====
section
/-! DEFINITION. What the surroundings of the block fix: the items a sink stream holds, the answers of a sink and the
free value that stands for an answer nothing has fixed, and the build parameters of the machine that
`State.reset` shows (spec/00_scope.md R10, R16; 20_memory.md R55, R57). -/

namespace Sys2Proof

/-- One item of the stream `SINK[c]` (20_memory.md R55). -/
inductive SinkItem where
  /-- a burst of elementary-stream bytes -/
  | bytes (burst : List Byte)
  /-- the marker that follows every burst -/
  | endOfPes
  /-- the marker EOS sends -/
  | close
  deriving DecidableEq, Repr, Inhabited

/-- What a sink answers to one `SinkEmit` or `SinkClose`. An `err` carries what reached the sink by that call: any
items whatever, since R57 leaves it unspecified ("any prefix of the items, or garbage"). -/
inductive SinkReply where
  /-- the call's items are in the stream -/
  | ok
  /-- the call failed and `reached` is what the stream got from it -/
  | err (reached : List SinkItem)
  deriving DecidableEq, Repr, Inhabited

/-- FREE VALUE (log entry 2): the answer of channel `c`'s sink to its call number `n`, where the state lists no answer for
it. "The answer is a free draw of the environment, under no law" (20_memory.md R57). -/
opaque Config.freeReply (c n : Nat) : SinkReply

/-- DESIGN CHOICE (log entry 1): N_CHANNELS of the machine `State.reset` shows; R10 allows 1 to 16. -/
def Config.resetChannels : Nat := 1

/-- DESIGN CHOICE (log entry 1): ACC_CAPACITY of the machine `State.reset` shows; R10 allows 65535 to 2^32 - 1. -/
def Config.resetCapacity : Word := 65535

end Sys2Proof
end

