-- ==== Sys2Proof/Syntax.lean ====
section
/-! DEFINITION. What the host sends: the operands of each row of spec/opcode_table.json, the one inductive
`Instr` with a constructor for every row, and the transaction that carries one to the block
(spec/30_encoding.md R70, R74, R79, R80, R81). -/

namespace Sys2Proof

/-- `PKT`: the 188 bytes that arrive with one ABSORB, `P[0]` first (20_memory.md R50; "The model's ABSORB takes
exactly 188 bytes by its type", 70_reset_and_hazards.md R293). -/
abbrev Packet := { bytes : List Byte // bytes.length = 188 }

/-- The 184 bytes `P[4] .. P[187]` behind a TS header. -/
abbrev Body := { bytes : List Byte // bytes.length = 184 }

/-- The TS header fields that a packet class leaves free; the class fixes AFC, and S where the row fixes it
(30_encoding.md R70, R79). -/
structure TsFields where
  /-- sync byte, `P[0]` -/
  sync : Byte
  /-- transport-error indicator, `P[1][7]` -/
  tei : Bool
  /-- transport priority, `P[1][5]` -/
  tp : Bool
  /-- packet identifier, `P[1][4:0] ++ P[2]` -/
  pid : BitVec 13
  /-- transport-scrambling control, `P[3][7:6]` -/
  tsc : BitVec 2
  /-- continuity counter, `P[3][3:0]` -/
  cc : BitVec 4
  deriving DecidableEq, Repr

/-- A start packet whose PES header shows its stream-id, less the stream-id itself, which the row fixes
(30_encoding.md R74): S = 1 and AFC = 01 when `af` is none, AFC = 11 when it is the bytes after the
adaptation-field length byte. -/
structure PesStart where
  /-- the TS header fields -/
  ts : TsFields
  /-- the adaptation field's bytes after `P[4]`, if the packet has one -/
  af : Option (List Byte)
  /-- `Q[0] ++ Q[1] ++ Q[2]`, the start-code field of the PES header -/
  startCode : BitVec 24
  /-- `Q[4] ++ Q[5]`, PES-packet-length -/
  len : BitVec 16
  /-- the payload bytes from PES offset 6 to the packet's end -/
  tail : List Byte
  deriving DecidableEq, Repr

/-- The stream-ids that have a row of their own in spec/opcode_table.json, the SID_EXCL rows. Their numbers are the spec's, from
general knowledge (log entry 13). -/
def exclRowSids : List Byte := [0xBC, 0xBE, 0xBF, 0xF0, 0xF1, 0xF2, 0xF8, 0xFF]

/-- The three formats of spec/opcode_table.json (its "format" column). -/
inductive Format where
  /-- a host command word (30_encoding.md R80) -/
  | cmd
  /-- the TS header word of the packet an ABSORB presents (R79) -/
  | tsHeader
  /-- the stream-id byte of the PES header in that packet (R75) -/
  | pesStreamId
  deriving DecidableEq, Repr

/-- One constructor per row of spec/opcode_table.json.
The CMD rows are the commands of 30_encoding.md R81. A TS_HEADER row is the ABSORB of a packet of that class and a
PES_STREAM_ID row the ABSORB of a start packet with that stream-id: the row's fixed bits are given by the
constructor, every other bit of the packet is an operand. DEDUCED (log entry 11). -/
inductive Instr where
  /-- NOP, OP = 0x0 (R231) -/
  | nop
  /-- ABSORB, OP = 0x1, with its packet (R170) -/
  | absorb (packet : Packet)
  /-- WRREG, OP = 0x2, with its data word (R232) -/
  | wrreg (index : BitVec 8) (value : Word)
  /-- RDREG, OP = 0x3 (R235) -/
  | rdreg (index : BitVec 8)
  /-- EOS, OP = 0x4 (R236) -/
  | eos (channel : BitVec 4)
  /-- reserved command, OP = 0x5 (R239) -/
  | reserved5
  /-- reserved command, OP = 0x6 (R239) -/
  | reserved6
  /-- reserved command, OP = 0x7 (R239) -/
  | reserved7
  /-- reserved command, OP = 0x8 (R239) -/
  | reserved8
  /-- reserved command, OP = 0x9 (R239) -/
  | reserved9
  /-- reserved command, OP = 0xA (R239) -/
  | reservedA
  /-- reserved command, OP = 0xB (R239) -/
  | reservedB
  /-- reserved command, OP = 0xC (R239) -/
  | reservedC
  /-- reserved command, OP = 0xD (R239) -/
  | reservedD
  /-- reserved command, OP = 0xE (R239) -/
  | reservedE
  /-- reserved command, OP = 0xF (R239) -/
  | reservedF
  /-- AFC = 00, any S (R79, R181); `pusi` is the S bit -/
  | tsAfcReserved (pusi : Bool) (fields : TsFields) (body : Body)
  /-- AFC = 01, S = 1 (R79, R184) -/
  | tsPayloadStart (fields : TsFields) (body : Body)
  /-- AFC = 01, S = 0 (R79, R189) -/
  | tsPayloadCont (fields : TsFields) (body : Body)
  /-- AFC = 10, any S (R79, R181); `pusi` is the S bit -/
  | tsAfOnly (pusi : Bool) (fields : TsFields) (body : Body)
  /-- AFC = 11, S = 1 (R79, R184) -/
  | tsAfPayloadStart (fields : TsFields) (body : Body)
  /-- AFC = 11, S = 0 (R79, R189) -/
  | tsAfPayloadCont (fields : TsFields) (body : Body)
  /-- stream-id 0xBC, program_stream_map (R75, R143) -/
  | sidExclBC (start : PesStart)
  /-- stream-id 0xBE, padding_stream (R75, R143) -/
  | sidExclBE (start : PesStart)
  /-- stream-id 0xBF, private_stream_2 (R75, R143) -/
  | sidExclBF (start : PesStart)
  /-- stream-id 0xF0, ECM (R75, R143) -/
  | sidExclF0 (start : PesStart)
  /-- stream-id 0xF1, EMM (R75, R143) -/
  | sidExclF1 (start : PesStart)
  /-- stream-id 0xF2, DSMCC_stream (R75, R143) -/
  | sidExclF2 (start : PesStart)
  /-- stream-id 0xF8, ITU-T H.222.1 type E (R75, R143) -/
  | sidExclF8 (start : PesStart)
  /-- stream-id 0xFF, program_stream_directory (R75, R143) -/
  | sidExclFF (start : PesStart)
  /-- every other stream-id (R75, R146) -/
  | sidExtended (sid : Byte) (start : PesStart)
  deriving DecidableEq, Repr

/-- The format of an instruction's row. -/
def Instr.format : Instr → Format
  | .nop | .absorb _ | .wrreg _ _ | .rdreg _ | .eos _ => .cmd
  | .reserved5 | .reserved6 | .reserved7 | .reserved8 | .reserved9 | .reservedA | .reservedB | .reservedC => .cmd
  | .reservedD | .reservedE | .reservedF => .cmd
  | .tsAfcReserved _ _ _ | .tsPayloadStart _ _ | .tsPayloadCont _ _ => .tsHeader
  | .tsAfOnly _ _ _ | .tsAfPayloadStart _ _ | .tsAfPayloadCont _ _ => .tsHeader
  | .sidExclBC _ | .sidExclBE _ | .sidExclBF _ | .sidExclF0 _ | .sidExclF1 _ | .sidExclF2 _ => .pesStreamId
  | .sidExclF8 _ | .sidExclFF _ | .sidExtended _ _ => .pesStreamId

/-- The data that follows a command word in the same transaction (30_encoding.md R81). -/
inductive HostData where
  /-- no data -/
  | nothing
  /-- packet bytes, `P[0]` first -/
  | packet (bytes : List Byte)
  /-- one 32-bit data word -/
  | word (value : Word)
  deriving DecidableEq, Repr

/-- One transaction as the host sends it: the command word and what follows it (44_host_commands.md R230). -/
structure Txn where
  /-- the 32-bit command word -/
  word : Word
  /-- the data behind it -/
  data : HostData
  deriving DecidableEq, Repr

end Sys2Proof
end

