-- ==== Sys2Proof/WellFormed.lean ====
section
/-! DEFINITION. Which terms of `Instr` stand for an instruction: the checks that its types do not make. -/

namespace Sys2Proof

/-- The bytes an adaptation field takes: the length byte and what follows it (41_adaptation_field.md R123). -/
def PesStart.afSize (q : PesStart) : Nat :=
  match q.af with
  | none => 0
  | some field => 1 + field.length

/-- The pieces of a start packet fill exactly 188 bytes: the TS header, the adaptation field, the six PES bytes up to
PES-packet-length, and the rest. -/
def PesStart.fits (q : PesStart) : Bool := decide (4 + q.afSize + 6 + q.tail.length = 188)

/-- A stream-id row's packet must fit, and the row SID_EXTENDED holds no stream-id that has a row of its own
(spec/opcode_table.json; 30_encoding.md R75). Every other constructor is well formed by its type. -/
def Instr.wellFormed : Instr → Bool
  | .sidExclBC q | .sidExclBE q | .sidExclBF q | .sidExclF0 q | .sidExclF1 q | .sidExclF2 q => q.fits
  | .sidExclF8 q | .sidExclFF q => q.fits
  | .sidExtended sid q => q.fits && !(exclRowSids.contains sid)
  | .nop | .absorb _ | .wrreg _ _ | .rdreg _ | .eos _ => true
  | .reserved5 | .reserved6 | .reserved7 | .reserved8 | .reserved9 | .reservedA | .reservedB | .reservedC => true
  | .reservedD | .reservedE | .reservedF => true
  | .tsAfcReserved _ _ _ | .tsPayloadStart _ _ | .tsPayloadCont _ _ => true
  | .tsAfOnly _ _ _ | .tsAfPayloadStart _ _ | .tsAfPayloadCont _ _ => true

end Sys2Proof
end

