-- ==== Sys2Proof/Decode.lean ====
section
/-! DEFINITION. The three decoders of the block's formats and the encoder (spec/30_encoding.md R70, R71, R74 to R81, R89):
the command word, which is what a step fetches, the class of the packet an ABSORB presents, and the stream-id of its PES
header. -/

namespace Sys2Proof

/-- Why a transaction is no instruction of the format it is read in. -/
inductive DecodeError where
  /-- a command that takes no data came with some (R81) -/
  | unexpectedData
  /-- an ABSORB without exactly 188 packet bytes (R81, R293) -/
  | packetNot188
  /-- a WRREG without its one data word (R81) -/
  | dataWordMissing
  /-- a transaction that presents no packet has no packet class -/
  | noPacketClass
  /-- a packet that is not a start packet with a readable PES header has no stream-id class -/
  | noStreamId
  deriving DecidableEq, Repr

/-! ## The command word (R80, R81) -/

/-- The OP field, bits 3:0 (R80). -/
def opField (w : Word) : BitVec 4 := w.extractLsb' 0 4

/-- The CH field, bits 7:4 (R80). -/
def chField (w : Word) : BitVec 4 := w.extractLsb' 4 4

/-- The REG field, bits 15:8 (R80). -/
def regField (w : Word) : BitVec 8 := w.extractLsb' 8 8

/-- A command that takes no data. -/
def bareCommand (data : HostData) (i : Instr) : Except DecodeError Instr :=
  match data with
  | .nothing => .ok i
  | .packet _ => .error .unexpectedData
  | .word _ => .error .unexpectedData

/-- The data of an ABSORB: exactly 188 packet bytes (R81). -/
def absorbCommand (data : HostData) : Except DecodeError Instr :=
  match data with
  | .packet bytes => if h : bytes.length = 188 then .ok (.absorb ⟨bytes, h⟩) else .error .packetNot188
  | .nothing => .error .packetNot188
  | .word _ => .error .packetNot188

/-- The data of a WRREG: one 32-bit word (R81). -/
def wrregCommand (data : HostData) (index : BitVec 8) : Except DecodeError Instr :=
  match data with
  | .word v => .ok (.wrreg index v)
  | .nothing => .error .dataWordMissing
  | .packet _ => .error .dataWordMissing

/-- The decoder a step uses. Bits 31:16, and the CH and REG fields of an OP that does not use them, are ignored
(R80, 44_host_commands.md R230). -/
def decodeCommand (t : Txn) : Except DecodeError Instr :=
  match (opField t.word).toNat with
  | 0 => bareCommand t.data .nop
  | 1 => absorbCommand t.data
  | 2 => wrregCommand t.data (regField t.word)
  | 3 => bareCommand t.data (.rdreg (regField t.word))
  | 4 => bareCommand t.data (.eos (chField t.word))
  | 5 => bareCommand t.data .reserved5
  | 6 => bareCommand t.data .reserved6
  | 7 => bareCommand t.data .reserved7
  | 8 => bareCommand t.data .reserved8
  | 9 => bareCommand t.data .reserved9
  | 10 => bareCommand t.data .reservedA
  | 11 => bareCommand t.data .reservedB
  | 12 => bareCommand t.data .reservedC
  | 13 => bareCommand t.data .reservedD
  | 14 => bareCommand t.data .reservedE
  | _ => bareCommand t.data .reservedF

/-! ## The packet an ABSORB presents -/

/-- `P[i]` (00_scope.md R14). Every rule guards i below 188 (20_memory.md R52), so the default is never taken. -/
def Packet.byte (p : Packet) (i : Nat) : Byte := p.val.getD i 0

/-- `P[i..j]`, j exclusive; empty when j is at most i (R14). -/
def Packet.slice (p : Packet) (i j : Nat) : List Byte := (p.val.drop i).take (j - i)

/-- A packet from a list of bytes; a well-formed instruction's list has exactly 188 and is taken as it stands. DESIGN CHOICE (log
entry 12): any other list is filled up with zeros or cut off. -/
def Packet.ofList (bytes : List Byte) : Packet :=
  ⟨(bytes ++ List.replicate 188 0).take 188, by
    rw [List.length_take, List.length_append, List.length_replicate]; omega⟩

/-- `P[4] .. P[187]`. -/
def Packet.body (p : Packet) : Body := ⟨p.val.drop 4, by simp [p.property]⟩

/-- The S bit, `P[1][6]` (R70). -/
def Packet.pusi (p : Packet) : Bool := (p.byte 1).getLsbD 6

/-- The AFC field, `P[3][5:4]` (R70). -/
def Packet.afc (p : Packet) : BitVec 2 := (p.byte 3).extractLsb' 4 2

/-- The PID, `P[1][4:0] ++ P[2][7:0]` (R70, R78). -/
def Packet.pid (p : Packet) : BitVec 13 := (p.byte 1).extractLsb' 0 5 ++ p.byte 2

/-- The header fields a packet class leaves free (R70). -/
def Packet.tsFields (p : Packet) : TsFields where
  sync := p.byte 0
  tei := (p.byte 1).getLsbD 7
  tp := (p.byte 1).getLsbD 5
  pid := p.pid
  tsc := (p.byte 3).extractLsb' 6 2
  cc := (p.byte 3).extractLsb' 0 4

/-- The four bytes of a TS header (R70; its bit positions are the spec's, from general knowledge, log entry 13). -/
def TsFields.header (f : TsFields) (pusi : Bool) (afc : BitVec 2) : List Byte :=
  [f.sync,
   BitVec.ofBool f.tei ++ BitVec.ofBool pusi ++ BitVec.ofBool f.tp ++ f.pid.extractLsb' 8 5,
   f.pid.extractLsb' 0 8,
   f.tsc ++ afc ++ f.cc]

/-- The packet with header fields `f`, S, AFC and the bytes behind the header. -/
def TsFields.packet (f : TsFields) (pusi : Bool) (afc : BitVec 2) (body : Body) : Packet :=
  ⟨f.header pusi afc ++ body.val, by simp [TsFields.header, body.property]⟩

/-- The packet class by AFC and S (R79): every packet has exactly one. -/
def decodePacket (p : Packet) : Instr :=
  match p.afc.toNat, p.pusi with
  | 0, u => .tsAfcReserved u p.tsFields p.body
  | 1, true => .tsPayloadStart p.tsFields p.body
  | 1, false => .tsPayloadCont p.tsFields p.body
  | 2, u => .tsAfOnly u p.tsFields p.body
  | _, true => .tsAfPayloadStart p.tsFields p.body
  | _, false => .tsAfPayloadCont p.tsFields p.body

/-! ## The stream-id of a start packet (R74, R75) -/

/-- The row of a stream-id (R75; spec/opcode_table.json). -/
def sidRow (sid : Byte) (q : PesStart) : Instr :=
  match sid.toNat with
  | 0xBC => .sidExclBC q
  | 0xBE => .sidExclBE q
  | 0xBF => .sidExclBF q
  | 0xF0 => .sidExclF0 q
  | 0xF1 => .sidExclF1 q
  | 0xF2 => .sidExclF2 q
  | 0xF8 => .sidExclF8 q
  | 0xFF => .sidExclFF q
  | _ => .sidExtended sid q

/-- A start packet taken apart at payload offset `off`, at least six payload bytes lying there (R74). -/
def Packet.pesStart (p : Packet) (af : Option (List Byte)) (off : Nat) : PesStart where
  ts := p.tsFields
  af := af
  startCode := p.byte off ++ p.byte (off + 1) ++ p.byte (off + 2)
  len := p.byte (off + 4) ++ p.byte (off + 5)
  tail := p.slice (off + 6) 188

/-- The stream-id row of a packet: defined for S = 1, a payload, and a payload region of at least six bytes, which is
an adaptation-field length of at most 177 (R74; 42_pes_header.md R140). -/
def decodeStreamId (p : Packet) : Except DecodeError Instr :=
  if p.pusi then
    match p.afc.toNat with
    | 1 => .ok (sidRow (p.byte 7) (p.pesStart none 4))
    | 3 =>
      let l := (p.byte 4).toNat
      if l ≤ 177 then .ok (sidRow (p.byte (5 + l + 3)) (p.pesStart (some (p.slice 5 (5 + l))) (5 + l)))
      else .error .noStreamId
    | _ => .error .noStreamId
  else .error .noStreamId

/-- The AFC field of a start packet: 01 without an adaptation field, 11 with one. -/
def PesStart.afc (q : PesStart) : BitVec 2 :=
  match q.af with
  | none => 1
  | some _ => 3

/-- The adaptation field: its length byte and the bytes it counts (R72). -/
def PesStart.afBytes (q : PesStart) : List Byte :=
  match q.af with
  | none => []
  | some field => BitVec.ofNat 8 field.length :: field

/-- The six bytes of a PES header up to PES-packet-length, for a given stream-id (R74). -/
def PesStart.pesBytes (q : PesStart) (sid : Byte) : List Byte :=
  [q.startCode.extractLsb' 16 8, q.startCode.extractLsb' 8 8, q.startCode.extractLsb' 0 8, sid,
   q.len.extractLsb' 8 8, q.len.extractLsb' 0 8]

/-- The start packet with stream-id `sid`. -/
def PesStart.packet (q : PesStart) (sid : Byte) : Packet :=
  Packet.ofList (q.ts.header true q.afc ++ q.afBytes ++ q.pesBytes sid ++ q.tail)

/-! ## All three formats, and the encoder -/

/-- The packet of a transaction that presents one. -/
def Txn.packet? (t : Txn) : Option Packet :=
  match decodeCommand t with
  | .ok (.absorb p) => some p
  | _ => none

/-- A transaction read in one of the table's formats: as a command, or as the packet it presents. A step reads every
transaction as a command. -/
def decodeAs (fmt : Format) (t : Txn) : Except DecodeError Instr :=
  match fmt with
  | .cmd => decodeCommand t
  | .tsHeader =>
    match t.packet? with
    | some p => .ok (decodePacket p)
    | none => .error .noPacketClass
  | .pesStreamId =>
    match t.packet? with
    | some p => decodeStreamId p
    | none => .error .noStreamId

/-- The command word of R80 with bits 31:16 zero. -/
def commandWord (op : BitVec 4) (ch : BitVec 4) (reg : BitVec 8) : Word := (0 : BitVec 16) ++ reg ++ ch ++ op

/-- A command word without data. -/
def bareTxn (op : BitVec 4) : Txn := ⟨commandWord op 0 0, .nothing⟩

/-- The ABSORB of a packet (R89). -/
def absorbTxn (p : Packet) : Txn := ⟨commandWord 1 0 0, .packet p.val⟩

/-- The transaction of an instruction, the bits its row does not use zero (R80, R81, R89). -/
def encode : Instr → Txn
  | .nop => bareTxn 0x0
  | .absorb p => absorbTxn p
  | .wrreg index value => ⟨commandWord 2 0 index, .word value⟩
  | .rdreg index => ⟨commandWord 3 0 index, .nothing⟩
  | .eos ch => ⟨commandWord 4 ch 0, .nothing⟩
  | .reserved5 => bareTxn 0x5
  | .reserved6 => bareTxn 0x6
  | .reserved7 => bareTxn 0x7
  | .reserved8 => bareTxn 0x8
  | .reserved9 => bareTxn 0x9
  | .reservedA => bareTxn 0xA
  | .reservedB => bareTxn 0xB
  | .reservedC => bareTxn 0xC
  | .reservedD => bareTxn 0xD
  | .reservedE => bareTxn 0xE
  | .reservedF => bareTxn 0xF
  | .tsAfcReserved u f b => absorbTxn (f.packet u 0 b)
  | .tsPayloadStart f b => absorbTxn (f.packet true 1 b)
  | .tsPayloadCont f b => absorbTxn (f.packet false 1 b)
  | .tsAfOnly u f b => absorbTxn (f.packet u 2 b)
  | .tsAfPayloadStart f b => absorbTxn (f.packet true 3 b)
  | .tsAfPayloadCont f b => absorbTxn (f.packet false 3 b)
  | .sidExclBC q => absorbTxn (q.packet 0xBC)
  | .sidExclBE q => absorbTxn (q.packet 0xBE)
  | .sidExclBF q => absorbTxn (q.packet 0xBF)
  | .sidExclF0 q => absorbTxn (q.packet 0xF0)
  | .sidExclF1 q => absorbTxn (q.packet 0xF1)
  | .sidExclF2 q => absorbTxn (q.packet 0xF2)
  | .sidExclF8 q => absorbTxn (q.packet 0xF8)
  | .sidExclFF q => absorbTxn (q.packet 0xFF)
  | .sidExtended sid q => absorbTxn (q.packet sid)

/-! ## A word of the opcode table -/

/-- DESIGN CHOICE (log entry 3): the format a bare table word is read in. The table numbers three formats from bit 0, so the
number alone does not say which one it is; the rows' fixed bits do, but for TS_AFC_RESERVED, whose word is NOP's. -/
def tableFormat (nbits w : Nat) : Format :=
  if w < 0x10 then .cmd
  else if nbits ≤ 8 then (if w < 0x40 then .tsHeader else .pesStreamId)
  else .tsHeader

/-- The data a command word of the table takes, all zero. -/
def zeroData (w : Word) : HostData :=
  match (opField w).toNat with
  | 1 => .packet (List.replicate 188 0)
  | 2 => .word 0
  | _ => .nothing

/-- The packet whose TS header word is `w` and whose other bytes are zero. -/
def headerPacket (w : Word) : Packet :=
  Packet.ofList [w.extractLsb' 24 8, w.extractLsb' 16 8, w.extractLsb' 8 8, w.extractLsb' 0 8]

/-- A start packet, all operands zero. -/
def zeroPesStart : PesStart where
  ts := ⟨0, false, false, 0, 0, 0⟩
  af := none
  startCode := 0
  len := 0
  tail := List.replicate 178 0

/-- The transaction that shows a table word, every bit above it zero. -/
def tableTxn (nbits w : Nat) : Txn :=
  match tableFormat nbits w with
  | .cmd => ⟨BitVec.ofNat 32 w, zeroData (BitVec.ofNat 32 w)⟩
  | .tsHeader => absorbTxn (headerPacket (BitVec.ofNat 32 w))
  | .pesStreamId => absorbTxn (zeroPesStart.packet (BitVec.ofNat 8 w))

/-- The instruction a table word decodes to. -/
def decodeTableWord (nbits w : Nat) : Option Instr :=
  match decodeAs (tableFormat nbits w) (tableTxn nbits w) with
  | .ok i => some i
  | .error _ => none

end Sys2Proof
end

