-- ==== Sys2Proof/Machine/State.lean ====
section
/-! DEFINITION. The state of the TS core: the N_CHANNELS channels with every field of spec/10_state.md R22, PKT_INDEX (R26),
the observable streams (R28), and what stands outside the block and is read by it: the host's transactions, the sinks'
answers and the event consumers. Plain data throughout. -/

namespace Sys2Proof.Machine

/-- A byte-addressed buffer: (address, byte) pairs with strictly rising addresses. An address that is not listed holds no
value. DESIGN CHOICE (log entry 4). -/
abbrev Memory := List Host.Cell

/-- The canonical form of a buffer: addresses strictly rising. -/
def Memory.wf (m : Memory) : Bool := decide (m.Pairwise fun x y => x.1 < y.1)

/-- The lifecycle states of a channel (R23). -/
inductive Lifecycle where
  /-- no PES in progress -/
  | idle
  /-- payload accumulation in progress -/
  | assembling
  deriving DecidableEq, Repr

/-- CTRL(c).MALFORMED_POLICY (R33). -/
inductive MalformedPolicy where
  /-- 0: a bad start code rejects the header -/
  | discard
  /-- 1: the header is assembled from its structural fields -/
  | propagate
  deriving DecidableEq, Repr

/-- CTRL(c).SHUTDOWN_POLICY (R33). -/
inductive ShutdownPolicy where
  /-- 0: EOS emits the PES in progress -/
  | flush
  /-- 1: EOS drops it -/
  | discard
  deriving DecidableEq, Repr

/-- The result of one channel for one packet (30_encoding.md R84); codes 6 and 7 are never produced. -/
inductive Result where
  /-- code 0 -/
  | unexpectedPid
  /-- code 1 -/
  | streamPacketLost
  /-- code 2 -/
  | assemblingStarted
  /-- code 3 -/
  | assemblingContinue
  /-- code 4 -/
  | assemblingFinished
  /-- code 5 -/
  | sinkError
  deriving DecidableEq, Repr

/-- One channel: exactly the fields of R22. -/
structure Channel where
  /-- CH[c].TARGET_PID -/
  targetPid : BitVec 13
  /-- CH[c].EN -/
  en : Bool
  /-- CH[c].MALFORMED_POLICY -/
  malformedPolicy : MalformedPolicy
  /-- CH[c].SHUTDOWN_POLICY -/
  shutdownPolicy : ShutdownPolicy
  /-- CH[c].STATE -/
  state : Lifecycle
  /-- CH[c].BOUNDED -/
  bounded : Bool
  /-- CH[c].EXPECTED -/
  expected : Word
  /-- CH[c].WOFF -/
  woff : Word
  /-- CH[c].CC_VALID -/
  ccValid : Bool
  /-- CH[c].LAST_CC -/
  lastCc : BitVec 4
  /-- CH[c].FATAL -/
  fatal : Bool
  /-- CH[c].PES_SID -/
  pesSid : BitVec 8
  /-- CH[c].PES_LEN -/
  pesLen : BitVec 16
  /-- CH[c].PES_HDL -/
  pesHdl : BitVec 8
  /-- CH[c].LAST_RESULT -/
  lastResult : Result
  /-- CH[c].LAST_FLAGS -/
  lastFlags : BitVec 12
  /-- ACC[c]: the bytes the PES in progress has written -/
  acc : Memory
  deriving DecidableEq, Repr

/-- The five words of an event record (30_encoding.md R86). -/
structure EventRec where
  /-- W0: PKT_INDEX -/
  w0 : Word
  /-- W1: the TS header word -/
  w1 : Word
  /-- W2: adaptation field, PES_VALID, RESULT, CHANNEL -/
  w2 : Word
  /-- W3: the flag vector -/
  w3 : Word
  /-- W4: the PES header triple -/
  w4 : Word
  deriving DecidableEq, Repr

/-- One channel with its own ports (R21, R28). `replies` and `calls` (the sink's answers) and `eventRoom` (the event
consumer) belong to the surroundings, not to the block: they are what the environment will do, as plain data. -/
structure Lane where
  /-- CH[c] and ACC[c] -/
  ch : Channel
  /-- SINK[c], oldest item first (20_memory.md R55) -/
  sink : List SinkItem
  /-- EVT[c], oldest record first (20_memory.md R56) -/
  events : List EventRec
  /-- the sink's answers to its next calls; `none` is a sink that never answers that call. DESIGN
  CHOICE (log entry 2) -/
  replies : List (Option SinkReply)
  /-- how many calls the sink has answered, the argument of the free answer once `replies` is used up (log entry 2) -/
  calls : Nat
  /-- `none`: the event consumer takes every record (R298); `some n`: it takes n more and then never answers.
  DESIGN CHOICE (log entry 5) -/
  eventRoom : Option Nat
  deriving DecidableEq, Repr

/-- The response to one command (30_encoding.md R82). -/
structure Response where
  /-- the status word -/
  status : Word
  /-- RDREG's data word -/
  data : Option Word
  deriving DecidableEq, Repr

/-- How much of a command got out before a reset cut it off, for one channel (70_reset_and_hazards.md R291). -/
structure Cut where
  /-- sink items already sent -/
  items : Nat
  /-- event records already emitted -/
  records : Nat
  /-- sink calls already answered -/
  calls : Nat
  deriving DecidableEq, Repr

/-- What the host does next. DESIGN CHOICE (log entry 8): a transaction is one input, its word and its data apart. -/
inductive HostInput where
  /-- a command transaction (44_host_commands.md R230) -/
  | txn (t : Txn)
  /-- a reset between transactions (70_reset_and_hazards.md R290, R291) -/
  | reset
  /-- a reset during the command `t`: `cuts` says channel by channel how much of its output had got out, `words` how many
  words of its response (R291: "a model must admit any prefix of them") -/
  | resetDuring (t : Txn) (cuts : List Cut) (words : Nat)
  deriving DecidableEq, Repr

/-- The machine. N_CHANNELS is the number of lanes. -/
structure State where
  /-- ACC_CAPACITY, a parameter no step changes (00_scope.md R10) -/
  accCapacity : Word
  /-- PKT_INDEX (R26) -/
  pktIndex : Word
  /-- the channels with their ports, channel 0 first -/
  lanes : List Lane
  /-- the command responses, oldest first (R28) -/
  responses : List Response
  /-- what the host is going to do, next first -/
  hostIn : List HostInput
  deriving DecidableEq, Repr

/-- Why the machine can stop. -/
inductive Fault where
  /-- Raised by a flush or by EOS when the sink of channel `channel` never answers the call: the block waits without bound and
  "the model has no step there (stuck)" (R297, D37, U8). Safe. -/
  | sinkSilent (channel : Nat)
  /-- Raised by ABSORB when the event consumer of channel `channel` never takes the record: stuck as with a sink
  (R298, D38, U8). Safe. -/
  | eventSilent (channel : Nat)
  /-- Raised by a flush or by EOS when a byte of ACC below WOFF was never written, which no state that meets the invariant of
  Safety.lean shows (R27: "each of those bytes was written by the current PES"). Safe. -/
  | accUnwritten (channel : Nat)
  /-- Raised by an append that would write ACC at or beyond ACC_CAPACITY, an address that does not exist (R50, R53); no state
  that meets the invariant of Safety.lean shows it. Safe. -/
  | accOutside (channel : Nat)
  deriving DecidableEq, Repr

/-- Why a step can have no meaning. -/
inductive Refusal where
  /-- Raised by exec's arm of an instruction that has no meaning yet. Safe. No arm of this model raises it. -/
  | notModelled (mnemonic : String)
  /-- Raised by a step whose transaction is no command of 30_encoding.md R81: its data is not what its OP takes, which the
  host owes the block (R230, R293). DESIGN CHOICE (log entry 9). Safe. -/
  | badTransaction (reason : DecodeError)
  deriving DecidableEq, Repr

/-- A channel after reset (R40). -/
def Channel.reset : Channel where
  targetPid := 0
  en := false
  malformedPolicy := .discard
  shutdownPolicy := .flush
  state := .idle
  bounded := false
  expected := 0
  woff := 0
  ccValid := false
  lastCc := 0
  fatal := false
  pesSid := 0
  pesLen := 0
  pesHdl := 0
  lastResult := .unexpectedPid
  lastFlags := 0
  acc := []

/-- A channel after reset with empty streams (R40), a sink whose answers are free and an event consumer that takes every
record (log entries 2 and 5). -/
def Lane.reset : Lane where
  ch := Channel.reset
  sink := []
  events := []
  replies := []
  calls := 0
  eventRoom := none

/-- The machine right after reset, for each number of channels and each buffer capacity (R40; 70_reset_and_hazards.md
R290). -/
def State.resetWith (channels : Nat) (capacity : Word) : State where
  accCapacity := capacity
  pktIndex := 0
  lanes := List.replicate channels Lane.reset
  responses := []
  hostIn := []

/-- The machine right after reset, with the build parameters of log entry 1. -/
def State.reset : State := State.resetWith Config.resetChannels Config.resetCapacity

end Sys2Proof.Machine
end

