-- ==== Sys2Proof/Machine/Flags.lean ====
section
/-! DEFINITION. The codes the block reports: result codes, the flag vector, status words, and the register words formed from
a channel's fields (spec/30_encoding.md R82, R84, R85; 10_state.md R31 to R37). -/

namespace Sys2Proof.Machine

/-- The 3-bit result code (30_encoding.md R84). -/
def Result.code : Result → BitVec 3
  | .unexpectedPid => 0
  | .streamPacketLost => 1
  | .assemblingStarted => 2
  | .assemblingContinue => 3
  | .assemblingFinished => 4
  | .sinkError => 5

/-- The conditions of the flag vector (30_encoding.md R85). -/
inductive Flag where
  /-- F_DISC: a CC discontinuity -/
  | disc
  /-- F_GEOM: adaptation-field length above 183 -/
  | geom
  /-- F_NO_PAYLOAD: plen = 0 -/
  | noPayload
  /-- F_ORDER: a continuation while Idle -/
  | order
  /-- F_CAP: appending would exceed the capacity -/
  | cap
  /-- F_PREFIX: the start code is not 0x000001 -/
  | badStartCode
  /-- F_HDR_TRUNC: the PES header does not lie wholly in the packet -/
  | hdrTrunc
  /-- F_LEN: the declared PES length is shorter than the header -/
  | len
  /-- F_PREV_ABORTED: an incomplete bounded PES is dropped by a new start -/
  | prevAborted
  /-- F_FLUSH: SinkEmit was called at least once -/
  | flush
  /-- F_START: a PES header was accepted and a new PES begun -/
  | start
  /-- F_DISCARD: a PES in progress was discarded -/
  | discard
  deriving DecidableEq, Repr

/-- The flag's bit in the vector (R85). -/
def Flag.index : Flag → Nat
  | .disc => 0
  | .geom => 1
  | .noPayload => 2
  | .order => 3
  | .cap => 4
  | .badStartCode => 5
  | .hdrTrunc => 6
  | .len => 7
  | .prevAborted => 8
  | .flush => 9
  | .start => 10
  | .discard => 11

/-- The vector with only this flag set. -/
def Flag.mask (k : Flag) : BitVec 12 := BitVec.twoPow 12 k.index

/-- The vector with this flag set as well. -/
def setFlag (fl : BitVec 12) (k : Flag) : BitVec 12 := fl ||| k.mask

/-- The vector with this flag set when the condition holds. -/
def setFlagIf (cond : Bool) (fl : BitVec 12) (k : Flag) : BitVec 12 := if cond then setFlag fl k else fl

/-- The STATUS field of a response (30_encoding.md R82); value 3 is never produced. -/
inductive StatusCode where
  /-- 0 OK -/
  | ok
  /-- 1 ILLEGAL -/
  | illegal
  /-- 2 SINK_ERROR -/
  | sinkError
  deriving DecidableEq, Repr

/-- The status word: STATUS in bits 1:0, bits 31:2 zero (R82). -/
def StatusCode.word : StatusCode → Word
  | .ok => 0
  | .illegal => 1
  | .sinkError => 2

/-- The MALFORMED_POLICY bit (R33). -/
def MalformedPolicy.bit : MalformedPolicy → Bool
  | .discard => false
  | .propagate => true

/-- The policy a MALFORMED_POLICY bit names (R33). -/
def malformedPolicyOf (bit : Bool) : MalformedPolicy := if bit then .propagate else .discard

/-- The SHUTDOWN_POLICY bit (R33). -/
def ShutdownPolicy.bit : ShutdownPolicy → Bool
  | .flush => false
  | .discard => true

/-- The policy a SHUTDOWN_POLICY bit names (R33). -/
def shutdownPolicyOf (bit : Bool) : ShutdownPolicy := if bit then .discard else .flush

/-- The STATE bit (R34). -/
def Lifecycle.bit : Lifecycle → Bool
  | .idle => false
  | .assembling => true

/-- CTRL(c): PID in 12:0, EN in 16, the policies in 17 and 18, the rest zero (R33). -/
def Channel.ctrlWord (ch : Channel) : Word :=
  (0 : BitVec 13) ++ BitVec.ofBool ch.shutdownPolicy.bit ++ BitVec.ofBool ch.malformedPolicy.bit ++
    BitVec.ofBool ch.en ++ (0 : BitVec 3) ++ ch.targetPid

/-- STATUS(c) (R34). -/
def Channel.statusWord (ch : Channel) : Word :=
  (0 : BitVec 8) ++ ch.lastFlags ++ (0 : BitVec 1) ++ ch.lastResult.code ++ ch.lastCc ++ BitVec.ofBool ch.fatal ++
    BitVec.ofBool ch.ccValid ++ BitVec.ofBool ch.bounded ++ BitVec.ofBool ch.state.bit

/-- PESHDR(c): stream-id in 7:0, PES-packet-length in 23:8, header-data-length in 31:24 (R37). -/
def Channel.pesHdrWord (ch : Channel) : Word := ch.pesHdl ++ ch.pesLen ++ ch.pesSid

end Sys2Proof.Machine
end

