-- ==== Sys2Proof/Machine/Operands.lean ====
section
/-! DEFINITION. What a command names: the registers of the index map and the words read from them (spec/10_state.md R30 to
R38). -/

namespace Sys2Proof.Machine

/-- What a register index names (R30). -/
inductive Reg where
  /-- INFO, 0x00 -/
  | info
  /-- PKTIDX, 0x01 -/
  | pktidx
  /-- ACCCAP, 0x02 -/
  | acccap
  /-- CTRL(c), 0x10 + 8c -/
  | ctrl (channel : Nat)
  /-- STATUS(c), 0x10 + 8c + 1 -/
  | status (channel : Nat)
  /-- WOFF(c), 0x10 + 8c + 2 -/
  | woff (channel : Nat)
  /-- EXPECTED(c), 0x10 + 8c + 3 -/
  | expected (channel : Nat)
  /-- PESHDR(c), 0x10 + 8c + 4 -/
  | pesHdr (channel : Nat)
  /-- every other index -/
  | reserved
  deriving DecidableEq, Repr

/-- The register at offset `off` of channel `c`'s group of eight indices (R30). -/
def channelReg (c off : Nat) : Reg :=
  match off with
  | 0 => .ctrl c
  | 1 => .status c
  | 2 => .woff c
  | 3 => .expected c
  | 4 => .pesHdr c
  | _ => .reserved

/-- The index map for `n` channels (R30). -/
def regAt (n : Nat) (index : BitVec 8) : Reg :=
  let i := index.toNat
  if i = 0 then .info
  else if i = 1 then .pktidx
  else if i = 2 then .acccap
  else if i < 0x10 then .reserved
  else if (i - 0x10) / 8 < n then channelReg ((i - 0x10) / 8) ((i - 0x10) % 8)
  else .reserved

/-- The word `f` forms from channel `c`; 0 where there is no such channel (R38). -/
def State.channelWord (s : State) (c : Nat) (f : Channel → Word) : Word :=
  match s.lanes[c]? with
  | some l => f l.ch
  | none => 0

/-- The word a register holds (R31 to R38). -/
def State.regWord (s : State) : Reg → Word
  | .info => BitVec.ofNat 24 0 ++ BitVec.ofNat 8 s.lanes.length
  | .pktidx => s.pktIndex
  | .acccap => s.accCapacity
  | .ctrl c => s.channelWord c Channel.ctrlWord
  | .status c => s.channelWord c Channel.statusWord
  | .woff c => s.channelWord c Channel.woff
  | .expected c => s.channelWord c Channel.expected
  | .pesHdr c => s.channelWord c Channel.pesHdrWord
  | .reserved => 0

/-- `x[i]`: the register at index i (00_scope.md R15). -/
def State.readReg (s : State) (index : BitVec 8) : Word := s.regWord (regAt s.lanes.length index)

end Sys2Proof.Machine
end

