-- ==== Sys2Proof/Machine/Ops.lean ====
section
/-! DEFINITION. The named operations over the state: the buffer ACC, the ports, and the primitives FLUSH, DISCARD and
SINKFAIL of spec/43_assembler.md R182, R183, R193.

The block has no exception entry and no return from one (60_exceptions.md R260, R266, R267): an error condition is a result,
a flag and, for a sink error, FATAL. SINKFAIL is the one shared operation that takes such a condition. -/

namespace Sys2Proof.Machine

/-! ## The buffer ACC (20_memory.md R50, R53) -/

/-- The byte at an address, if one has been written there. -/
def Memory.read? (m : Memory) (a : Nat) : Option Byte :=
  match m with
  | [] => none
  | (k, b) :: rest => if k = a then some b else Memory.read? rest a

/-- The cells of a list of bytes laid out from an address up. -/
def cellsFrom (a : Nat) (bytes : List Byte) : Memory :=
  match bytes with
  | [] => []
  | b :: rest => (a, b) :: cellsFrom (a + 1) rest

/-- `MemWrite(ACC, a, bytes)` (00_scope.md R14). -/
def Memory.write (m : Memory) (a : Nat) (bytes : List Byte) : Memory :=
  m.filter (fun cell => cell.1 < a) ++ cellsFrom a bytes ++ m.filter (fun cell => a + bytes.length ≤ cell.1)

/-- `MemRead(ACC, a, n)` (R14): the n bytes from address a, if each has been written. -/
def Memory.readRange? (m : Memory) (a n : Nat) : Option (List Byte) :=
  match n with
  | 0 => some []
  | n + 1 =>
    match m.read? a with
    | none => none
    | some b =>
      match m.readRange? (a + 1) n with
      | none => none
      | some rest => some (b :: rest)

/-- An append of ABSORB: addresses at or beyond ACC_CAPACITY do not exist (R50, R53). -/
def Channel.accWrite (cap : Word) (c a : Nat) (bytes : List Byte) (ch : Channel) : Except Fault Channel :=
  if a + bytes.length ≤ cap.toNat then .ok { ch with acc := ch.acc.write a bytes }
  else .error (.accOutside c)

/-! ## Channel state -/

/-- The Idle state FLUSH and DISCARD leave: WOFF, BOUNDED and EXPECTED zero (R182, R183, D40). ACC's content is unspecified
from then on (R27), so no byte of it holds a value (log entry 4). -/
def Channel.toIdle (ch : Channel) : Channel :=
  { ch with state := .idle, woff := 0, bounded := false, expected := 0, acc := [] }

/-- The counter update of R178. -/
def Channel.trackCc (cc : BitVec 4) (ch : Channel) : Channel := { ch with lastCc := cc, ccValid := true }

/-- The lane with another channel state. -/
def Lane.withCh (l : Lane) (ch : Channel) : Lane := { l with ch := ch }

/-! ## Ports -/

/-- What the sink answers to the next call; `none` if it never answers (20_memory.md R57, R297). -/
def Lane.nextReply (c : Nat) (l : Lane) : Option SinkReply :=
  match l.replies with
  | r :: _ => r
  | [] => some (Config.freeReply c l.calls)

/-- The lane after an answered call by which `got` reached the sink. -/
def Lane.sinkGot (l : Lane) (got : List SinkItem) : Lane :=
  { l with sink := l.sink ++ got, replies := l.replies.tail, calls := l.calls + 1 }

/-- One call of the sink: on `ok` its items are in the stream, on `err` whatever the answer says reached it (R57). The
Boolean is `true` for `ok`. -/
def sinkCall (c : Nat) (items : List SinkItem) (l : Lane) : Except Fault (Bool × Lane) :=
  match l.nextReply c with
  | none => .error (.sinkSilent c)
  | some .ok => .ok (true, l.sinkGot items)
  | some (.err reached) => .ok (false, l.sinkGot reached)

/-- `SinkEmit(c, bytes)`: one burst and the end-of-PES marker (00_scope.md R16, 20_memory.md R55). -/
def sinkEmit (c : Nat) (bytes : List Byte) (l : Lane) : Except Fault (Bool × Lane) :=
  sinkCall c [.bytes bytes, .endOfPes] l

/-- `SinkClose(c)` (R16, R55). -/
def sinkClose (c : Nat) (l : Lane) : Except Fault (Bool × Lane) := sinkCall c [.close] l

/-- `SinkEmit(c, MemRead(ACC[c], 0, CH[c].WOFF))`: the burst every flush sends (43_assembler.md R182). -/
def emitAcc (c : Nat) (l : Lane) : Except Fault (Bool × Lane) :=
  match l.ch.acc.readRange? 0 l.ch.woff.toNat with
  | none => .error (.accUnwritten c)
  | some bytes => sinkEmit c bytes l

/-- `EventEmit(c, ev)` (R16); the consumer takes the record or the command never ends (R298). -/
def eventEmit (c : Nat) (ev : EventRec) (l : Lane) : Except Fault Lane :=
  match l.eventRoom with
  | none => .ok { l with events := l.events ++ [ev] }
  | some 0 => .error (.eventSilent c)
  | some (n + 1) => .ok { l with events := l.events ++ [ev], eventRoom := some n }

/-- The command's response (30_encoding.md R82). -/
def State.respond (s : State) (st : StatusCode) (data : Option Word) : State :=
  { s with responses := s.responses ++ [{ status := st.word, data := data }] }

/-- The state with channel `c`'s lane replaced. -/
def State.setLane (s : State) (c : Nat) (l : Lane) : State := { s with lanes := s.lanes.set c l }

/-! ## One packet on one channel: the working record and the primitives -/

/-- The PES header triple an event carries (30_encoding.md R87). -/
structure PesTriple where
  /-- stream-id -/
  sid : BitVec 8
  /-- PES-packet-length -/
  len : BitVec 16
  /-- header-data-length -/
  hdl : BitVec 8
  deriving DecidableEq, Repr

/-- A channel's lane while it processes a packet, with the variables `fl` and `pes` of 43_assembler.md R172. -/
structure Work where
  /-- the channel and its ports -/
  lane : Lane
  /-- `fl` -/
  fl : BitVec 12
  /-- `pes` -/
  pes : Option PesTriple
  deriving DecidableEq, Repr

/-- `fl <- fl + {k}`. -/
def Work.flag (k : Flag) (w : Work) : Work := { w with fl := setFlag w.fl k }

/-- The record with another channel state. -/
def Work.withCh (w : Work) (ch : Channel) : Work := { w with lane := w.lane.withCh ch }

/-- DISCARD (R183): nothing reaches the sink; F_DISCARD if a PES was in progress. -/
def Work.discard (w : Work) : Work :=
  { w with fl := setFlagIf (w.lane.ch.state == .assembling) w.fl .discard,
           lane := w.lane.withCh w.lane.ch.toIdle }

/-- FLUSH (R182): the accumulated bytes go to the sink and the channel is Idle whatever the sink answers; `true` is `ok`. -/
def Work.flush (c : Nat) (w : Work) : Except Fault (Bool × Work) :=
  match emitAcc c w.lane with
  | .error f => .error f
  | .ok (ok, l) => .ok (ok, { w with fl := setFlag w.fl .flush, lane := l.withCh l.ch.toIdle })

/-- The state change of SINKFAIL (R193): FATAL is set and the channel is discarded. -/
def Work.sinkFail (w : Work) : Work := (w.withCh { w.lane.ch with fatal := true }).discard

/-- A flush that ends the packet: the result is `r`, or SinkError through SINKFAIL (R188, R192, R193). -/
def Work.flushAs (c : Nat) (r : Result) (w : Work) : Except Fault (Result × Work) :=
  match w.flush c with
  | .error f => .error f
  | .ok (true, w') => .ok (r, w')
  | .ok (false, w') => .ok (.sinkError, w'.sinkFail)

end Sys2Proof.Machine
end

