-- ==== Sys2Proof/Machine/HeaderParser.lean ====
section
/-! DEFINITION. The Packet Header Parser, HDR_DECODE (spec/40_header_parser.md). -/

namespace Sys2Proof.Machine

/-- The decoded TS header (R100). -/
structure Header where
  /-- sync byte; no rule checks it (R102) -/
  sync : Byte
  /-- transport-error indicator; reported only (R103) -/
  tei : Bool
  /-- payload-unit-start indicator S -/
  pusi : Bool
  /-- transport priority; reported only (R103) -/
  tp : Bool
  /-- packet identifier -/
  pid : BitVec 13
  /-- scrambling control; reported only (R103) -/
  tsc : BitVec 2
  /-- adaptation-field control -/
  afc : BitVec 2
  /-- continuity counter -/
  cc : BitVec 4
  /-- the header word W of 30_encoding.md R70 -/
  word : Word
  deriving DecidableEq, Repr

/-- HDR_DECODE (R100): pure, and defined on every four bytes. -/
def hdrDecode (p : Packet) : Header where
  sync := p.byte 0
  tei := (p.byte 1).getLsbD 7
  pusi := p.pusi
  tp := (p.byte 1).getLsbD 5
  pid := p.pid
  tsc := (p.byte 3).extractLsb' 6 2
  afc := p.afc
  cc := (p.byte 3).extractLsb' 0 4
  word := p.byte 0 ++ p.byte 1 ++ p.byte 2 ++ p.byte 3

/-- AFC is 10 or 11 (R101). -/
def Header.hasAdaptationField (h : Header) : Bool := h.afc == 2 || h.afc == 3

/-- AFC is 01 or 11 (R101; 90_conflicts.md C1). -/
def Header.hasPayload (h : Header) : Bool := h.afc == 1 || h.afc == 3

end Sys2Proof.Machine
end

