-- ==== Sys2Proof/Machine/AdaptationField.lean ====
section
/-! DEFINITION. The Adaptation Field Parser, AF_DECODE, and the payload geometry (spec/41_adaptation_field.md). -/

namespace Sys2Proof.Machine

/-- The eight flags of an adaptation field, in the order of 30_encoding.md R72. -/
inductive AfFlag where
  /-- DISC, bit 7 -/
  | disc
  /-- RAI, bit 6 -/
  | rai
  /-- ESPI, bit 5 -/
  | espi
  /-- PCR_FLAG, bit 4 -/
  | pcr
  /-- OPCR_FLAG, bit 3 -/
  | opcr
  /-- SPLICE_FLAG, bit 2 -/
  | splice
  /-- PRIV_FLAG, bit 1 -/
  | priv
  /-- EXT_FLAG, bit 0 -/
  | extension
  deriving DecidableEq, Repr

/-- The flag's bit in P[5] (R72). -/
def AfFlag.index : AfFlag → Nat
  | .disc => 7
  | .rai => 6
  | .espi => 5
  | .pcr => 4
  | .opcr => 3
  | .splice => 2
  | .priv => 1
  | .extension => 0

/-- A decoded adaptation field; the flags byte exists only when the length is not 0 (R120, R121). -/
structure Adaptation where
  /-- L, P[4] -/
  length : Byte
  /-- P[5], when it is a flags byte -/
  flags : Option Byte
  deriving DecidableEq, Repr

/-- AF_DECODE (R120): `none` is A.present = 0; P[5] is read only when L > 0 (R121). -/
def afDecode (p : Packet) (h : Header) : Option Adaptation :=
  if h.hasAdaptationField then
    some { length := p.byte 4, flags := if p.byte 4 = 0 then none else some (p.byte 5) }
  else none

/-- One flag of the field; absent flags read as not set (R121). -/
def Adaptation.flag (a : Adaptation) (k : AfFlag) : Bool := (a.flags.getD 0).getLsbD k.index

/-- A.total: the bytes of the field, its length byte included (R123). -/
def Adaptation.total (a : Adaptation) : Nat := 1 + a.length.toNat

/-- The payload geometry of a packet (R126). -/
structure Geometry where
  /-- payload offset -/
  off : Nat
  /-- payload length -/
  plen : Nat
  /-- the adaptation field does not fit in the packet -/
  err : Bool
  deriving DecidableEq, Repr

/-- The payload offset: 4 without an adaptation field, else 4 + A.total (R123, R126). -/
def payloadOffset (a : Option Adaptation) : Nat :=
  match a with
  | none => 4
  | some field => 4 + field.total

/-- The adaptation-field length is above 183 (R126). -/
def lengthError (a : Option Adaptation) : Bool :=
  match a with
  | none => false
  | some field => decide (183 < field.length.toNat)

/-- GEOMETRY (R126): plen is 0 for AFC 00 and 10 (90_conflicts.md C5). -/
def geometry (h : Header) (a : Option Adaptation) : Geometry where
  off := payloadOffset a
  plen := if lengthError a then 0 else if h.hasPayload then 188 - payloadOffset a else 0
  err := lengthError a

end Sys2Proof.Machine
end

