-- ==== Sys2Proof/Machine/PesHeader.lean ====
section
/-! DEFINITION. The PES Header Parser, PES_DECODE, and its verdict, PES_CHECK (spec/42_pes_header.md). -/

namespace Sys2Proof.Machine

/-- EXCL: the stream-ids that no extended header follows (30_encoding.md R75; the numbers are the spec's, from general knowledge, log
entry 13). -/
def exclSids : List Byte := [0xBC, 0xBE, 0xBF, 0xF0, 0xF1, 0xF2, 0xF8, 0xFF]

/-- An extended header follows (R143). -/
def isExtended (sid : Byte) : Bool := !(exclSids.contains sid)

/-- The output D of PES_DECODE (R140). -/
structure PesDecode where
  /-- D.decoded: the first six bytes are there -/
  decoded : Bool
  /-- D.trunc: the header does not lie wholly in the payload region (R145) -/
  trunc : Bool
  /-- the start code; 0 when not decoded -/
  startCode : BitVec 24
  /-- D.sid; 0 when not decoded -/
  sid : BitVec 8
  /-- D.len; 0 when not decoded -/
  len : BitVec 16
  /-- D.hdl; 0 when absent or not there -/
  hdl : BitVec 8
  /-- D.hs, the header size (R146); 0 where the bytes do not tell it, and then D.trunc is set and no rule reads it
  (DESIGN CHOICE, log entry 14) -/
  hs : Nat
  deriving DecidableEq, Repr

/-- PES_DECODE (R140): `Q[k]` is `P[off + k]`, read only for k < plen. -/
def pesDecode (p : Packet) (off plen : Nat) : PesDecode :=
  if plen < 6 then { decoded := false, trunc := true, startCode := 0, sid := 0, len := 0, hdl := 0, hs := 0 }
  else
    let startCode := p.byte off ++ p.byte (off + 1) ++ p.byte (off + 2)
    let sid := p.byte (off + 3)
    let len := p.byte (off + 4) ++ p.byte (off + 5)
    if isExtended sid then
      if plen < 9 then
        { decoded := true, trunc := true, startCode := startCode, sid := sid, len := len, hdl := 0, hs := 0 }
      else
        let hdl := p.byte (off + 8)
        let hs := 9 + hdl.toNat
        { decoded := true, trunc := decide (plen < hs), startCode := startCode, sid := sid, len := len,
          hdl := hdl, hs := hs }
    else
      { decoded := true, trunc := decide (plen < 6), startCode := startCode, sid := sid, len := len, hdl := 0, hs := 6 }

/-- D.prefix_ok (R141). -/
def PesDecode.startCodeOk (d : PesDecode) : Bool := d.startCode == 1

/-- The triple an event reports (R172: `pes <- (D.sid, D.len, D.hdl)`). -/
def PesDecode.triple (d : PesDecode) : PesTriple := { sid := d.sid, len := d.len, hdl := d.hdl }

/-- The PES is bounded (R147, R148). -/
def PesDecode.bounded (d : PesDecode) : Bool := d.len != 0

/-- EXP: the elementary bytes of a bounded PES, and 0 for an unbounded one (R147, R148). -/
def PesDecode.expected (d : PesDecode) : Nat := if d.bounded then d.len.toNat + 6 - d.hs else 0

/-- What PES_CHECK says (R150). -/
structure Verdict where
  /-- the header is accepted -/
  accept : Bool
  /-- the flags it adds -/
  fl : BitVec 12
  deriving DecidableEq, Repr

/-- PES_CHECK (R150): start code (flag only), truncation, length, then the start code under DISCARD. -/
def pesCheck (d : PesDecode) (policy : MalformedPolicy) : Verdict :=
  let fl := setFlagIf (d.decoded && !d.startCodeOk) 0 .badStartCode
  if d.trunc then { accept := false, fl := setFlag fl .hdrTrunc }
  else if d.bounded && decide (d.len.toNat + 6 < d.hs) then { accept := false, fl := setFlag fl .len }
  else if !d.startCodeOk && policy == .discard then { accept := false, fl := fl }
  else { accept := true, fl := fl }

end Sys2Proof.Machine
end

