-- ==== Sys2Proof/Machine/Assembler.lean ====
section
/-! DEFINITION. The PES Assembler: the per-channel algorithm ABSORB_CH, the event it reports, and the ABSORB of a packet by
every channel (spec/43_assembler.md R170 to R196). -/

namespace Sys2Proof.Machine

/-- EVENT (R194; 30_encoding.md R86). -/
def mkEvent (c : Nat) (idx : Word) (h : Header) (a : Option Adaptation) (r : Result) (fl : BitVec 12)
    (pes : Option PesTriple) : EventRec where
  w0 := idx
  w1 := h.word
  w2 :=
    let length : BitVec 8 := match a with
      | some field => field.length
      | none => 0
    let flags : Option Byte := match a with
      | some field => field.flags
      | none => none
    (0 : BitVec 4) ++ BitVec.ofNat 4 c ++ (0 : BitVec 2) ++ r.code ++ BitVec.ofBool pes.isSome ++
      BitVec.ofBool flags.isSome ++ BitVec.ofBool a.isSome ++ flags.getD 0 ++ length
  w3 := (0 : BitVec 20) ++ fl
  w4 := match pes with
    | some t => t.hdl ++ t.len ++ t.sid
    | none => 0

/-- The continuity check: a previous CC exists and this one is not its successor modulo 16 (R176, R177). -/
def Channel.ccLost (cc : BitVec 4) (ch : Channel) : Bool := ch.ccValid && (cc - ch.lastCc != 1)

/-- The PES in progress when a start packet arrives (R184): an unbounded one is flushed, a bounded one aborted. `false` means
the sink answered `err`. -/
def settlePrevious (c : Nat) (w : Work) : Except Fault (Bool × Work) :=
  if w.lane.ch.state = .assembling then
    if w.lane.ch.bounded then .ok (true, (w.flag .prevAborted).discard)
    else w.flush c
  else .ok (true, w)

/-- The set-up of a new PES after its header `d` was accepted, its `bytes` already in ACC from address 0 (R187). -/
def Channel.openPes (d : PesDecode) (bytes : List Byte) (ch : Channel) : Channel :=
  { ch with woff := BitVec.ofNat 32 bytes.length, bounded := d.bounded, expected := BitVec.ofNat 32 d.expected,
            state := .assembling, pesSid := d.sid, pesLen := d.len, pesHdl := d.hdl }

/-- The capacity of the PES a start packet begins: EXP when it is bounded, ACC_CAPACITY when not (R25, R186). -/
def PesDecode.room (cap : Word) (d : PesDecode) : Nat := if d.bounded then d.expected else cap.toNat

/-- The new PES of a start packet (R185 to R188); `lost` is the failed continuity check, whose report wins over the result
of the start (R180). -/
def beginPes (cap : Word) (c : Nat) (p : Packet) (g : Geometry) (lost : Bool) (w : Work) :
    Except Fault (Result × Work) :=
  let d := pesDecode p g.off g.plen
  let v := pesCheck d w.lane.ch.malformedPolicy
  let w := { w with pes := if d.decoded then some d.triple else w.pes, fl := w.fl ||| v.fl }
  if v.accept then
    let n := g.plen - d.hs
    if n > d.room cap then .ok (.streamPacketLost, w.flag .cap)
    else
      let bytes := p.slice (g.off + d.hs) 188
      match w.lane.ch.accWrite cap c 0 bytes with
      | .error f => .error f
      | .ok ch =>
        let w := (w.withCh (ch.openPes d bytes)).flag .start
        if d.bounded && n == d.expected then
          w.flushAs c (if lost then .streamPacketLost else .assemblingFinished)
        else .ok (if lost then .streamPacketLost else .assemblingStarted, w)
  else .ok (.streamPacketLost, w)

/-- A start packet: first the PES in progress (R184), then the new one. -/
def startPes (cap : Word) (c : Nat) (p : Packet) (g : Geometry) (lost : Bool) (w : Work) :
    Except Fault (Result × Work) :=
  match settlePrevious c w with
  | .error f => .error f
  | .ok (true, w') => beginPes cap c p g lost w'
  | .ok (false, w') => .ok (.sinkError, w'.sinkFail)

/-- The capacity of the PES in progress (R25, R190). -/
def Channel.room (cap : Word) (ch : Channel) : Nat := if ch.bounded then ch.expected.toNat else cap.toNat

/-- The header of the PES in progress (R192: what the event of a completing continuation carries). -/
def Channel.storedPes (ch : Channel) : PesTriple := { sid := ch.pesSid, len := ch.pesLen, hdl := ch.pesHdl }

/-- The header a completing continuation reports (30_encoding.md R87 b, c): the stored one when the result is AssemblingFinished,
none otherwise. DEDUCED (log entry 7): R87, and not R172's `pes`, decides it when the flush fails. -/
def Work.reportStored (t : PesTriple) (r : Result) (w : Work) : Work :=
  if r = .assemblingFinished then { w with pes := some t } else w

/-- A continuation packet (R189 to R192). -/
def continuePes (cap : Word) (c : Nat) (p : Packet) (g : Geometry) (w : Work) : Except Fault (Result × Work) :=
  let ch := w.lane.ch
  if ch.state = .idle then .ok (.streamPacketLost, w.flag .order)
  else
    let woff := ch.woff.toNat + g.plen
    if woff > ch.room cap then .ok (.streamPacketLost, (w.flag .cap).discard)
    else
      match ch.accWrite cap c ch.woff.toNat (p.slice g.off 188) with
      | .error f => .error f
      | .ok ch' =>
        let w := w.withCh { ch' with woff := BitVec.ofNat 32 woff }
        if ch.bounded && woff == ch.expected.toNat then
          match w.flushAs c .assemblingFinished with
          | .error f => .error f
          | .ok (r, w') => .ok (r, w'.reportStored ch.storedPes r)
        else .ok (.assemblingContinue, w)

/-- A packet that has passed both gates (R172 from the geometry on). -/
def processPacket (cap : Word) (c : Nat) (p : Packet) (h : Header) (g : Geometry) (w : Work) :
    Except Fault (Result × Work) :=
  if g.err then
    let w := (w.flag .geom).discard
    .ok (.streamPacketLost, w.withCh (w.lane.ch.trackCc h.cc))
  else
    let lost := w.lane.ch.ccLost h.cc
    let start := h.pusi && decide (0 < g.plen)
    let w := { w with fl := setFlagIf lost w.fl .disc }
    let w := w.withCh (w.lane.ch.trackCc h.cc)
    let w := if lost then w.discard else w
    if lost && !start then .ok (.streamPacketLost, w)
    else if g.plen = 0 then .ok (.assemblingContinue, w.flag .noPayload)
    else if start then startPes cap c p g lost w
    else continuePes cap c p g w

/-- The state change of FINISH (R194). -/
def Work.finish (r : Result) (w : Work) : Lane :=
  w.lane.withCh { w.lane.ch with lastResult := r, lastFlags := w.fl }

/-- ABSORB_CH (R172): the lane after the packet, and its event record. -/
def absorbChannel (cap : Word) (c : Nat) (p : Packet) (h : Header) (a : Option Adaptation) (idx : Word) (l : Lane) :
    Except Fault (Lane × EventRec) :=
  if !l.ch.en || h.pid != l.ch.targetPid then .ok (l, mkEvent c idx h a .unexpectedPid 0 none)
  else if l.ch.fatal then .ok (l, mkEvent c idx h a .sinkError 0 none)
  else
    match processPacket cap c p h (geometry h a) { lane := l, fl := 0, pes := none } with
    | .error f => .error f
    | .ok (r, w) => .ok (w.finish r, mkEvent c idx h a r w.fl w.pes)

/-- One channel's part of ABSORB: the packet decoded and absorbed, and the record emitted (R171). -/
def absorbLane (cap idx : Word) (p : Packet) (c : Nat) (l : Lane) : Except Fault Lane :=
  let h := hdrDecode p
  match absorbChannel cap c p h (afDecode p h) idx l with
  | .error f => .error f
  | .ok (l', ev) => eventEmit c ev l'

/-- Every channel from channel `c` up, in order (R171). -/
def absorbLanes (cap idx : Word) (p : Packet) (c : Nat) (lanes : List Lane) : Except Fault (List Lane) :=
  match lanes with
  | [] => .ok []
  | l :: rest =>
    match absorbLane cap idx p c l with
    | .error f => .error f
    | .ok l' =>
      match absorbLanes cap idx p (c + 1) rest with
      | .error f => .error f
      | .ok rest' => .ok (l' :: rest')

/-- ABSORB (R171): every channel, then PKT_INDEX, then the response. -/
def absorbPacket (p : Packet) (s : State) : Host.Outcome State Fault Refusal :=
  match absorbLanes s.accCapacity s.pktIndex p 0 s.lanes with
  | .error f => .fault f
  | .ok lanes => .next ({ s with lanes := lanes, pktIndex := s.pktIndex + 1 }.respond .ok none)

/-- ABSORB (R170). -/
def execAbsorb (p : Packet) (s : State) : Host.Outcome State Fault Refusal := absorbPacket p s

end Sys2Proof.Machine
end

