-- ==== Sys2Proof/Machine/HostCommands.lean ====
section
/-! DEFINITION. The host commands NOP, WRREG, RDREG, EOS and the reserved ones (spec/44_host_commands.md). -/

namespace Sys2Proof.Machine

/-- NOP (R231): only the response. -/
def execNop (s : State) : Host.Outcome State Fault Refusal := .next (s.respond .ok none)

/-- CTRL_WRITE (R233): the channel is configured from the data word and re-created. -/
def ctrlWrite (v : Word) : Channel :=
  { Channel.reset with
    targetPid := v.extractLsb' 0 13
    en := v.getLsbD 16
    malformedPolicy := malformedPolicyOf (v.getLsbD 17)
    shutdownPolicy := shutdownPolicyOf (v.getLsbD 18) }

/-- The state change of WRREG: a CTRL index re-creates its channel, every other index changes nothing (R232, R234). -/
def State.writeReg (s : State) (index : BitVec 8) (v : Word) : State :=
  match regAt s.lanes.length index with
  | .ctrl c =>
    match s.lanes[c]? with
    | some l => s.setLane c (l.withCh (ctrlWrite v))
    | none => s
  | .info | .pktidx | .acccap | .status _ | .woff _ | .expected _ | .pesHdr _ | .reserved => s

/-- WRREG (R232). -/
def execWrreg (index : BitVec 8) (v : Word) (s : State) : Host.Outcome State Fault Refusal :=
  .next ((s.writeReg index v).respond .ok none)

/-- RDREG (R235): the register's word in the response, and no other change. -/
def execRdreg (index : BitVec 8) (s : State) : Host.Outcome State Fault Refusal :=
  .next (s.respond .ok (some (s.readReg index)))

/-- What EOS leaves of a channel, `failed` telling a sink error (R238). -/
def Channel.afterEos (failed : Bool) (ch : Channel) : Channel :=
  { ch.toIdle with ccValid := false, lastCc := 0, fatal := ch.fatal || failed }

/-- The PES in progress at EOS: emitted under FLUSH, dropped under DISCARD (R238). -/
def eosFlush (c : Nat) (l : Lane) : Except Fault (Bool × Lane) :=
  if l.ch.state = .assembling ∧ l.ch.shutdownPolicy = .flush then emitAcc c l else .ok (true, l)

/-- The Close of EOS, sent only if the flush did not fail (R238). -/
def eosClose (c : Nat) (ok : Bool) (l : Lane) : Except Fault (Bool × Lane) :=
  if ok then sinkClose c l else .ok (false, l)

/-- EOS on a channel that exists (R238). -/
def eosLane (c : Nat) (l : Lane) : Except Fault (StatusCode × Lane) :=
  if l.ch.fatal then .ok (.sinkError, l)
  else
    match eosFlush c l with
    | .error f => .error f
    | .ok (flushed, l1) =>
      match eosClose c flushed l1 with
      | .error f => .error f
      | .ok (closed, l2) =>
        .ok (if closed then .ok else .sinkError, l2.withCh (l2.ch.afterEos !closed))

/-- EOS (R236); a channel that does not exist gives ILLEGAL (R237). -/
def execEos (ch : BitVec 4) (s : State) : Host.Outcome State Fault Refusal :=
  match s.lanes[ch.toNat]? with
  | none => .next (s.respond .illegal none)
  | some l =>
    match eosLane ch.toNat l with
    | .error f => .fault f
    | .ok (st, l') => .next ((s.setLane ch.toNat l').respond st none)

/-- A reserved command: ILLEGAL, and no other change (R239). -/
def reservedCommand (s : State) : Host.Outcome State Fault Refusal := .next (s.respond .illegal none)

/-- OP = 0x5 (R239). -/
def execReserved5 (s : State) : Host.Outcome State Fault Refusal := reservedCommand s

/-- OP = 0x6 (R239). -/
def execReserved6 (s : State) : Host.Outcome State Fault Refusal := reservedCommand s

/-- OP = 0x7 (R239). -/
def execReserved7 (s : State) : Host.Outcome State Fault Refusal := reservedCommand s

/-- OP = 0x8 (R239). -/
def execReserved8 (s : State) : Host.Outcome State Fault Refusal := reservedCommand s

/-- OP = 0x9 (R239). -/
def execReserved9 (s : State) : Host.Outcome State Fault Refusal := reservedCommand s

/-- OP = 0xA (R239). -/
def execReservedA (s : State) : Host.Outcome State Fault Refusal := reservedCommand s

/-- OP = 0xB (R239). -/
def execReservedB (s : State) : Host.Outcome State Fault Refusal := reservedCommand s

/-- OP = 0xC (R239). -/
def execReservedC (s : State) : Host.Outcome State Fault Refusal := reservedCommand s

/-- OP = 0xD (R239). -/
def execReservedD (s : State) : Host.Outcome State Fault Refusal := reservedCommand s

/-- OP = 0xE (R239). -/
def execReservedE (s : State) : Host.Outcome State Fault Refusal := reservedCommand s

/-- OP = 0xF (R239). -/
def execReservedF (s : State) : Host.Outcome State Fault Refusal := reservedCommand s

end Sys2Proof.Machine
end

