-- ==== Sys2Proof/Machine/PacketClasses.lean ====
section
/-! DEFINITION. The TS_HEADER rows of spec/opcode_table.json: the ABSORB of a packet of each class. The constructor gives
AFC, and S where the row fixes it; the class, with the adaptation-field length, fixes the payload length, and so the path a
channel takes (spec/30_encoding.md R79). -/

namespace Sys2Proof.Machine

/-- TS_AFC_RESERVED: no adaptation field and no payload, a zero-payload packet (R79, R181). -/
def execTsAfcReserved (u : Bool) (f : TsFields) (b : Body) (s : State) : Host.Outcome State Fault Refusal :=
  absorbPacket (f.packet u 0 b) s

/-- TS_PAYLOAD_START: 184 payload bytes that begin a PES (R79, R184 to R188). -/
def execTsPayloadStart (f : TsFields) (b : Body) (s : State) : Host.Outcome State Fault Refusal :=
  absorbPacket (f.packet true 1 b) s

/-- TS_PAYLOAD_CONT: 184 payload bytes that continue one (R79, R189 to R192). -/
def execTsPayloadCont (f : TsFields) (b : Body) (s : State) : Host.Outcome State Fault Refusal :=
  absorbPacket (f.packet false 1 b) s

/-- TS_AF_ONLY: an adaptation field and no payload (R79, R175, R181). -/
def execTsAfOnly (u : Bool) (f : TsFields) (b : Body) (s : State) : Host.Outcome State Fault Refusal :=
  absorbPacket (f.packet u 2 b) s

/-- TS_AF_PAYLOAD_START: an adaptation field of length L and 183 - L payload bytes that begin a PES
(R79, R175, R181, R184 to R188). -/
def execTsAfPayloadStart (f : TsFields) (b : Body) (s : State) : Host.Outcome State Fault Refusal :=
  absorbPacket (f.packet true 3 b) s

/-- TS_AF_PAYLOAD_CONT: an adaptation field of length L and 183 - L payload bytes that continue one
(R79, R175, R181, R189 to R192). -/
def execTsAfPayloadCont (f : TsFields) (b : Body) (s : State) : Host.Outcome State Fault Refusal :=
  absorbPacket (f.packet false 3 b) s

end Sys2Proof.Machine
end

