-- ==== Sys2Proof/Machine/StreamIds.lean ====
section
/-! DEFINITION. The PES_STREAM_ID rows of spec/opcode_table.json: the ABSORB of a start packet whose PES header has the row's
stream-id. The stream-id selects the header size: 6 for the eight excluded ones, 9 + HDL for every other
(spec/30_encoding.md R75, R76; 42_pes_header.md R143, R146). -/

namespace Sys2Proof.Machine

/-- SID_EXCL_BC, program_stream_map (R75, R143). -/
def execSidExclBC (q : PesStart) (s : State) : Host.Outcome State Fault Refusal := absorbPacket (q.packet 0xBC) s

/-- SID_EXCL_BE, padding_stream (R75, R143). -/
def execSidExclBE (q : PesStart) (s : State) : Host.Outcome State Fault Refusal := absorbPacket (q.packet 0xBE) s

/-- SID_EXCL_BF, private_stream_2 (R75, R143). -/
def execSidExclBF (q : PesStart) (s : State) : Host.Outcome State Fault Refusal := absorbPacket (q.packet 0xBF) s

/-- SID_EXCL_F0, ECM (R75, R143). -/
def execSidExclF0 (q : PesStart) (s : State) : Host.Outcome State Fault Refusal := absorbPacket (q.packet 0xF0) s

/-- SID_EXCL_F1, EMM (R75, R143). -/
def execSidExclF1 (q : PesStart) (s : State) : Host.Outcome State Fault Refusal := absorbPacket (q.packet 0xF1) s

/-- SID_EXCL_F2, DSMCC_stream (R75, R143). -/
def execSidExclF2 (q : PesStart) (s : State) : Host.Outcome State Fault Refusal := absorbPacket (q.packet 0xF2) s

/-- SID_EXCL_F8, ITU-T H.222.1 type E (R75, R143). -/
def execSidExclF8 (q : PesStart) (s : State) : Host.Outcome State Fault Refusal := absorbPacket (q.packet 0xF8) s

/-- SID_EXCL_FF, program_stream_directory (R75, R143). -/
def execSidExclFF (q : PesStart) (s : State) : Host.Outcome State Fault Refusal := absorbPacket (q.packet 0xFF) s

/-- SID_EXTENDED, every stream-id outside EXCL (R75, R143, R144, R146). -/
def execSidExtended (sid : Byte) (q : PesStart) (s : State) : Host.Outcome State Fault Refusal :=
  absorbPacket (q.packet sid) s

end Sys2Proof.Machine
end

