-- ==== Sys2Proof/Machine/Dispatch.lean ====
section
/-! DEFINITION. One arm per row of spec/opcode_table.json. -/

namespace Sys2Proof.Machine

def exec (i : Instr) (s : State) : Host.Outcome State Fault Refusal :=
  match i with
  | .nop => Sys2Proof.Machine.execNop s
  | .absorb p => Sys2Proof.Machine.execAbsorb p s
  | .wrreg index v => Sys2Proof.Machine.execWrreg index v s
  | .rdreg index => Sys2Proof.Machine.execRdreg index s
  | .eos ch => Sys2Proof.Machine.execEos ch s
  | .reserved5 => Sys2Proof.Machine.execReserved5 s
  | .reserved6 => Sys2Proof.Machine.execReserved6 s
  | .reserved7 => Sys2Proof.Machine.execReserved7 s
  | .reserved8 => Sys2Proof.Machine.execReserved8 s
  | .reserved9 => Sys2Proof.Machine.execReserved9 s
  | .reservedA => Sys2Proof.Machine.execReservedA s
  | .reservedB => Sys2Proof.Machine.execReservedB s
  | .reservedC => Sys2Proof.Machine.execReservedC s
  | .reservedD => Sys2Proof.Machine.execReservedD s
  | .reservedE => Sys2Proof.Machine.execReservedE s
  | .reservedF => Sys2Proof.Machine.execReservedF s
  | .tsAfcReserved u f b => Sys2Proof.Machine.execTsAfcReserved u f b s
  | .tsPayloadStart f b => Sys2Proof.Machine.execTsPayloadStart f b s
  | .tsPayloadCont f b => Sys2Proof.Machine.execTsPayloadCont f b s
  | .tsAfOnly u f b => Sys2Proof.Machine.execTsAfOnly u f b s
  | .tsAfPayloadStart f b => Sys2Proof.Machine.execTsAfPayloadStart f b s
  | .tsAfPayloadCont f b => Sys2Proof.Machine.execTsAfPayloadCont f b s
  | .sidExclBC q => Sys2Proof.Machine.execSidExclBC q s
  | .sidExclBE q => Sys2Proof.Machine.execSidExclBE q s
  | .sidExclBF q => Sys2Proof.Machine.execSidExclBF q s
  | .sidExclF0 q => Sys2Proof.Machine.execSidExclF0 q s
  | .sidExclF1 q => Sys2Proof.Machine.execSidExclF1 q s
  | .sidExclF2 q => Sys2Proof.Machine.execSidExclF2 q s
  | .sidExclF8 q => Sys2Proof.Machine.execSidExclF8 q s
  | .sidExclFF q => Sys2Proof.Machine.execSidExclFF q s
  | .sidExtended sid q => Sys2Proof.Machine.execSidExtended sid q s

end Sys2Proof.Machine
end

