-- ==== Sys2Proof/Machine/HostPort.lean ====
section
/-! DEFINITION. The host's side of a step: taking its next input, a reset between transactions, and a reset that cuts a
command off (spec/44_host_commands.md R230; 70_reset_and_hazards.md R290, R291). -/

namespace Sys2Proof.Machine

/-- A lane after reset: the channel's fields, SINK and EVT at the values of 10_state.md R40, the streams empty. What the ports will do
is the surroundings' and stays (DESIGN CHOICE, log entry 6). -/
def Lane.applyReset (l : Lane) : Lane :=
  { Lane.reset with replies := l.replies, calls := l.calls, eventRoom := l.eventRoom }

/-- Reset (R290): PKT_INDEX, every lane and the responses at the values of 10_state.md R40; nothing is sent and no command answered. -/
def State.applyReset (s : State) : State :=
  { s with pktIndex := 0, lanes := s.lanes.map Lane.applyReset, responses := [] }

/-- The lane with every call answered and every record taken: what a command cut off by a reset can have sent is a part of
what it would have sent to ports that answer. -/
def Lane.answering (l : Lane) : Lane :=
  { l with replies := l.replies.map fun r => some (r.getD .ok), eventRoom := none }

/-- The state with every port answering. -/
def State.answering (s : State) : State := { s with lanes := s.lanes.map Lane.answering }

/-- The lane after a reset that cut a command off (R291): the reset lane, with what was left of the command's outputs: of the items and
records `full` has beyond `l`, the first ones `cut` counts. -/
def Lane.keep (full : Lane) (cut : Cut) (l : Lane) : Lane :=
  { l.applyReset with
    sink := (full.sink.drop l.sink.length).take cut.items
    events := (full.events.drop l.events.length).take cut.records
    replies := l.replies.drop cut.calls
    calls := l.calls + cut.calls }

/-- Channel by channel; a channel `cuts` does not reach had sent nothing. -/
def keepLanes (lanes full : List Lane) (cuts : List Cut) : List Lane :=
  match lanes, full, cuts with
  | l :: ls, f :: fs, cut :: rest => Lane.keep f cut l :: keepLanes ls fs rest
  | ls, _, _ => ls.map Lane.applyReset

/-- The first `words` words of a response: none, the status word, or the whole of it. -/
def keepResponse (words : Nat) (full : List Response) : List Response :=
  match words with
  | 0 => []
  | 1 => full.map fun r => { r with data := none }
  | _ + 2 => full

/-- A reset during the command `t` (R291): the reset state, its streams holding those outputs of the command that had got out. DESIGN
CHOICE (log entry 10): the host's input says how much that was. -/
def State.cutOff (t : Txn) (cuts : List Cut) (words : Nat) (s : State) : State :=
  match decodeCommand t with
  | .error _ => s.applyReset
  | .ok i =>
    match exec i s.answering with
    | .next full =>
      { s.applyReset with
        lanes := keepLanes s.lanes full.lanes cuts
        responses := keepResponse words (full.responses.drop s.responses.length) }
    | .fault _ => s.applyReset
    | .refused _ => s.applyReset

/-- One transaction: the command is decoded and run (R230). -/
def runTxn (t : Txn) (s : State) : Host.Outcome State Fault Refusal :=
  match decodeCommand t with
  | .ok i => exec i s
  | .error e => .refused (.badTransaction e)

/-- One input of the host, already taken off the queue. -/
def runInput (input : HostInput) (s : State) : Host.Outcome State Fault Refusal :=
  match input with
  | .txn t => runTxn t s
  | .reset => .next s.applyReset
  | .resetDuring t cuts words => .next (s.cutOff t cuts words)

/-- The next input is taken and run; without one the block waits and holds its state (R290, 60_exceptions.md R274). -/
def runNext (s : State) : Host.Outcome State Fault Refusal :=
  match s.hostIn with
  | [] => .next s
  | input :: rest => runInput input { s with hostIn := rest }

/-- The state with a transaction placed where the next step takes its input. -/
def State.placeTxn (s : State) (t : Txn) : State := { s with hostIn := .txn t :: s.hostIn }

end Sys2Proof.Machine
end

