-- ==== Sys2Proof/Machine/Step.lean ====
section
/-! DEFINITION. One step of the machine: one input of the host, a whole command each (spec/20_memory.md R61, R65). -/

namespace Sys2Proof.Machine

/-- One step. -/
def step (s : State) : Host.Outcome State Fault Refusal := runNext s

/-- `s` with the instruction of a table word placed as the host's next transaction, the data behind it zero. -/
def State.withFetchWord (s : State) (nbits w : Nat) : State := s.placeTxn (tableTxn nbits w)

end Sys2Proof.Machine
end

