-- ==== Sys2Proof/Safety.lean ====
section
/-! DEFINITION. The words claims are stated in: the invariant of spec/10_state.md R24 with the legal parameters of
00_scope.md R10, ports that answer, and what a packet is to a channel. -/

namespace Sys2Proof.Machine

/-- The invariant of one channel between transactions (R24 a to d, R22's ranges of EXPECTED and WOFF): and ACC holds exactly the
bytes below WOFF, which the current PES wrote (R27). -/
abbrev Channel.Inv (cap : Word) (ch : Channel) : Prop :=
  ch.acc.map Prod.fst = List.range ch.woff.toNat ∧
  ch.woff.toNat ≤ cap.toNat ∧
  ch.expected.toNat ≤ 65535 ∧
  (ch.state = .idle → ch.woff = 0 ∧ ch.bounded = false ∧ ch.expected = 0) ∧
  (ch.state = .assembling → ch.bounded = true → ch.woff.toNat < ch.expected.toNat) ∧
  (ch.state = .assembling → ch.bounded = false → ch.expected = 0) ∧
  (ch.fatal = true → ch.state = .idle)

/-- The parameters are legal (R10): 1 to 16 channels, and a buffer of 65535 bytes or more (its upper bound 2^32 - 1 is its
type's). -/
abbrev State.Legal (s : State) : Prop :=
  1 ≤ s.lanes.length ∧ s.lanes.length ≤ 16 ∧ 65535 ≤ s.accCapacity.toNat

/-- The machine's invariant: legal parameters, and the invariant of every channel. -/
abbrev State.Inv (s : State) : Prop := s.Legal ∧ ∀ l ∈ s.lanes, l.ch.Inv s.accCapacity

/-- The sink answers every call the lane lists (70_reset_and_hazards.md R297). -/
abbrev Lane.SinkAnswers (l : Lane) : Prop := ∀ r ∈ l.replies, r.isSome = true

/-- The event consumer takes the next record (R298). -/
abbrev Lane.EventTaken (l : Lane) : Prop := l.eventRoom ≠ some 0

/-- The host keeps its duties R297 and R298 for the next command: every port answers. -/
abbrev State.PortsAnswer (s : State) : Prop := ∀ l ∈ s.lanes, l.SinkAnswers ∧ l.EventTaken

end Sys2Proof.Machine

namespace Sys2Proof

open Machine

/-- The continuity counter of a packet. -/
def Packet.cc (p : Packet) : BitVec 4 := (hdrDecode p).cc

/-- The payload geometry of a packet (41_adaptation_field.md R126). -/
def Packet.geometry (p : Packet) : Geometry := Machine.geometry (hdrDecode p) (afDecode p (hdrDecode p))

/-- The payload region `P[off..188]`. -/
def Packet.payload (p : Packet) : List Byte := p.slice p.geometry.off 188

/-- A start packet: S = 1 and a payload (00_scope.md R19). -/
abbrev Packet.IsStart (p : Packet) : Prop := p.geometry.err = false ∧ p.pusi = true ∧ 0 < p.geometry.plen

/-- A continuation packet: S = 0 and a payload (R19). -/
abbrev Packet.IsContinuation (p : Packet) : Prop := p.geometry.err = false ∧ p.pusi = false ∧ 0 < p.geometry.plen

/-- The PES header of a start packet (42_pes_header.md R140). -/
def Packet.pes (p : Packet) : PesDecode := pesDecode p p.geometry.off p.geometry.plen

/-- The elementary bytes of a start packet, `P[off + hs .. 188]` (42_pes_header.md R146). -/
def Packet.elementary (p : Packet) : List Byte := p.slice (p.geometry.off + p.pes.hs) 188

/-- The event record of a packet on channel `c` (43_assembler.md R194). -/
def Packet.event (p : Packet) (c : Nat) (idx : Word) (r : Result) (fl : BitVec 12) (pes : Option PesTriple) :
    EventRec := mkEvent c idx (hdrDecode p) (afDecode p (hdrDecode p)) r fl pes

end Sys2Proof

namespace Sys2Proof.Machine

/-- The packet passes both gates of a channel (43_assembler.md R173, R174). -/
abbrev Channel.Takes (p : Packet) (ch : Channel) : Prop :=
  ch.en = true ∧ p.pid = ch.targetPid ∧ ch.fatal = false

/-- The packet's continuity counter follows the channel's last one, or there is none (R176: "(H.cc - CH[c].LAST_CC) mod 16 = 1",
mod the non-negative remainder). -/
abbrev Channel.InSequence (cc : BitVec 4) (ch : Channel) : Prop :=
  ch.ccValid = true → ((cc.toNat : Int) - (ch.lastCc.toNat : Int)) % 16 = 1

/-- PES_CHECK accepts the header (42_pes_header.md R150): it lies in the packet, a declared length covers it, and the start code is
right or the policy is PROPAGATE. -/
abbrev PesDecode.Accepted (policy : MalformedPolicy) (d : PesDecode) : Prop :=
  d.trunc = false ∧ (d.len ≠ 0 → d.hs ≤ d.len.toNat + 6) ∧ (d.startCode = 1 ∨ policy = .propagate)

/-- The flag vector of a set of flags (30_encoding.md R85). -/
def flagVec (flags : List Flag) : BitVec 12 := flags.foldl setFlag 0

/-- The flags of an accepted header: F_PREFIX when the start code is bad (R150). -/
def PesDecode.acceptFlags (d : PesDecode) : List Flag := if d.startCode = 1 then [] else [.badStartCode]

/-- The new PES of an accepted start packet (R187), ACC set apart. -/
def Channel.started (p : Packet) (r : Result) (fl : BitVec 12) (acc : Memory) (ch : Channel) : Channel where
  targetPid := ch.targetPid
  en := ch.en
  malformedPolicy := ch.malformedPolicy
  shutdownPolicy := ch.shutdownPolicy
  state := .assembling
  bounded := decide (p.pes.len ≠ 0)
  expected := BitVec.ofNat 32 (if p.pes.len = 0 then 0 else p.pes.len.toNat + 6 - p.pes.hs)
  woff := BitVec.ofNat 32 (p.geometry.plen - p.pes.hs)
  ccValid := true
  lastCc := p.cc
  fatal := ch.fatal
  pesSid := p.pes.sid
  pesLen := p.pes.len
  pesHdl := p.pes.hdl
  lastResult := r
  lastFlags := fl
  acc := acc

/-- What every packet that passes the gates leaves in a channel: the counter (R178) and the last result and flags (R194). -/
def Channel.reported (cc : BitVec 4) (r : Result) (fl : BitVec 12) (ch : Channel) : Channel :=
  { ch with lastCc := cc, ccValid := true, lastResult := r, lastFlags := fl }

/-- The channel takes a sequence of packets one after another, packet k with index `idx + k` (43_assembler.md R198). -/
def absorbSeq (cap : Word) (c : Nat) (idx : Word) (packets : List Packet) (l : Lane) : Except Fault Lane :=
  match packets with
  | [] => .ok l
  | p :: rest =>
    match absorbLane cap idx p c l with
    | .error f => .error f
    | .ok l' => absorbSeq cap c (idx + 1) rest l'

/-- The continuity counters of a sequence rise by 1 modulo 16 from `cc` on (R177). -/
def ccChain (cc : BitVec 4) (packets : List Packet) : Prop :=
  match packets with
  | [] => True
  | p :: rest => p.cc = cc + 1 ∧ ccChain p.cc rest

/-- An ABSORB of `p` took `s` to `t` (R171): every channel has processed the packet and emitted one record, the packet index has
moved on by one, the command has answered OK, and nothing else of the machine has changed. -/
abbrev AbsorbsTo (s : State) (p : Packet) (t : State) : Prop :=
  t.accCapacity = s.accCapacity ∧ t.hostIn = s.hostIn ∧ t.pktIndex = s.pktIndex + 1 ∧
  t.responses = s.responses ++ [{ status := 0, data := none }] ∧ t.lanes.length = s.lanes.length ∧
  ∀ (c : Nat) (l : Lane), s.lanes[c]? = some l →
    ∃ l', t.lanes[c]? = some l' ∧ absorbLane s.accCapacity s.pktIndex p c l = .ok l' ∧
      l'.events.length = l.events.length + 1

end Sys2Proof.Machine
end

