-- ==== Sys2Proof/Certificates/Slice0/Obligations.lean ====
section
/-! DEFINITION. The statements for the provers. Each says what an instruction or the machine does, and cites the rules of
spec/ it formalises; OBLIGATIONS.json lists them. -/

open Sys2Proof Sys2Proof.Machine

/-! ## Encodings -/

/-- Words written out from 30_encoding.md R80, R81, R89 and 95_test_vectors.md 2.5 (H2, H4, H9, H10, H12), and the headers of 2.1,
decode to the instructions they stand for. The last clause reads the match word of TS_AF_PAYLOAD_START (R79) as a bare table word,
which stands for a packet of zeros behind that header by the model's choice (log entry 3). -/
def Obligations.WordsOfTheSpecDecode : Prop :=
  decodeCommand ⟨0x0000FFF0, .nothing⟩ = .ok .nop ∧
  decodeCommand ⟨0x00001002, .word 0x00010100⟩ = .ok (.wrreg 0x10 0x00010100) ∧
  decodeCommand ⟨0x00000503, .nothing⟩ = .ok (.rdreg 0x05) ∧
  decodeCommand ⟨0x00000034, .nothing⟩ = .ok (.eos 3) ∧
  decodeCommand ⟨0xFFFF000F, .nothing⟩ = .ok .reservedF ∧
  (headerPacket 0x47408810).tsFields = ⟨0x47, false, false, 136, 0, 0⟩ ∧
  (headerPacket 0x47A1002F).tsFields = ⟨0x47, true, true, 256, 0, 15⟩ ∧
  decodeTableWord 32 0x00400030 = some (.tsAfPayloadStart ⟨0, false, false, 0, 0, 0⟩ ⟨List.replicate 184 0, List.length_replicate⟩)

/-- R80, R230: bits 31:16 of a command word, and the CH and REG fields of an OP that does not use them, are ignored. -/
def Obligations.UnusedCommandBitsAreIgnored : Prop :=
  ∀ (w w' : Word) (d : HostData),
    w.extractLsb' 0 4 = w'.extractLsb' 0 4 →
    ((w.extractLsb' 0 4).toNat = 2 ∨ (w.extractLsb' 0 4).toNat = 3 → w.extractLsb' 8 8 = w'.extractLsb' 8 8) →
    ((w.extractLsb' 0 4).toNat = 4 → w.extractLsb' 4 4 = w'.extractLsb' 4 4) →
    decodeCommand ⟨w, d⟩ = decodeCommand ⟨w', d⟩

/-- For every well-formed instruction, with every operand at every value its row admits, reading its transaction in its row's
format gives the instruction back. -/
def Obligations.DecodeOfEncodeIsTheInstruction : Prop :=
  ∀ i : Instr, i.wellFormed = true → decodeAs i.format (encode i) = .ok i

/-- Every packet is the packet of its class instruction: the class decoder drops no bit of the 188 bytes. -/
def Obligations.EveryPacketIsItsClassInstruction : Prop :=
  ∀ p : Packet, encode (decodePacket p) = absorbTxn p ∧ (decodePacket p).format = .tsHeader

/-- R79: the class by the masks on the header word, and the payload length (or the geometry error) each class gives. -/
def Obligations.PacketClassFixesThePayloadLength : Prop :=
  ∀ p : Packet,
    let w := (hdrDecode p).word
    let l := (p.byte 4).toNat
    (w &&& 0x00000030 = 0x00000000 →
      (∃ u f b, decodePacket p = .tsAfcReserved u f b) ∧ p.geometry.err = false ∧ p.geometry.plen = 0) ∧
    (w &&& 0x00400030 = 0x00400010 →
      (∃ f b, decodePacket p = .tsPayloadStart f b) ∧ p.geometry.err = false ∧ p.geometry.plen = 184) ∧
    (w &&& 0x00400030 = 0x00000010 →
      (∃ f b, decodePacket p = .tsPayloadCont f b) ∧ p.geometry.err = false ∧ p.geometry.plen = 184) ∧
    (w &&& 0x00000030 = 0x00000020 →
      (∃ u f b, decodePacket p = .tsAfOnly u f b) ∧ p.geometry.err = decide (183 < l) ∧ p.geometry.plen = 0) ∧
    (w &&& 0x00400030 = 0x00400030 →
      (∃ f b, decodePacket p = .tsAfPayloadStart f b) ∧ p.geometry.err = decide (183 < l) ∧
        p.geometry.plen = 183 - l) ∧
    (w &&& 0x00400030 = 0x00000030 →
      (∃ f b, decodePacket p = .tsAfPayloadCont f b) ∧ p.geometry.err = decide (183 < l) ∧
        p.geometry.plen = 183 - l)

/-! ## The parsers -/

/-- R70, R100: the header word is the first four bytes of the packet, and each field, decoded from its bytes, is the field's bits of
that word. -/
def Obligations.HeaderFieldsAreTheWordsBits : Prop :=
  ∀ p : Packet,
    let h := hdrDecode p
    h.word = p.byte 0 ++ p.byte 1 ++ p.byte 2 ++ p.byte 3 ∧
    h.sync = h.word.extractLsb' 24 8 ∧ h.tei = h.word.getLsbD 23 ∧ h.pusi = h.word.getLsbD 22 ∧
    h.tp = h.word.getLsbD 21 ∧ h.pid = h.word.extractLsb' 8 13 ∧ h.tsc = h.word.extractLsb' 6 2 ∧
    h.afc = h.word.extractLsb' 4 2 ∧ h.cc = h.word.extractLsb' 0 4

/-- R120, R121: an adaptation field is there for AFC 10 and 11; its length is P[4]; the flags byte P[5] is read when the length is
not 0, and then each flag is its bit; with length 0 no flag is set. -/
def Obligations.AdaptationFieldIsDecoded : Prop :=
  ∀ p : Packet,
    let h := hdrDecode p
    (h.afc = 0 ∨ h.afc = 1 → afDecode p h = none) ∧
    (h.afc = 2 ∨ h.afc = 3 → ∃ a, afDecode p h = some a ∧ a.length = p.byte 4 ∧ a.total = 1 + (p.byte 4).toNat ∧
      (p.byte 4 = 0 → a.flags = none ∧ ∀ k, a.flag k = false) ∧
      (p.byte 4 ≠ 0 → a.flags = some (p.byte 5) ∧
        a.flag .disc = (p.byte 5).getLsbD 7 ∧ a.flag .rai = (p.byte 5).getLsbD 6 ∧
        a.flag .espi = (p.byte 5).getLsbD 5 ∧ a.flag .pcr = (p.byte 5).getLsbD 4 ∧
        a.flag .opcr = (p.byte 5).getLsbD 3 ∧ a.flag .splice = (p.byte 5).getLsbD 2 ∧
        a.flag .priv = (p.byte 5).getLsbD 1 ∧ a.flag .extension = (p.byte 5).getLsbD 0))

/-- R127: the geometry outcomes for every AFC and every range of L. -/
def Obligations.GeometryFollowsTheTable : Prop :=
  ∀ p : Packet,
    let l := (p.byte 4).toNat
    (p.afc = 0 → p.geometry = ⟨4, 0, false⟩) ∧
    (p.afc = 1 → p.geometry = ⟨4, 184, false⟩) ∧
    (p.afc = 2 → l ≤ 183 → p.geometry = ⟨5 + l, 0, false⟩) ∧
    (p.afc = 2 → 184 ≤ l → p.geometry = ⟨5 + l, 0, true⟩) ∧
    (p.afc = 3 → l ≤ 182 → p.geometry = ⟨5 + l, 183 - l, false⟩) ∧
    (p.afc = 3 → l = 183 → p.geometry = ⟨188, 0, false⟩) ∧
    (p.afc = 3 → 184 ≤ l → p.geometry = ⟨5 + l, 0, true⟩)

/-- R140, R142 to R146: with six payload bytes the structural fields are read where R74 puts them; an excluded stream-id has no HDL
and header size 6, an extended one HDL at offset 8 and header size 9 + HDL; the header is truncated exactly when it does not
lie in the payload region. -/
def Obligations.PesHeaderIsDecoded : Prop :=
  ∀ (p : Packet) (off plen : Nat),
    let d := pesDecode p off plen
    (plen < 6 → d.decoded = false ∧ d.trunc = true ∧ d.sid = 0 ∧ d.len = 0 ∧ d.hdl = 0) ∧
    (6 ≤ plen → d.decoded = true ∧ d.startCode = p.byte off ++ p.byte (off + 1) ++ p.byte (off + 2) ∧
      (d.startCodeOk = true ↔ d.startCode = 0x000001) ∧
      d.sid = p.byte (off + 3) ∧ d.len.toNat = (p.byte (off + 4)).toNat * 256 + (p.byte (off + 5)).toNat ∧
      (d.sid ∈ ([0xBC, 0xBE, 0xBF, 0xF0, 0xF1, 0xF2, 0xF8, 0xFF] : List Byte) →
        d.hdl = 0 ∧ d.hs = 6 ∧ d.trunc = false) ∧
      (d.sid ∉ ([0xBC, 0xBE, 0xBF, 0xF0, 0xF1, 0xF2, 0xF8, 0xFF] : List Byte) →
        (plen < 9 → d.trunc = true ∧ d.hdl = 0) ∧
        (9 ≤ plen → d.hdl = p.byte (off + 8) ∧ d.hs = 9 + d.hdl.toNat ∧ d.trunc = decide (plen < 9 + d.hdl.toNat))))

/-- R150, with R141, R145 and R149: the flags and the verdict of PES_CHECK, for every header PES_DECODE can give and both policies. -/
def Obligations.PesCheckGivesTheVerdict : Prop :=
  ∀ (p : Packet) (off plen : Nat) (policy : MalformedPolicy),
    let d := pesDecode p off plen
    let pre : List Flag := if d.decoded = true ∧ d.startCode ≠ 1 then [.badStartCode] else []
    (d.trunc = true → pesCheck d policy = ⟨false, flagVec (pre ++ [.hdrTrunc])⟩) ∧
    (d.trunc = false → d.len ≠ 0 → d.len.toNat + 6 < d.hs → pesCheck d policy = ⟨false, flagVec (pre ++ [.len])⟩) ∧
    (d.trunc = false → (d.len = 0 ∨ d.hs ≤ d.len.toNat + 6) → d.startCode ≠ 1 → policy = .discard →
      pesCheck d policy = ⟨false, flagVec pre⟩) ∧
    (d.trunc = false → (d.len = 0 ∨ d.hs ≤ d.len.toNat + 6) → (d.startCode = 1 ∨ policy = .propagate) →
      pesCheck d policy = ⟨true, flagVec pre⟩)

/-- R143, R146 and the stream-id rows of the opcode table: each row's packet has the row's stream-id in its PES header, and the eight
excluded ones have header size 6. -/
def Obligations.StreamIdRowFixesTheHeaderSize : Prop :=
  ∀ q : PesStart, q.fits = true →
    (∀ sid ∈ ([0xBC, 0xBE, 0xBF, 0xF0, 0xF1, 0xF2, 0xF8, 0xFF] : List Byte),
      (q.packet sid).IsStart ∧ (q.packet sid).pes.sid = sid ∧ (q.packet sid).pes.hs = 6 ∧
        (q.packet sid).pes.hdl = 0 ∧ (q.packet sid).elementary = q.tail) ∧
    (∀ sid : Byte, sid ∉ ([0xBC, 0xBE, 0xBF, 0xF0, 0xF1, 0xF2, 0xF8, 0xFF] : List Byte) →
      (q.packet sid).IsStart ∧ (q.packet sid).pes.sid = sid ∧
        (3 ≤ q.tail.length → (q.packet sid).pes.hdl = q.tail.getD 2 0 ∧
          (q.packet sid).pes.hs = 9 + (q.tail.getD 2 0).toNat ∧
          (q.packet sid).elementary = q.tail.drop (3 + (q.tail.getD 2 0).toNat)))

/-! ## A step, and reset -/

/-- R230: when the host's next input is a transaction that decodes to a command, the step takes it off the queue and is exec of the
command. -/
def Obligations.StepRunsTheDecodedCommand : Prop :=
  ∀ (s : State) (t : Txn) (rest : List HostInput) (i : Instr), s.hostIn = .txn t :: rest →
    decodeCommand t = .ok i → step s = exec i { s with hostIn := rest }

/-- R290, R274: without an input the block waits and holds its state. A transaction that is no command (its data is not what its OP
takes) is refused by name (log entry 9: the model's choice). -/
def Obligations.StepWithoutACommand : Prop :=
  (∀ s : State, s.hostIn = [] → step s = .next s) ∧
  (∀ (s : State) (t : Txn) (rest : List HostInput) (e : DecodeError), s.hostIn = .txn t :: rest →
    decodeCommand t = .error e → step s = .refused (.badTransaction e))

/-- R40, for every number of channels and every capacity: every field at the value of the table, nothing sent and nothing
answered. (The table's row for the ACC bytes is "unspecified".) -/
def Obligations.ResetLeavesTheStatedValues : Prop :=
  ∀ (n : Nat) (cap : Word),
    (State.resetWith n cap).pktIndex = 0 ∧ (State.resetWith n cap).responses = [] ∧
    (State.resetWith n cap).lanes.length = n ∧
    ∀ l ∈ (State.resetWith n cap).lanes,
      l.ch.targetPid = 0 ∧ l.ch.en = false ∧ l.ch.malformedPolicy = .discard ∧ l.ch.shutdownPolicy = .flush ∧
      l.ch.state = .idle ∧ l.ch.bounded = false ∧ l.ch.expected = 0 ∧ l.ch.woff = 0 ∧ l.ch.ccValid = false ∧
      l.ch.lastCc = 0 ∧ l.ch.fatal = false ∧ l.ch.pesSid = 0 ∧ l.ch.pesLen = 0 ∧ l.ch.pesHdl = 0 ∧
      l.ch.lastResult.code = 0 ∧ l.ch.lastFlags = 0 ∧
      l.sink = [] ∧ l.events = []

/-- R290, R291, with R40: a reset, between transactions or during one, leaves every channel and PKT_INDEX at their reset values and the
parameters as they are. A reset between transactions leaves every sink stream, every event stream and the responses empty. One that cuts
a command off leaves in them, of the command's sink items, its event records and its response, a beginning of what the command would
have added, and nothing for a transaction that is no command. The model's choices: what the ports will do stays as it was (log entry 6),
and the beginnings are those of the command with every port answering (log entry 10). -/
def Obligations.ResetDuringRun : Prop :=
  (∀ (s : State) (rest : List HostInput), s.hostIn = .reset :: rest →
    ∃ t, step s = .next t ∧ t.accCapacity = s.accCapacity ∧ t.pktIndex = 0 ∧ t.hostIn = rest ∧
      t.responses = [] ∧ t.lanes = s.lanes.map (fun l => { l with ch := Channel.reset, sink := [], events := [] })) ∧
  (∀ (s : State) (x : Txn) (cuts : List Cut) (words : Nat) (rest : List HostInput),
    s.hostIn = .resetDuring x cuts words :: rest →
    ∃ t, step s = .next t ∧ t.accCapacity = s.accCapacity ∧ t.pktIndex = 0 ∧ t.hostIn = rest ∧
      t.lanes.length = s.lanes.length ∧
      (t.responses = [] ∨ ∃ r, t.responses = [r]) ∧
      (∀ l' ∈ t.lanes, l'.ch = Channel.reset) ∧
      (∀ e, decodeCommand x = .error e → t.responses = [] ∧
        t.lanes = s.lanes.map (fun l => { l with ch := Channel.reset, sink := [], events := [] })) ∧
      (∀ i u, decodeCommand x = .ok i →
        exec i { s with hostIn := rest, lanes := s.lanes.map Lane.answering } = .next u →
        (∃ r, u.responses = s.responses ++ [r] ∧
          (t.responses = [] ∨ t.responses = [{ status := r.status, data := none }] ∨ t.responses = [r])) ∧
        ∀ (c : Nat) (l l' lu : Lane), s.lanes[c]? = some l → t.lanes[c]? = some l' → u.lanes[c]? = some lu →
          l.sink ++ l'.sink <+: lu.sink ∧ l.events ++ l'.events <+: lu.events))

/-! ## Host commands -/

/-- R231: NOP answers OK and changes nothing else. -/
def Obligations.NopOnlyAnswers : Prop :=
  ∀ s : State, exec .nop s = .next { s with responses := s.responses ++ [{ status := 0, data := none }] }

/-- R239: OP 0x5 to 0xF answers ILLEGAL and changes nothing else. -/
def Obligations.ReservedCommandsAreIllegal : Prop :=
  ∀ s : State, ∀ i ∈ ([.reserved5, .reserved6, .reserved7, .reserved8, .reserved9, .reservedA, .reservedB, .reservedC,
      .reservedD, .reservedE, .reservedF] : List Instr),
    exec i s = .next { s with responses := s.responses ++ [{ status := 1, data := none }] }

/-- R233, with R232 and R30: a write to CTRL(c) configures channel c from the data word and re-creates its assembler; no item is
sent, no record emitted, no other channel touched, and the answer is OK. -/
def Obligations.CtrlWriteRecreatesTheChannel : Prop :=
  ∀ (s : State) (index : BitVec 8) (v : Word) (c : Nat) (l : Lane), s.lanes[c]? = some l →
    index.toNat = 0x10 + 8 * c →
    ∃ t, exec (.wrreg index v) s = .next t ∧
      t = { s with
        lanes := s.lanes.set c { l with ch :=
          { targetPid := v.extractLsb' 0 13, en := v.getLsbD 16
            malformedPolicy := if v.getLsbD 17 then .propagate else .discard
            shutdownPolicy := if v.getLsbD 18 then .discard else .flush
            state := .idle, bounded := false, expected := 0, woff := 0, ccValid := false, lastCc := 0
            fatal := false, pesSid := 0, pesLen := 0, pesHdl := 0
            lastResult := .unexpectedPid, lastFlags := 0, acc := [] } }
        responses := s.responses ++ [{ status := 0, data := none }] }

/-- R234, R38: a write to any index that is not CTRL of an existing channel changes nothing and answers OK. -/
def Obligations.OtherRegisterWritesChangeNothing : Prop :=
  ∀ (s : State) (index : BitVec 8) (v : Word), (∀ c < s.lanes.length, index.toNat ≠ 0x10 + 8 * c) →
    exec (.wrreg index v) s = .next { s with responses := s.responses ++ [{ status := 0, data := none }] }

/-- R235: RDREG answers OK and the register's word, and changes nothing else. -/
def Obligations.RdregAnswersTheRegister : Prop :=
  ∀ (s : State) (index : BitVec 8), exec (.rdreg index) s =
    .next { s with responses := s.responses ++ [{ status := 0, data := some (s.readReg index) }] }

/-- R31, R32, R38, with the index map of R30: INFO holds N_CHANNELS, PKTIDX the packet index, ACCCAP the capacity, and every reserved
index reads 0. -/
def Obligations.GlobalAndReservedRegistersRead : Prop :=
  ∀ s : State, s.Legal →
    (s.readReg 0x00).toNat = s.lanes.length ∧ s.readReg 0x01 = s.pktIndex ∧ s.readReg 0x02 = s.accCapacity ∧
    ∀ index : BitVec 8,
      (3 ≤ index.toNat ∧ index.toNat < 0x10) ∨ 0x10 + 8 * s.lanes.length ≤ index.toNat ∨
        (0x10 ≤ index.toNat ∧ 5 ≤ (index.toNat - 0x10) % 8) →
      s.readReg index = 0

/-- R33 to R37, at the indices of R30: every field of a channel's five registers, and zero in their reserved bits. -/
def Obligations.ChannelRegistersRead : Prop :=
  ∀ (s : State) (c : Nat) (l : Lane) (i0 i1 i2 i3 i4 : BitVec 8), s.Legal → s.lanes[c]? = some l →
    i0.toNat = 0x10 + 8 * c → i1.toNat = 0x10 + 8 * c + 1 → i2.toNat = 0x10 + 8 * c + 2 →
    i3.toNat = 0x10 + 8 * c + 3 → i4.toNat = 0x10 + 8 * c + 4 →
    (let w := s.readReg i0
     w.extractLsb' 0 13 = l.ch.targetPid ∧ w.extractLsb' 13 3 = 0 ∧ w.getLsbD 16 = l.ch.en ∧
     w.getLsbD 17 = (l.ch.malformedPolicy == .propagate) ∧ w.getLsbD 18 = (l.ch.shutdownPolicy == .discard) ∧
     w.extractLsb' 19 13 = 0) ∧
    (let w := s.readReg i1
     w.getLsbD 0 = (l.ch.state == .assembling) ∧ w.getLsbD 1 = l.ch.bounded ∧ w.getLsbD 2 = l.ch.ccValid ∧
     w.getLsbD 3 = l.ch.fatal ∧ w.extractLsb' 4 4 = l.ch.lastCc ∧ w.extractLsb' 8 3 = l.ch.lastResult.code ∧
     w.getLsbD 11 = false ∧ w.extractLsb' 12 12 = l.ch.lastFlags ∧ w.extractLsb' 24 8 = 0) ∧
    s.readReg i2 = l.ch.woff ∧ s.readReg i3 = l.ch.expected ∧
    (let w := s.readReg i4
     w.extractLsb' 0 8 = l.ch.pesSid ∧ w.extractLsb' 8 16 = l.ch.pesLen ∧ w.extractLsb' 24 8 = l.ch.pesHdl)

/-- R33: CTRL(c) is write-any-read-back in its four fields, and its reserved bits read 0 whatever is written. -/
def Obligations.CtrlReadsBackWhatWasWritten : Prop :=
  ∀ (s t : State) (index : BitVec 8) (v : Word) (c : Nat), c < s.lanes.length → index.toNat = 0x10 + 8 * c →
    exec (.wrreg index v) s = .next t → t.readReg index = v &&& 0x00071FFF

/-- R237, and R238 with FATAL = 1: EOS on a channel that does not exist answers ILLEGAL, EOS on a channel with FATAL = 1 answers SINK_ERROR;
neither sends anything or changes anything else. -/
def Obligations.EosTurnedAwayOnlyAnswers : Prop :=
  ∀ (s : State) (ch : BitVec 4),
    (s.lanes.length ≤ ch.toNat →
      exec (.eos ch) s = .next { s with responses := s.responses ++ [{ status := 1, data := none }] }) ∧
    (∀ l : Lane, s.lanes[ch.toNat]? = some l → l.ch.fatal = true →
      exec (.eos ch) s = .next { s with responses := s.responses ++ [{ status := 2, data := none }] })

/-- R238, the sink answering `ok`: with a PES in progress under FLUSH the accumulated bytes, the end-of-PES marker and Close go to the sink,
in that order; Idle, or under DISCARD, only Close does. Either way the assembly fields and the CC history are reset, and the
configuration, the PES header, the last result and the last flags stay. -/
def Obligations.EosFlushesAndCloses : Prop :=
  ∀ (s : State) (ch : BitVec 4) (l : Lane), s.lanes[ch.toNat]? = some l → l.ch.fatal = false →
    l.nextReply ch.toNat = some .ok →
    let ended : Channel := { l.ch with
      state := .idle, bounded := false, expected := 0, woff := 0, acc := [], ccValid := false, lastCc := 0 }
    let answered := s.responses ++ [{ status := 0, data := none }]
    (∀ burst, l.ch.state = .assembling → l.ch.shutdownPolicy = .flush →
      l.ch.acc.readRange? 0 l.ch.woff.toNat = some burst → (l.sinkGot []).nextReply ch.toNat = some .ok →
      exec (.eos ch) s = .next { s with
        lanes := s.lanes.set ch.toNat { l with
          ch := ended, sink := l.sink ++ [.bytes burst, .endOfPes, .close]
          replies := l.replies.drop 2, calls := l.calls + 2 }
        responses := answered }) ∧
    (l.ch.state = .idle ∨ l.ch.shutdownPolicy = .discard →
      exec (.eos ch) s = .next { s with
        lanes := s.lanes.set ch.toNat { l with
          ch := ended, sink := l.sink ++ [.close], replies := l.replies.tail, calls := l.calls + 1 }
        responses := answered })

/-- R238, a sink error: whatever reached the sink by the failing call (R57), the channel is Idle with FATAL set and the answer is
SINK_ERROR. The first clause is an error at the first call (the flush, which no Close follows, or Close itself), the second an
error of Close after a flush that went well. -/
def Obligations.EosSinkErrorIsFatal : Prop :=
  ∀ (s : State) (ch : BitVec 4) (l : Lane) (reached : List SinkItem), s.lanes[ch.toNat]? = some l →
    l.ch.fatal = false →
    let failed : Channel := { l.ch with
      state := .idle, bounded := false, expected := 0, woff := 0, acc := [], ccValid := false, lastCc := 0,
      fatal := true }
    let answered := s.responses ++ [{ status := 2, data := none }]
    (l.nextReply ch.toNat = some (.err reached) →
      (l.ch.state = .assembling → l.ch.shutdownPolicy = .flush →
        ∃ burst, l.ch.acc.readRange? 0 l.ch.woff.toNat = some burst) →
      exec (.eos ch) s = .next { s with
        lanes := s.lanes.set ch.toNat { l with
          ch := failed, sink := l.sink ++ reached, replies := l.replies.tail, calls := l.calls + 1 }
        responses := answered }) ∧
    (∀ burst, l.nextReply ch.toNat = some .ok → (l.sinkGot []).nextReply ch.toNat = some (.err reached) →
      l.ch.state = .assembling → l.ch.shutdownPolicy = .flush →
      l.ch.acc.readRange? 0 l.ch.woff.toNat = some burst →
      exec (.eos ch) s = .next { s with
        lanes := s.lanes.set ch.toNat { l with
          ch := failed, sink := l.sink ++ [.bytes burst, .endOfPes] ++ reached
          replies := l.replies.drop 2, calls := l.calls + 2 }
        responses := answered })

/-- R236, R238 (frame): with ports that answer, EOS completes; it changes no other channel, neither parameter nor PKT_INDEX, and emits
no event record. -/
def Obligations.EosCompletesAndTouchesOneChannel : Prop :=
  ∀ (s : State) (ch : BitVec 4), s.Inv → s.PortsAnswer →
    ∃ t, exec (.eos ch) s = .next t ∧ t.accCapacity = s.accCapacity ∧ t.pktIndex = s.pktIndex ∧ t.hostIn = s.hostIn ∧
      t.lanes.length = s.lanes.length ∧ (∃ r, t.responses = s.responses ++ [r]) ∧
      (∀ c, c ≠ ch.toNat → t.lanes[c]? = s.lanes[c]?) ∧
      (∀ l l', s.lanes[ch.toNat]? = some l → t.lanes[ch.toNat]? = some l' →
        l'.events = l.events ∧ l'.ch.targetPid = l.ch.targetPid ∧ l'.ch.en = l.ch.en ∧
        l'.ch.malformedPolicy = l.ch.malformedPolicy ∧ l'.ch.shutdownPolicy = l.ch.shutdownPolicy ∧
        l'.ch.pesSid = l.ch.pesSid ∧ l'.ch.pesLen = l.ch.pesLen ∧ l'.ch.pesHdl = l.ch.pesHdl ∧
        l'.ch.lastResult = l.ch.lastResult ∧ l'.ch.lastFlags = l.ch.lastFlags)

/-! ## ABSORB and its rows: every channel processes the packet -/

/-- R170, R171: with ports that answer, ABSORB completes: every channel processes the packet by itself and emits one record,
PKT_INDEX moves on by 1 modulo 2^32, the answer is OK, and nothing else changes. -/
def Obligations.AbsorbPresentsThePacketToEveryChannel : Prop :=
  ∀ (p : Packet) (s : State), s.Inv → s.PortsAnswer → ∃ t, exec (.absorb p) s = .next t ∧ AbsorbsTo s p t

/-- R181 in the rows TS_AFC_RESERVED and TS_AF_ONLY: with ports that answer they complete as the ABSORB of their packet, and a channel
that takes the packet in sequence keeps its PES, whatever S is: only the counter and the last result and flags change. -/
def Obligations.ZeroPayloadRowsKeepThePes : Prop :=
  ∀ (u : Bool) (f : TsFields) (b : Body) (s : State), s.Inv → s.PortsAnswer →
    (∃ t, exec (.tsAfcReserved u f b) s = .next t ∧ AbsorbsTo s (f.packet u 0 b) t ∧
      ∀ (c : Nat) (l : Lane), s.lanes[c]? = some l → l.ch.Takes (f.packet u 0 b) → l.ch.InSequence f.cc →
        ∃ l', t.lanes[c]? = some l' ∧ l'.sink = l.sink ∧
          l'.ch = l.ch.reported f.cc .assemblingContinue (flagVec [.noPayload])) ∧
    (∃ t, exec (.tsAfOnly u f b) s = .next t ∧ AbsorbsTo s (f.packet u 2 b) t ∧
      ∀ (c : Nat) (l : Lane), s.lanes[c]? = some l → l.ch.Takes (f.packet u 2 b) → l.ch.InSequence f.cc →
        (b.val.getD 0 0).toNat ≤ 183 →
        ∃ l', t.lanes[c]? = some l' ∧ l'.sink = l.sink ∧
          l'.ch = l.ch.reported f.cc .assemblingContinue (flagVec [.noPayload]))

/-- R187, R188 in the rows TS_PAYLOAD_START and TS_AF_PAYLOAD_START: with ports that answer they complete as the ABSORB of their packet,
and an Idle channel that takes the packet in sequence, with an accepted header and a first fragment that neither overflows nor completes
the PES, starts the PES. -/
def Obligations.StartRowsBeginAPes : Prop :=
  ∀ (f : TsFields) (b : Body) (s : State) (af : Bool), s.Inv → s.PortsAnswer →
    let p := f.packet true (if af then 3 else 1) b
    ∃ t, exec (if af then .tsAfPayloadStart f b else .tsPayloadStart f b) s = .next t ∧ AbsorbsTo s p t ∧
      ∀ (c : Nat) (l : Lane), s.lanes[c]? = some l → l.ch.Takes p → l.ch.InSequence f.cc → l.ch.state = .idle →
        p.IsStart → p.pes.Accepted l.ch.malformedPolicy →
        (p.pes.len ≠ 0 → p.geometry.plen < p.pes.len.toNat + 6) →
        ∃ l', t.lanes[c]? = some l' ∧ l'.sink = l.sink ∧
          l'.ch = l.ch.started p .assemblingStarted (flagVec (p.pes.acceptFlags ++ [.start])) l'.ch.acc ∧
          ∀ a, l'.ch.acc.read? a = p.elementary[a]?

/-- R191, R192 in the rows TS_PAYLOAD_CONT and TS_AF_PAYLOAD_CONT: with ports that answer they complete as the ABSORB of their packet,
and an Assembling channel that takes the packet in sequence, with room for the payload and the PES not complete by it, appends the
payload at its write offset. -/
def Obligations.ContinuationRowsAppend : Prop :=
  ∀ (f : TsFields) (b : Body) (s : State) (af : Bool), s.Inv → s.PortsAnswer →
    let p := f.packet false (if af then 3 else 1) b
    ∃ t, exec (if af then .tsAfPayloadCont f b else .tsPayloadCont f b) s = .next t ∧ AbsorbsTo s p t ∧
      ∀ (c : Nat) (l : Lane), s.lanes[c]? = some l → l.ch.Takes p → l.ch.InSequence f.cc →
        l.ch.state = .assembling → p.IsContinuation →
        (if l.ch.bounded then l.ch.woff.toNat + p.geometry.plen < l.ch.expected.toNat
          else l.ch.woff.toNat + p.geometry.plen ≤ s.accCapacity.toNat) →
        ∃ l', t.lanes[c]? = some l' ∧ l'.sink = l.sink ∧
          l'.ch = { l.ch.reported f.cc .assemblingContinue 0 with
            woff := BitVec.ofNat 32 (l.ch.woff.toNat + p.geometry.plen), acc := l'.ch.acc } ∧
          ∀ a, l'.ch.acc.read? a =
            if a < l.ch.woff.toNat then l.ch.acc.read? a else p.payload[a - l.ch.woff.toNat]?

/-- The eight SID_EXCL rows and SID_EXTENDED: with ports that answer each completes as the ABSORB of its packet, and an Idle channel that
takes it in sequence, with an accepted header and a first fragment that neither overflows nor completes the PES, starts a PES
with the row's stream-id: from PES offset 6 under an excluded one, from 9 + HDL under an extended one (R143, R146, R187). -/
def Obligations.StreamIdRowsBeginAPes : Prop :=
  ∀ (q : PesStart) (s : State) (sid : Byte) (i : Instr), s.Inv → s.PortsAnswer → i.wellFormed = true →
    (sid, i) ∈ [((0xBC : Byte), Instr.sidExclBC q), (0xBE, .sidExclBE q), (0xBF, .sidExclBF q), (0xF0, .sidExclF0 q),
      (0xF1, .sidExclF1 q), (0xF2, .sidExclF2 q), (0xF8, .sidExclF8 q), (0xFF, .sidExclFF q),
      (sid, .sidExtended sid q)] →
    let p := q.packet sid
    ∃ t, exec i s = .next t ∧ AbsorbsTo s p t ∧
      ∀ (c : Nat) (l : Lane), s.lanes[c]? = some l → l.ch.Takes p → l.ch.InSequence q.ts.cc → l.ch.state = .idle →
        p.pes.Accepted l.ch.malformedPolicy → (q.len ≠ 0 → p.geometry.plen < q.len.toNat + 6) →
        ∃ l', t.lanes[c]? = some l' ∧ l'.sink = l.sink ∧ l'.ch.state = .assembling ∧ l'.ch.pesSid = sid ∧
          l'.ch.pesLen = q.len ∧ l'.ch.lastResult = .assemblingStarted ∧
          (∀ a, l'.ch.acc.read? a =
            (if sid ∈ exclSids then q.tail else q.tail.drop (3 + (q.tail.getD 2 0).toNat))[a]?) ∧
          l'.ch.pesHdl = (if sid ∈ exclSids then 0 else q.tail.getD 2 0)

/-! ## One channel and one packet -/

/-- R173, R174: a packet of another PID, or any packet on a disabled channel, gives UnexpectedPid; a packet of the PID of a channel with
FATAL = 1 gives SinkError; both with an empty flag set, and nothing of the channel is written. -/
def Obligations.GatedPacketsLeaveTheChannel : Prop :=
  ∀ (cap idx : Word) (p : Packet) (c : Nat) (l : Lane), l.EventTaken →
    (l.ch.en = false ∨ p.pid ≠ l.ch.targetPid →
      ∃ l', absorbLane cap idx p c l = .ok l' ∧ l'.ch = l.ch ∧ l'.sink = l.sink ∧
        l'.events = l.events ++ [p.event c idx .unexpectedPid 0 none]) ∧
    (l.ch.en = true → p.pid = l.ch.targetPid → l.ch.fatal = true →
      ∃ l', absorbLane cap idx p c l = .ok l' ∧ l'.ch = l.ch ∧ l'.sink = l.sink ∧
        l'.events = l.events ++ [p.event c idx .sinkError 0 none])

/-- R175: an adaptation-field length above 183 sets F_GEOM, discards a PES in progress, takes the packet's CC and gives
StreamPacketLost, whatever S and the previous CC are. -/
def Obligations.GeometryErrorDiscards : Prop :=
  ∀ (cap idx : Word) (p : Packet) (c : Nat) (l : Lane), l.EventTaken → l.ch.Takes p → p.geometry.err = true →
    let fl := flagVec (.geom :: if l.ch.state = .assembling then [.discard] else [])
    ∃ l', absorbLane cap idx p c l = .ok l' ∧ l'.sink = l.sink ∧
      l'.ch = l.ch.toIdle.reported p.cc .streamPacketLost fl ∧
      l'.events = l.events ++ [p.event c idx .streamPacketLost fl none]

/-- R177, R178, R179: a packet out of sequence that is no start packet sets F_DISC, takes the packet's CC, discards a PES in progress
without flushing it and gives StreamPacketLost. -/
def Obligations.LossWithoutStartDiscards : Prop :=
  ∀ (cap idx : Word) (p : Packet) (c : Nat) (l : Lane), l.EventTaken → l.ch.Takes p → p.geometry.err = false →
    ¬ l.ch.InSequence p.cc → ¬ p.IsStart →
    let fl := flagVec (.disc :: if l.ch.state = .assembling then [.discard] else [])
    ∃ l', absorbLane cap idx p c l = .ok l' ∧ l'.sink = l.sink ∧
      l'.ch = l.ch.toIdle.reported p.cc .streamPacketLost fl ∧
      l'.events = l.events ++ [p.event c idx .streamPacketLost fl none]

/-- R181: a packet in sequence with no payload changes no assembly state, whatever S is, and gives AssemblingContinue with
F_NO_PAYLOAD. -/
def Obligations.ZeroPayloadPacketKeepsThePes : Prop :=
  ∀ (cap idx : Word) (p : Packet) (c : Nat) (l : Lane), l.EventTaken → l.ch.Takes p → p.geometry.err = false →
    p.geometry.plen = 0 → l.ch.InSequence p.cc →
    ∃ l', absorbLane cap idx p c l = .ok l' ∧ l'.sink = l.sink ∧
      l'.ch = l.ch.reported p.cc .assemblingContinue (flagVec [.noPayload]) ∧
      l'.events = l.events ++ [p.event c idx .assemblingContinue (flagVec [.noPayload]) none]

/-- R189: a continuation packet in sequence on an Idle channel sets F_ORDER and gives StreamPacketLost; the channel stays Idle. -/
def Obligations.ContinuationWhileIdleIsLost : Prop :=
  ∀ (cap idx : Word) (p : Packet) (c : Nat) (l : Lane), l.EventTaken → l.ch.Takes p → p.IsContinuation →
    l.ch.InSequence p.cc → l.ch.state = .idle →
    ∃ l', absorbLane cap idx p c l = .ok l' ∧ l'.sink = l.sink ∧
      l'.ch = l.ch.reported p.cc .streamPacketLost (flagVec [.order]) ∧
      l'.events = l.events ++ [p.event c idx .streamPacketLost (flagVec [.order]) none]

/-- R190: a continuation packet in sequence that would pass the capacity (EXPECTED when bounded, ACC_CAPACITY when not) sets F_CAP and
discards the whole PES. -/
def Obligations.ContinuationOverflowDiscards : Prop :=
  ∀ (cap idx : Word) (p : Packet) (c : Nat) (l : Lane), l.EventTaken → l.ch.Takes p → p.IsContinuation →
    l.ch.InSequence p.cc → l.ch.state = .assembling →
    (if l.ch.bounded then l.ch.expected.toNat else cap.toNat) < l.ch.woff.toNat + p.geometry.plen →
    ∃ l', absorbLane cap idx p c l = .ok l' ∧ l'.sink = l.sink ∧
      l'.ch = l.ch.toIdle.reported p.cc .streamPacketLost (flagVec [.cap, .discard]) ∧
      l'.events = l.events ++ [p.event c idx .streamPacketLost (flagVec [.cap, .discard]) none]

/-- R191, R192: a continuation packet in sequence that fits and does not complete the PES is appended at the write offset; every byte
of ACC outside the payload's length from there reads as before. -/
def Obligations.ContinuationAppendsAtTheWriteOffset : Prop :=
  ∀ (cap idx : Word) (p : Packet) (c : Nat) (l : Lane), l.EventTaken → l.ch.Takes p → p.IsContinuation →
    l.ch.InSequence p.cc → l.ch.state = .assembling →
    l.ch.woff.toNat + p.geometry.plen ≤ cap.toNat →
    (l.ch.bounded = true → l.ch.woff.toNat + p.geometry.plen < l.ch.expected.toNat) →
    ∃ l', absorbLane cap idx p c l = .ok l' ∧ l'.sink = l.sink ∧
      l'.ch = { l.ch.reported p.cc .assemblingContinue 0 with
        woff := BitVec.ofNat 32 (l.ch.woff.toNat + p.geometry.plen), acc := l'.ch.acc } ∧
      (∀ a, l'.ch.acc.read? a =
        if l.ch.woff.toNat ≤ a ∧ a < l.ch.woff.toNat + p.geometry.plen then p.payload[a - l.ch.woff.toNat]?
        else l.ch.acc.read? a) ∧
      l'.events = l.events ++ [p.event c idx .assemblingContinue 0 none]

/-- R192, R182: a continuation packet in sequence that brings a bounded PES to its expected size flushes it: the bytes before it and
its payload go to the sink as one burst with the end-of-PES marker, the channel is Idle, the result is AssemblingFinished, and the
event carries the stored header (R87). -/
def Obligations.CompletingContinuationFlushes : Prop :=
  ∀ (cap idx : Word) (p : Packet) (c : Nat) (l : Lane), l.EventTaken → l.ch.Takes p → p.IsContinuation →
    l.ch.InSequence p.cc → l.ch.Inv cap → 65535 ≤ cap.toNat → l.ch.state = .assembling → l.ch.bounded = true →
    l.ch.woff.toNat + p.geometry.plen = l.ch.expected.toNat → l.nextReply c = some .ok →
    ∃ l' burst, l.ch.acc.readRange? 0 l.ch.woff.toNat = some burst ∧ absorbLane cap idx p c l = .ok l' ∧
      l'.sink = l.sink ++ [.bytes (burst ++ p.payload), .endOfPes] ∧
      l'.ch = l.ch.toIdle.reported p.cc .assemblingFinished (flagVec [.flush]) ∧
      l'.events = l.events ++ [p.event c idx .assemblingFinished (flagVec [.flush])
        (some ⟨l.ch.pesSid, l.ch.pesLen, l.ch.pesHdl⟩)]

/-- R193: when the sink answers `err` to that flush, the channel is Idle with FATAL set and the result is SinkError; what reached the
sink is whatever the answer says (R57). The event reports no PES header (R87 c, which the model follows here: log entry 7). -/
def Obligations.SinkErrorInAFlushIsFatal : Prop :=
  ∀ (cap idx : Word) (p : Packet) (c : Nat) (l : Lane) (reached : List SinkItem), l.EventTaken → l.ch.Takes p →
    p.IsContinuation → l.ch.InSequence p.cc → l.ch.Inv cap → 65535 ≤ cap.toNat → l.ch.state = .assembling →
    l.ch.bounded = true → l.ch.woff.toNat + p.geometry.plen = l.ch.expected.toNat →
    l.nextReply c = some (.err reached) →
    ∃ l', absorbLane cap idx p c l = .ok l' ∧ l'.sink = l.sink ++ reached ∧
      l'.ch = { l.ch.toIdle.reported p.cc .sinkError (flagVec [.flush]) with fatal := true } ∧
      l'.events = l.events ++ [p.event c idx .sinkError (flagVec [.flush]) none]

/-- R187, R188: an accepted start packet in sequence on an Idle channel, its first fragment neither overflowing nor completing the PES,
sets the PES up with the header stripped; the event carries the header and the result is AssemblingStarted. -/
def Obligations.StartFromIdleSetsThePesUp : Prop :=
  ∀ (cap idx : Word) (p : Packet) (c : Nat) (l : Lane), l.EventTaken → l.ch.Takes p → p.IsStart →
    l.ch.InSequence p.cc → 65535 ≤ cap.toNat → l.ch.state = .idle → p.pes.Accepted l.ch.malformedPolicy →
    (p.pes.len ≠ 0 → p.geometry.plen < p.pes.len.toNat + 6) →
    let fl := flagVec (p.pes.acceptFlags ++ [.start])
    ∃ l', absorbLane cap idx p c l = .ok l' ∧ l'.sink = l.sink ∧
      l'.ch = l.ch.started p .assemblingStarted fl l'.ch.acc ∧
      (∀ a, l'.ch.acc.read? a =
        if a < p.geometry.plen - p.pes.hs then p.elementary[a]? else l.ch.acc.read? a) ∧
      l'.events = l.events ++ [p.event c idx .assemblingStarted fl (some ⟨p.pes.sid, p.pes.len, p.pes.hdl⟩)]

/-- R188: a bounded PES that fits in its start packet, no elementary byte included, is flushed at once, and the result is
AssemblingFinished. When the sink answers `err` to that flush the channel is Idle with FATAL set and the result is SinkError (R193); what
reached the sink is whatever the answer says (R57). Either way the PES header is stored and reported. -/
def Obligations.StartThatCompletesFlushesAtOnce : Prop :=
  ∀ (cap idx : Word) (p : Packet) (c : Nat) (l : Lane), l.EventTaken → l.ch.Takes p → p.IsStart →
    l.ch.InSequence p.cc → 65535 ≤ cap.toNat → l.ch.state = .idle → p.pes.Accepted l.ch.malformedPolicy →
    p.pes.len ≠ 0 → p.geometry.plen = p.pes.len.toNat + 6 →
    let fl := flagVec (p.pes.acceptFlags ++ [.start, .flush])
    let header : PesTriple := ⟨p.pes.sid, p.pes.len, p.pes.hdl⟩
    (l.nextReply c = some .ok →
      ∃ l', absorbLane cap idx p c l = .ok l' ∧ l'.sink = l.sink ++ [.bytes p.elementary, .endOfPes] ∧
        l'.ch = { l.ch.toIdle.reported p.cc .assemblingFinished fl with
          pesSid := p.pes.sid, pesLen := p.pes.len, pesHdl := p.pes.hdl } ∧
        l'.events = l.events ++ [p.event c idx .assemblingFinished fl (some header)]) ∧
    (∀ reached, l.nextReply c = some (.err reached) →
      ∃ l', absorbLane cap idx p c l = .ok l' ∧ l'.sink = l.sink ++ reached ∧
        l'.ch = { l.ch.toIdle.reported p.cc .sinkError fl with
          pesSid := p.pes.sid, pesLen := p.pes.len, pesHdl := p.pes.hdl, fatal := true } ∧
        l'.events = l.events ++ [p.event c idx .sinkError fl (some header)])

/-- R185: a start packet in sequence on an Idle channel whose header is rejected leaves the channel Idle with StreamPacketLost and the
flags of PES_CHECK; the event carries the header if it could be read. -/
def Obligations.RejectedStartIsLost : Prop :=
  ∀ (cap idx : Word) (p : Packet) (c : Nat) (l : Lane), l.EventTaken → l.ch.Takes p → p.IsStart →
    l.ch.InSequence p.cc → l.ch.state = .idle → ¬ p.pes.Accepted l.ch.malformedPolicy →
    let fl := (pesCheck p.pes l.ch.malformedPolicy).fl
    ∃ l', absorbLane cap idx p c l = .ok l' ∧ l'.sink = l.sink ∧
      l'.ch = l.ch.reported p.cc .streamPacketLost fl ∧
      l'.events = l.events ++ [p.event c idx .streamPacketLost fl
        (if 6 ≤ p.geometry.plen then some ⟨p.pes.sid, p.pes.len, p.pes.hdl⟩ else none)]

/-- R186: a start packet in sequence on an Idle channel whose elementary bytes exceed the expected size of its bounded PES sets F_CAP
and gives StreamPacketLost in Idle; no byte is kept. -/
def Obligations.FirstFragmentOverflowIsLost : Prop :=
  ∀ (cap idx : Word) (p : Packet) (c : Nat) (l : Lane), l.EventTaken → l.ch.Takes p → p.IsStart →
    l.ch.InSequence p.cc → l.ch.state = .idle → p.pes.Accepted l.ch.malformedPolicy → p.pes.len ≠ 0 →
    p.pes.len.toNat + 6 < p.geometry.plen →
    let fl := flagVec (p.pes.acceptFlags ++ [.cap])
    ∃ l', absorbLane cap idx p c l = .ok l' ∧ l'.sink = l.sink ∧
      l'.ch = l.ch.reported p.cc .streamPacketLost fl ∧
      l'.events = l.events ++ [p.event c idx .streamPacketLost fl (some ⟨p.pes.sid, p.pes.len, p.pes.hdl⟩)]

/-- R184: a start packet in sequence on an Assembling channel. An unbounded PES is flushed before the new header is looked at; a bounded
one is aborted; then the start runs as from Idle: its channel state and its sink items are those of the same packet on the channel
made Idle (the second clause of each case), but for the flags F_FLUSH, or F_PREV_ABORTED and F_DISCARD. -/
def Obligations.StartOverAPesInProgress : Prop :=
  ∀ (cap idx : Word) (p : Packet) (c : Nat) (l l0 : Lane), l.EventTaken → l.ch.Takes p → p.IsStart →
    l.ch.InSequence p.cc → l.ch.Inv cap → l.ch.state = .assembling →
    (l.ch.bounded = false → l.nextReply c = some .ok → ∀ burst, l.ch.acc.readRange? 0 l.ch.woff.toNat = some burst →
      absorbLane cap idx p c ((l.sinkGot [.bytes burst, .endOfPes]).withCh l.ch.toIdle) = .ok l0 →
      ∃ l', absorbLane cap idx p c l = .ok l' ∧ l'.sink = l0.sink ∧
        l'.ch = { l0.ch with lastFlags := l0.ch.lastFlags ||| flagVec [.flush] }) ∧
    (l.ch.bounded = true → absorbLane cap idx p c (l.withCh l.ch.toIdle) = .ok l0 →
      ∃ l', absorbLane cap idx p c l = .ok l' ∧ l'.sink = l0.sink ∧
        l'.ch = { l0.ch with lastFlags := l0.ch.lastFlags ||| flagVec [.prevAborted, .discard] })

/-- R184, R193: when the sink answers `err` to the flush of the unbounded PES in progress, the new PES is not started: the channel is Idle
with FATAL set, the result is SinkError, and no PES header is reported. -/
def Obligations.SinkErrorBeforeAStartEndsIt : Prop :=
  ∀ (cap idx : Word) (p : Packet) (c : Nat) (l : Lane) (reached : List SinkItem), l.EventTaken → l.ch.Takes p →
    p.IsStart → l.ch.InSequence p.cc → l.ch.Inv cap → l.ch.state = .assembling → l.ch.bounded = false →
    l.nextReply c = some (.err reached) →
    ∃ l', absorbLane cap idx p c l = .ok l' ∧ l'.sink = l.sink ++ reached ∧
      l'.ch = { l.ch.toIdle.reported p.cc .sinkError (flagVec [.flush]) with fatal := true } ∧
      l'.events = l.events ++ [p.event c idx .sinkError (flagVec [.flush]) none]

/-- R180: a start packet out of sequence. The PES in progress is discarded, unflushed, and the start path runs as from Idle, with the result
StreamPacketLost whatever it would otherwise be; F_DISC is set, and F_DISCARD if a PES was in progress. By clauses: a rejected header
(R185); a first fragment beyond the expected size (R186); a PES begun (R187); a PES complete at once, flushed (R188); and the sink
answering `err` to that flush, which gives SinkError (R193). -/
def Obligations.LossWithStartResynchronises : Prop :=
  ∀ (cap idx : Word) (p : Packet) (c : Nat) (l : Lane), l.EventTaken → l.ch.Takes p → p.IsStart →
    ¬ l.ch.InSequence p.cc → 65535 ≤ cap.toNat →
    let before : List Flag := .disc :: if l.ch.state = .assembling then [.discard] else []
    let header : PesTriple := ⟨p.pes.sid, p.pes.len, p.pes.hdl⟩
    (¬ p.pes.Accepted l.ch.malformedPolicy →
      let fl := flagVec before ||| (pesCheck p.pes l.ch.malformedPolicy).fl
      ∃ l', absorbLane cap idx p c l = .ok l' ∧ l'.sink = l.sink ∧
        l'.ch = l.ch.toIdle.reported p.cc .streamPacketLost fl ∧
        l'.events = l.events ++ [p.event c idx .streamPacketLost fl
          (if 6 ≤ p.geometry.plen then some header else none)]) ∧
    (p.pes.Accepted l.ch.malformedPolicy → p.pes.len ≠ 0 → p.pes.len.toNat + 6 < p.geometry.plen →
      let fl := flagVec (before ++ p.pes.acceptFlags ++ [.cap])
      ∃ l', absorbLane cap idx p c l = .ok l' ∧ l'.sink = l.sink ∧
        l'.ch = l.ch.toIdle.reported p.cc .streamPacketLost fl ∧
        l'.events = l.events ++ [p.event c idx .streamPacketLost fl (some header)]) ∧
    (p.pes.Accepted l.ch.malformedPolicy → (p.pes.len ≠ 0 → p.geometry.plen < p.pes.len.toNat + 6) →
      let fl := flagVec (before ++ p.pes.acceptFlags ++ [.start])
      ∃ l', absorbLane cap idx p c l = .ok l' ∧ l'.sink = l.sink ∧
        l'.ch = l.ch.started p .streamPacketLost fl l'.ch.acc ∧
        (∀ a, l'.ch.acc.read? a = p.elementary[a]?) ∧
        l'.events = l.events ++ [p.event c idx .streamPacketLost fl (some header)]) ∧
    (p.pes.Accepted l.ch.malformedPolicy → p.pes.len ≠ 0 → p.geometry.plen = p.pes.len.toNat + 6 →
      let fl := flagVec (before ++ p.pes.acceptFlags ++ [.start, .flush])
      (l.nextReply c = some .ok →
        ∃ l', absorbLane cap idx p c l = .ok l' ∧ l'.sink = l.sink ++ [.bytes p.elementary, .endOfPes] ∧
          l'.ch = { l.ch.toIdle.reported p.cc .streamPacketLost fl with
            pesSid := p.pes.sid, pesLen := p.pes.len, pesHdl := p.pes.hdl } ∧
          l'.events = l.events ++ [p.event c idx .streamPacketLost fl (some header)]) ∧
      (∀ reached, l.nextReply c = some (.err reached) →
        ∃ l', absorbLane cap idx p c l = .ok l' ∧ l'.sink = l.sink ++ reached ∧
          l'.ch = { l.ch.toIdle.reported p.cc .sinkError fl with
            pesSid := p.pes.sid, pesLen := p.pes.len, pesHdl := p.pes.hdl, fatal := true } ∧
          l'.events = l.events ++ [p.event c idx .sinkError fl (some header)]))

/-- R86, R194, with R84 and R85: the six result codes and the twelve flag bits as numbers, a flag vector being the set of its flags; and
every field of the five words of an event record, for channels 0 to 15. -/
def Obligations.EventRecordLayout : Prop :=
  (∀ r : Result, r.code = match r with
    | .unexpectedPid => 0
    | .streamPacketLost => 1
    | .assemblingStarted => 2
    | .assemblingContinue => 3
    | .assemblingFinished => 4
    | .sinkError => 5) ∧
  (∀ k : Flag, k.mask = match k with
    | .disc => 0x001
    | .geom => 0x002
    | .noPayload => 0x004
    | .order => 0x008
    | .cap => 0x010
    | .badStartCode => 0x020
    | .hdrTrunc => 0x040
    | .len => 0x080
    | .prevAborted => 0x100
    | .flush => 0x200
    | .start => 0x400
    | .discard => 0x800) ∧
  (∀ (flags : List Flag) (k : Flag), flagVec flags &&& k.mask = if k ∈ flags then k.mask else 0) ∧
  ∀ (p : Packet) (c : Nat) (idx : Word) (r : Result) (fl : BitVec 12) (pes : Option PesTriple), c < 16 →
    let ev := p.event c idx r fl pes
    ev.w0 = idx ∧ ev.w1 = p.byte 0 ++ p.byte 1 ++ p.byte 2 ++ p.byte 3 ∧
    ev.w2.extractLsb' 0 8 = (if p.afc = 2 ∨ p.afc = 3 then p.byte 4 else 0) ∧
    ev.w2.extractLsb' 8 8 = (if (p.afc = 2 ∨ p.afc = 3) ∧ p.byte 4 ≠ 0 then p.byte 5 else 0) ∧
    ev.w2.getLsbD 16 = decide (p.afc = 2 ∨ p.afc = 3) ∧
    ev.w2.getLsbD 17 = decide ((p.afc = 2 ∨ p.afc = 3) ∧ p.byte 4 ≠ 0) ∧
    ev.w2.getLsbD 18 = pes.isSome ∧ ev.w2.extractLsb' 19 3 = r.code ∧ ev.w2.extractLsb' 22 2 = 0 ∧
    (ev.w2.extractLsb' 24 4).toNat = c ∧ ev.w2.extractLsb' 28 4 = 0 ∧
    ev.w3.extractLsb' 0 12 = fl ∧ ev.w3.extractLsb' 12 20 = 0 ∧
    (pes = none → ev.w4 = 0) ∧
    (∀ t, pes = some t → ev.w4.extractLsb' 0 8 = t.sid ∧ ev.w4.extractLsb' 8 16 = t.len ∧
      ev.w4.extractLsb' 24 8 = t.hdl)

/-! ## The whole machine -/

/-- The invariant of R24, with the ranges of R22 and R10, holds at reset for every legal build. -/
def Obligations.InvariantHoldsAtReset : Prop :=
  ∀ (n : Nat) (cap : Word), 1 ≤ n → n ≤ 16 → 65535 ≤ cap.toNat → (State.resetWith n cap).Inv

/-- R24: every step keeps the invariant, whatever the host sends, a reset during a command included. -/
def Obligations.EveryStepKeepsTheInvariant : Prop :=
  ∀ s t : State, s.Inv → step s = .next t → t.Inv

/-- R27, R53: in a state that meets the invariant no step reads a byte of ACC that was never written or writes one at or beyond
ACC_CAPACITY: those two faults are never raised. -/
def Obligations.NoStepLeavesTheBuffer : Prop :=
  ∀ (s : State) (c : Nat), s.Inv → step s ≠ .fault (.accUnwritten c) ∧ step s ≠ .fault (.accOutside c)

/-- R21, R265, R272: what a command does to a channel depends on that channel and its own ports, the packet index and the parameters only:
in two machines that agree on those, whatever their other channels hold, the command leaves the channel and its streams alike. -/
def Obligations.ChannelsDoNotInfluenceEachOther : Prop :=
  ∀ (i : Instr) (s s' t t' : State) (c : Nat), s.accCapacity = s'.accCapacity → s.pktIndex = s'.pktIndex →
    s.lanes.length = s'.lanes.length → s.lanes[c]? = s'.lanes[c]? → exec i s = .next t → exec i s' = .next t' →
    t.lanes[c]? = t'.lanes[c]?

/-- R102, R103, R122, R125: sync byte, TEI, TP, TSC, the adaptation field's flags and its other bytes have no influence on assembly: two
packets of the same PID, S, CC, geometry and payload region leave the channel and its sink alike. -/
def Obligations.OnlyHeaderGeometryAndPayloadMatter : Prop :=
  ∀ (cap idx : Word) (p p' : Packet) (c : Nat) (l l1 l1' : Lane), p.pid = p'.pid → p.pusi = p'.pusi →
    p.cc = p'.cc → p.geometry = p'.geometry → p.payload = p'.payload →
    absorbLane cap idx p c l = .ok l1 → absorbLane cap idx p' c l = .ok l1' →
    l1.ch = l1'.ch ∧ l1.sink = l1'.sink

/-- R33, R39, R233: TARGET_PID, EN and the policies of a channel change by no command but a write to its own CTRL register. -/
def Obligations.ConfigurationChangesOnlyByCtrlWrite : Prop :=
  ∀ (i : Instr) (s t : State) (c : Nat) (l l' : Lane), exec i s = .next t → s.lanes[c]? = some l →
    t.lanes[c]? = some l' → (∀ index v, i = .wrreg index v → index.toNat ≠ 0x10 + 8 * c) →
    l'.ch.targetPid = l.ch.targetPid ∧ l'.ch.en = l.ch.en ∧ l'.ch.malformedPolicy = l.ch.malformedPolicy ∧
      l'.ch.shutdownPolicy = l.ch.shutdownPolicy

/-- R267, R174: once FATAL is set no command but a write to the channel's CTRL register clears it, and until then no command changes the
channel or sends anything to its sink. -/
def Obligations.FatalClearsOnlyByCtrlWrite : Prop :=
  ∀ (i : Instr) (s t : State) (c : Nat) (l l' : Lane), exec i s = .next t → s.lanes[c]? = some l →
    t.lanes[c]? = some l' → l.ch.fatal = true → (∀ index v, i = .wrreg index v → index.toNat ≠ 0x10 + 8 * c) →
    l'.ch = l.ch ∧ l'.sink = l.sink

/-- R26, R270, R56: PKT_INDEX moves on by one, and every channel emits one record, exactly at the commands that present a packet; every
command answers exactly once; the parameters never change. -/
def Obligations.OnlyPacketsAreCountedAndReported : Prop :=
  ∀ (i : Instr) (s t : State), exec i s = .next t →
    t.accCapacity = s.accCapacity ∧ t.lanes.length = s.lanes.length ∧ t.hostIn = s.hostIn ∧
    (∃ r, t.responses = s.responses ++ [r]) ∧
    ((∃ bytes, (encode i).data = .packet bytes) → t.pktIndex = s.pktIndex + 1 ∧
      ∀ (c : Nat) (l l' : Lane), s.lanes[c]? = some l → t.lanes[c]? = some l' → ∃ ev, l'.events = l.events ++ [ev]) ∧
    ((∀ bytes, (encode i).data ≠ .packet bytes) → t.pktIndex = s.pktIndex ∧
      ∀ (c : Nat) (l l' : Lane), s.lanes[c]? = some l → t.lanes[c]? = some l' → l'.events = l.events)

/-- R50, R66: the sink streams, the event streams and the response stream are append-only over every command, and over a step that takes
none. (A reset empties them: R40, ResetDuringRun.) -/
def Obligations.StreamsAreAppendOnly : Prop :=
  ∀ s t : State, (∀ input, s.hostIn.head? = some input → ∃ x, input = .txn x) → step s = .next t →
    s.responses <+: t.responses ∧ t.lanes.length = s.lanes.length ∧
    ∀ (c : Nat) (l l' : Lane), s.lanes[c]? = some l → t.lanes[c]? = some l' →
      l.sink <+: l'.sink ∧ l.events <+: l'.events

/-- R198: a bounded PES with elementary payload E, sent as a start packet and in-sequence continuations whose elementary bytes are E in
order, to an enabled Idle channel whose sink answers `ok` and whose consumer takes every record, reaches the sink as exactly Bytes(E),
EndOfPes, and leaves the channel Idle with the result AssemblingFinished. -/
def Obligations.BoundedPesRoundTrip : Prop :=
  ∀ (cap idx : Word) (c : Nat) (l : Lane) (p0 : Packet) (rest : List Packet), 65535 ≤ cap.toNat →
    l.ch.Inv cap → l.ch.state = .idle → l.eventRoom = none → l.nextReply c = some .ok → l.ch.Takes p0 →
    l.ch.InSequence p0.cc → p0.IsStart → p0.pes.Accepted l.ch.malformedPolicy → p0.pes.len ≠ 0 →
    (∀ p ∈ rest, p.IsContinuation ∧ p.pid = l.ch.targetPid) → ccChain p0.cc rest →
    (p0.elementary ++ rest.flatMap Packet.payload).length = p0.pes.len.toNat + 6 - p0.pes.hs →
    ∃ l', absorbSeq cap c idx (p0 :: rest) l = .ok l' ∧
      l'.sink = l.sink ++ [.bytes (p0.elementary ++ rest.flatMap Packet.payload), .endOfPes] ∧
      l'.ch.state = .idle ∧ l'.ch.lastResult = .assemblingFinished ∧ l'.ch.fatal = false

/-- R198, the unbounded half: an unbounded PES with elementary payload E, sent as a start packet and in-sequence continuations whose
elementary bytes are E in order and fit in the buffer, sends nothing by itself and stays in progress. At the next in-sequence start
packet the sink gains Bytes(E), EndOfPes, and nothing else unless the new PES is complete in its own packet; at EOS under FLUSH it gains
Bytes(E), EndOfPes, Close. -/
def Obligations.UnboundedPesRoundTrip : Prop :=
  ∀ (cap idx : Word) (c : Nat) (l : Lane) (p0 : Packet) (rest : List Packet), 65535 ≤ cap.toNat →
    l.ch.Inv cap → l.ch.state = .idle → l.eventRoom = none → l.nextReply c = some .ok → l.ch.Takes p0 →
    l.ch.InSequence p0.cc → p0.IsStart → p0.pes.Accepted l.ch.malformedPolicy → p0.pes.len = 0 →
    (∀ p ∈ rest, p.IsContinuation ∧ p.pid = l.ch.targetPid) → ccChain p0.cc rest →
    (p0.elementary ++ rest.flatMap Packet.payload).length ≤ cap.toNat →
    let burst := p0.elementary ++ rest.flatMap Packet.payload
    ∃ l1, absorbSeq cap c idx (p0 :: rest) l = .ok l1 ∧ l1.sink = l.sink ∧ l1.ch.state = .assembling ∧
      (∀ (idx' : Word) (p : Packet), l.SinkAnswers → p.IsStart → p.pid = l.ch.targetPid →
        ccChain p0.cc (rest ++ [p]) →
        ∃ l2, absorbLane cap idx' p c l1 = .ok l2 ∧ l.sink ++ [.bytes burst, .endOfPes] <+: l2.sink ∧
          (p.pes.len = 0 ∨ p.geometry.plen ≠ p.pes.len.toNat + 6 →
            l2.sink = l.sink ++ [.bytes burst, .endOfPes])) ∧
      (∀ (s : State) (ch : BitVec 4), ch.toNat = c → s.lanes[c]? = some l1 → l.ch.shutdownPolicy = .flush →
        (l.sinkGot []).nextReply c = some .ok →
        ∃ t l2, exec (.eos ch) s = .next t ∧ t.lanes[c]? = some l2 ∧
          l2.sink = l.sink ++ [.bytes burst, .endOfPes, .close] ∧ l2.ch.state = .idle)
end

