-- ==== Sys2Proof/Laws/State.lean ====
section
/-! SUPPORT. One lemma per field per update of the state, so that no later proof unfolds a record update. -/

namespace Sys2Proof.Machine

/-! `State.respond` -/

@[simp] theorem State.respond_accCapacity (s : State) (st : StatusCode) (d : Option Word) :
    (s.respond st d).accCapacity = s.accCapacity := rfl
@[simp] theorem State.respond_pktIndex (s : State) (st : StatusCode) (d : Option Word) :
    (s.respond st d).pktIndex = s.pktIndex := rfl
@[simp] theorem State.respond_lanes (s : State) (st : StatusCode) (d : Option Word) :
    (s.respond st d).lanes = s.lanes := rfl
@[simp] theorem State.respond_responses (s : State) (st : StatusCode) (d : Option Word) :
    (s.respond st d).responses = s.responses ++ [{ status := st.word, data := d }] := rfl
@[simp] theorem State.respond_hostIn (s : State) (st : StatusCode) (d : Option Word) :
    (s.respond st d).hostIn = s.hostIn := rfl

/-! `State.setLane` -/

@[simp] theorem State.setLane_accCapacity (s : State) (c : Nat) (l : Lane) :
    (s.setLane c l).accCapacity = s.accCapacity := rfl
@[simp] theorem State.setLane_pktIndex (s : State) (c : Nat) (l : Lane) :
    (s.setLane c l).pktIndex = s.pktIndex := rfl
@[simp] theorem State.setLane_lanes (s : State) (c : Nat) (l : Lane) :
    (s.setLane c l).lanes = s.lanes.set c l := rfl
@[simp] theorem State.setLane_responses (s : State) (c : Nat) (l : Lane) :
    (s.setLane c l).responses = s.responses := rfl
@[simp] theorem State.setLane_hostIn (s : State) (c : Nat) (l : Lane) :
    (s.setLane c l).hostIn = s.hostIn := rfl

/-! `State.applyReset` -/

@[simp] theorem State.applyReset_accCapacity (s : State) : s.applyReset.accCapacity = s.accCapacity := rfl
@[simp] theorem State.applyReset_pktIndex (s : State) : s.applyReset.pktIndex = 0 := rfl
@[simp] theorem State.applyReset_lanes (s : State) : s.applyReset.lanes = s.lanes.map Lane.applyReset := rfl
@[simp] theorem State.applyReset_responses (s : State) : s.applyReset.responses = [] := rfl
@[simp] theorem State.applyReset_hostIn (s : State) : s.applyReset.hostIn = s.hostIn := rfl

/-! `Lane.applyReset` -/

@[simp] theorem Lane.applyReset_ch (l : Lane) : l.applyReset.ch = Channel.reset := rfl
@[simp] theorem Lane.applyReset_sink (l : Lane) : l.applyReset.sink = [] := rfl
@[simp] theorem Lane.applyReset_events (l : Lane) : l.applyReset.events = [] := rfl
@[simp] theorem Lane.applyReset_replies (l : Lane) : l.applyReset.replies = l.replies := rfl
@[simp] theorem Lane.applyReset_calls (l : Lane) : l.applyReset.calls = l.calls := rfl
@[simp] theorem Lane.applyReset_eventRoom (l : Lane) : l.applyReset.eventRoom = l.eventRoom := rfl

/-! `Lane.keep` -/

@[simp] theorem Lane.keep_ch (full l : Lane) (cut : Cut) : (Lane.keep full cut l).ch = Channel.reset := rfl
@[simp] theorem Lane.keep_sink (full l : Lane) (cut : Cut) :
    (Lane.keep full cut l).sink = (full.sink.drop l.sink.length).take cut.items := rfl
@[simp] theorem Lane.keep_events (full l : Lane) (cut : Cut) :
    (Lane.keep full cut l).events = (full.events.drop l.events.length).take cut.records := rfl

/-! `Lane.withCh` and `Lane.sinkGot` -/

@[simp] theorem Lane.withCh_ch (l : Lane) (ch : Channel) : (l.withCh ch).ch = ch := rfl
@[simp] theorem Lane.withCh_sink (l : Lane) (ch : Channel) : (l.withCh ch).sink = l.sink := rfl
@[simp] theorem Lane.withCh_events (l : Lane) (ch : Channel) : (l.withCh ch).events = l.events := rfl
@[simp] theorem Lane.withCh_replies (l : Lane) (ch : Channel) : (l.withCh ch).replies = l.replies := rfl
@[simp] theorem Lane.withCh_calls (l : Lane) (ch : Channel) : (l.withCh ch).calls = l.calls := rfl
@[simp] theorem Lane.withCh_eventRoom (l : Lane) (ch : Channel) : (l.withCh ch).eventRoom = l.eventRoom := rfl
@[simp] theorem Lane.withCh_withCh (l : Lane) (ch ch' : Channel) : (l.withCh ch).withCh ch' = l.withCh ch' := rfl
@[simp] theorem Lane.withCh_self (l : Lane) : l.withCh l.ch = l := rfl

@[simp] theorem Lane.sinkGot_ch (l : Lane) (got : List SinkItem) : (l.sinkGot got).ch = l.ch := rfl
@[simp] theorem Lane.sinkGot_sink (l : Lane) (got : List SinkItem) : (l.sinkGot got).sink = l.sink ++ got := rfl
@[simp] theorem Lane.sinkGot_events (l : Lane) (got : List SinkItem) : (l.sinkGot got).events = l.events := rfl
@[simp] theorem Lane.sinkGot_replies (l : Lane) (got : List SinkItem) :
    (l.sinkGot got).replies = l.replies.tail := rfl
@[simp] theorem Lane.sinkGot_calls (l : Lane) (got : List SinkItem) : (l.sinkGot got).calls = l.calls + 1 := rfl
@[simp] theorem Lane.sinkGot_eventRoom (l : Lane) (got : List SinkItem) :
    (l.sinkGot got).eventRoom = l.eventRoom := rfl

/-! `Channel.toIdle` and `Channel.trackCc` -/

@[simp] theorem Channel.toIdle_targetPid (ch : Channel) : ch.toIdle.targetPid = ch.targetPid := rfl
@[simp] theorem Channel.toIdle_en (ch : Channel) : ch.toIdle.en = ch.en := rfl
@[simp] theorem Channel.toIdle_malformedPolicy (ch : Channel) : ch.toIdle.malformedPolicy = ch.malformedPolicy := rfl
@[simp] theorem Channel.toIdle_shutdownPolicy (ch : Channel) : ch.toIdle.shutdownPolicy = ch.shutdownPolicy := rfl
@[simp] theorem Channel.toIdle_state (ch : Channel) : ch.toIdle.state = .idle := rfl
@[simp] theorem Channel.toIdle_bounded (ch : Channel) : ch.toIdle.bounded = false := rfl
@[simp] theorem Channel.toIdle_expected (ch : Channel) : ch.toIdle.expected = 0 := rfl
@[simp] theorem Channel.toIdle_woff (ch : Channel) : ch.toIdle.woff = 0 := rfl
@[simp] theorem Channel.toIdle_ccValid (ch : Channel) : ch.toIdle.ccValid = ch.ccValid := rfl
@[simp] theorem Channel.toIdle_lastCc (ch : Channel) : ch.toIdle.lastCc = ch.lastCc := rfl
@[simp] theorem Channel.toIdle_fatal (ch : Channel) : ch.toIdle.fatal = ch.fatal := rfl
@[simp] theorem Channel.toIdle_pesSid (ch : Channel) : ch.toIdle.pesSid = ch.pesSid := rfl
@[simp] theorem Channel.toIdle_pesLen (ch : Channel) : ch.toIdle.pesLen = ch.pesLen := rfl
@[simp] theorem Channel.toIdle_pesHdl (ch : Channel) : ch.toIdle.pesHdl = ch.pesHdl := rfl
@[simp] theorem Channel.toIdle_lastResult (ch : Channel) : ch.toIdle.lastResult = ch.lastResult := rfl
@[simp] theorem Channel.toIdle_lastFlags (ch : Channel) : ch.toIdle.lastFlags = ch.lastFlags := rfl
@[simp] theorem Channel.toIdle_acc (ch : Channel) : ch.toIdle.acc = [] := rfl

@[simp] theorem Channel.trackCc_targetPid (cc : BitVec 4) (ch : Channel) :
    (ch.trackCc cc).targetPid = ch.targetPid := rfl
@[simp] theorem Channel.trackCc_en (cc : BitVec 4) (ch : Channel) : (ch.trackCc cc).en = ch.en := rfl
@[simp] theorem Channel.trackCc_malformedPolicy (cc : BitVec 4) (ch : Channel) :
    (ch.trackCc cc).malformedPolicy = ch.malformedPolicy := rfl
@[simp] theorem Channel.trackCc_shutdownPolicy (cc : BitVec 4) (ch : Channel) :
    (ch.trackCc cc).shutdownPolicy = ch.shutdownPolicy := rfl
@[simp] theorem Channel.trackCc_state (cc : BitVec 4) (ch : Channel) : (ch.trackCc cc).state = ch.state := rfl
@[simp] theorem Channel.trackCc_bounded (cc : BitVec 4) (ch : Channel) : (ch.trackCc cc).bounded = ch.bounded := rfl
@[simp] theorem Channel.trackCc_expected (cc : BitVec 4) (ch : Channel) :
    (ch.trackCc cc).expected = ch.expected := rfl
@[simp] theorem Channel.trackCc_woff (cc : BitVec 4) (ch : Channel) : (ch.trackCc cc).woff = ch.woff := rfl
@[simp] theorem Channel.trackCc_ccValid (cc : BitVec 4) (ch : Channel) : (ch.trackCc cc).ccValid = true := rfl
@[simp] theorem Channel.trackCc_lastCc (cc : BitVec 4) (ch : Channel) : (ch.trackCc cc).lastCc = cc := rfl
@[simp] theorem Channel.trackCc_fatal (cc : BitVec 4) (ch : Channel) : (ch.trackCc cc).fatal = ch.fatal := rfl
@[simp] theorem Channel.trackCc_pesSid (cc : BitVec 4) (ch : Channel) : (ch.trackCc cc).pesSid = ch.pesSid := rfl
@[simp] theorem Channel.trackCc_pesLen (cc : BitVec 4) (ch : Channel) : (ch.trackCc cc).pesLen = ch.pesLen := rfl
@[simp] theorem Channel.trackCc_pesHdl (cc : BitVec 4) (ch : Channel) : (ch.trackCc cc).pesHdl = ch.pesHdl := rfl
@[simp] theorem Channel.trackCc_lastResult (cc : BitVec 4) (ch : Channel) :
    (ch.trackCc cc).lastResult = ch.lastResult := rfl
@[simp] theorem Channel.trackCc_lastFlags (cc : BitVec 4) (ch : Channel) :
    (ch.trackCc cc).lastFlags = ch.lastFlags := rfl
@[simp] theorem Channel.trackCc_acc (cc : BitVec 4) (ch : Channel) : (ch.trackCc cc).acc = ch.acc := rfl

/-! The working record -/

@[simp] theorem Work.flag_lane (k : Flag) (w : Work) : (w.flag k).lane = w.lane := rfl
@[simp] theorem Work.flag_fl (k : Flag) (w : Work) : (w.flag k).fl = setFlag w.fl k := rfl
@[simp] theorem Work.flag_pes (k : Flag) (w : Work) : (w.flag k).pes = w.pes := rfl
@[simp] theorem Work.withCh_lane (w : Work) (ch : Channel) : (w.withCh ch).lane = w.lane.withCh ch := rfl
@[simp] theorem Work.withCh_fl (w : Work) (ch : Channel) : (w.withCh ch).fl = w.fl := rfl
@[simp] theorem Work.withCh_pes (w : Work) (ch : Channel) : (w.withCh ch).pes = w.pes := rfl
@[simp] theorem Work.discard_lane (w : Work) : w.discard.lane = w.lane.withCh w.lane.ch.toIdle := rfl
@[simp] theorem Work.discard_pes (w : Work) : w.discard.pes = w.pes := rfl
@[simp] theorem Work.discard_fl (w : Work) :
    w.discard.fl = setFlagIf (w.lane.ch.state == .assembling) w.fl .discard := rfl
@[simp] theorem Work.sinkFail_lane (w : Work) :
    w.sinkFail.lane = w.lane.withCh { w.lane.ch.toIdle with fatal := true } := rfl
@[simp] theorem Work.sinkFail_pes (w : Work) : w.sinkFail.pes = w.pes := rfl
@[simp] theorem Work.sinkFail_fl (w : Work) :
    w.sinkFail.fl = setFlagIf (w.lane.ch.state == .assembling) w.fl .discard := rfl

@[simp] theorem Work.finish_ch (r : Result) (w : Work) :
    (w.finish r).ch = { w.lane.ch with lastResult := r, lastFlags := w.fl } := rfl
@[simp] theorem Work.finish_sink (r : Result) (w : Work) : (w.finish r).sink = w.lane.sink := rfl
@[simp] theorem Work.finish_events (r : Result) (w : Work) : (w.finish r).events = w.lane.events := rfl
@[simp] theorem Work.finish_replies (r : Result) (w : Work) : (w.finish r).replies = w.lane.replies := rfl
@[simp] theorem Work.finish_calls (r : Result) (w : Work) : (w.finish r).calls = w.lane.calls := rfl
@[simp] theorem Work.finish_eventRoom (r : Result) (w : Work) : (w.finish r).eventRoom = w.lane.eventRoom := rfl

end Sys2Proof.Machine
end

