-- ==== Sys2Proof/Laws/Memory.lean ====
section
/-! SUPPORT. The laws of the buffer ACC: a write is read back, it leaves every other address alone, and it keeps the canonical
form. -/

namespace Sys2Proof.Machine

@[simp] theorem Memory.read?_nil (a : Nat) : Memory.read? [] a = none := rfl

theorem Memory.read?_append (m m' : Memory) (a : Nat) :
    Memory.read? (m ++ m') a = (Memory.read? m a).or (Memory.read? m' a) := by
  induction m with
  | nil => rfl
  | cons cell m ih =>
    by_cases h : cell.1 = a <;> simp [Memory.read?, h, ih]

/-- A filter that looks at the address only lets a read through or stops it. -/
theorem Memory.read?_filter (m : Memory) (keep : Nat → Bool) (a : Nat) :
    Memory.read? (m.filter fun cell => keep cell.1) a = if keep a then m.read? a else none := by
  induction m with
  | nil => simp
  | cons cell m ih =>
    by_cases hk : keep cell.1 <;> by_cases ha : cell.1 = a
    · subst ha; simp [Memory.read?, hk]
    · simp [Memory.read?, hk, ha, ih]
    · subst ha; simp [hk, ih]
    · simp [Memory.read?, hk, ha, ih]

theorem Memory.read?_cellsFrom (bytes : List Byte) (b a : Nat) :
    Memory.read? (cellsFrom b bytes) a = if b ≤ a then bytes[a - b]? else none := by
  induction bytes generalizing b with
  | nil => simp [cellsFrom]
  | cons x bytes ih =>
    by_cases h : b = a
    · subst h; simp [cellsFrom, Memory.read?]
    · by_cases hle : b ≤ a
      · obtain ⟨k, rfl⟩ : ∃ k, a = b + 1 + k := ⟨a - b - 1, by omega⟩
        have h1 : b + 1 + k - b = k + 1 := by omega
        have h2 : b + 1 + k - (b + 1) = k := by omega
        simp [cellsFrom, Memory.read?, h, ih, h1, h2]
        omega
      · simp [cellsFrom, Memory.read?, h, ih, hle]
        omega

/-- What a write does to every address: the stored bytes are read back, and every other address reads as before. -/
theorem Memory.read?_write (m : Memory) (b : Nat) (bytes : List Byte) (a : Nat) :
    (m.write b bytes).read? a =
      if b ≤ a ∧ a < b + bytes.length then bytes[a - b]? else m.read? a := by
  have h1 := Memory.read?_filter m (fun k => decide (k < b)) a
  have h2 := Memory.read?_filter m (fun k => decide (b + bytes.length ≤ k)) a
  simp only [Memory.write, Memory.read?_append, Memory.read?_cellsFrom]
  rw [h1, h2]
  by_cases hlt : a < b
  · have : ¬ b ≤ a := by omega
    have h3 : ¬ b + bytes.length ≤ a := by omega
    simp [hlt, this, h3]
  · by_cases hin : a < b + bytes.length
    · have hidx : a - b < bytes.length := by omega
      have h3 : ¬ b + bytes.length ≤ a := by omega
      have hle : b ≤ a := by omega
      simp [hlt, hin, h3, hle]
    · have hidx : bytes.length ≤ a - b := by omega
      have h3 : b + bytes.length ≤ a := by omega
      have hle : b ≤ a := by omega
      simp [hlt, hin, h3, hle, List.getElem?_eq_none hidx]

theorem cellsFrom_keys (b : Nat) (bytes : List Byte) :
    (cellsFrom b bytes).map Prod.fst = List.range' b bytes.length := by
  induction bytes generalizing b with
  | nil => rfl
  | cons x bytes ih => simp [cellsFrom, ih, List.range'_succ]

theorem Memory.wf_iff (m : Memory) : m.wf = true ↔ (m.map Prod.fst).Pairwise (· < ·) := by
  simp [Memory.wf, List.pairwise_map]

theorem Memory.nil_wf : Memory.wf [] = true := by decide

/-- A write keeps the canonical form. -/
theorem Memory.write_wf (m : Memory) (b : Nat) (bytes : List Byte) (h : m.wf = true) :
    (m.write b bytes).wf = true := by
  rw [Memory.wf_iff] at h ⊢
  have hc := cellsFrom_keys b bytes
  simp only [Memory.write, List.map_append, List.pairwise_append, hc]
  refine ⟨⟨?_, List.pairwise_lt_range' .., ?_⟩, ?_, ?_⟩
  · exact h.sublist (List.filter_sublist.map _)
  · intro x hx y hy
    simp only [List.mem_map, List.mem_filter, decide_eq_true_eq, List.mem_range'_1] at hx hy
    obtain ⟨cell, ⟨_, hlt⟩, rfl⟩ := hx
    omega
  · exact h.sublist (List.filter_sublist.map _)
  · intro x hx y hy
    simp only [List.mem_append, List.mem_map, List.mem_filter, decide_eq_true_eq, List.mem_range'_1] at hx hy
    obtain ⟨cell', ⟨_, hge⟩, rfl⟩ := hy
    rcases hx with ⟨cell, ⟨_, hlt⟩, rfl⟩ | hx <;> omega

/-- Appending at the end of a buffer that holds exactly the addresses below `n`. -/
theorem Memory.write_keys (m : Memory) (n : Nat) (bytes : List Byte) (h : m.map Prod.fst = List.range n) :
    (m.write n bytes).map Prod.fst = List.range (n + bytes.length) := by
  have hlt : ∀ cell ∈ m, cell.1 < n := by
    intro cell hc
    have : cell.1 ∈ m.map Prod.fst := List.mem_map_of_mem hc
    simpa [h] using this
  have h1 : m.filter (fun cell => decide (cell.1 < n)) = m := by
    rw [List.filter_eq_self]; intro cell hc; simpa using hlt cell hc
  have h2 : m.filter (fun cell => decide (n + bytes.length ≤ cell.1)) = [] := by
    rw [List.filter_eq_nil_iff]; intro cell hc; have := hlt cell hc; simp; omega
  simp only [Memory.write, h1, h2, List.append_nil, List.map_append, h, cellsFrom_keys]
  rw [List.range_eq_range', List.range_eq_range']
  simpa using List.range'_append_1 (s := 0) (m := n) (n := bytes.length)

/-- An address is listed exactly when it is one of the keys. -/
theorem Memory.read?_isSome (m : Memory) (a : Nat) : (m.read? a).isSome = true ↔ a ∈ m.map Prod.fst := by
  induction m with
  | nil => simp
  | cons cell m ih =>
    by_cases h : cell.1 = a
    · simp [Memory.read?, h]
    · have h' : ¬ a = cell.1 := fun e => h e.symm
      simp only [Memory.read?, h, ite_false, List.map_cons, List.mem_cons, h', false_or]
      exact ih

/-- What a range read gives: `n` bytes, each the byte of its address. -/
theorem Memory.readRange?_eq_some (m : Memory) (a n : Nat) (bytes : List Byte) :
    m.readRange? a n = some bytes ↔ bytes.length = n ∧ ∀ k < n, m.read? (a + k) = bytes[k]? := by
  induction n generalizing a bytes with
  | zero => cases bytes <;> simp [Memory.readRange?]
  | succ n ih =>
    simp only [Memory.readRange?]
    constructor
    · intro h
      split at h
      · cases h
      · rename_i b hb
        split at h
        · cases h
        · rename_i rest hrest
          cases h
          obtain ⟨hl, hk⟩ := (ih (a + 1) rest).1 hrest
          refine ⟨by simp [hl], ?_⟩
          intro k hkn
          cases k with
          | zero => simpa using hb
          | succ k =>
            have := hk k (by omega)
            rw [show a + (k + 1) = a + 1 + k by omega]
            simpa using this
    · rintro ⟨hl, hk⟩
      cases bytes with
      | nil => simp at hl
      | cons b rest =>
        have h0 := hk 0 (by omega)
        simp only [Nat.add_zero, List.getElem?_cons_zero] at h0
        have hr : m.readRange? (a + 1) n = some rest := by
          refine (ih (a + 1) rest).2 ⟨by simpa using hl, ?_⟩
          intro k hkn
          have := hk (k + 1) (by omega)
          rw [show a + 1 + k = a + (k + 1) by omega, this]; simp
        simp [h0, hr]

/-- A buffer that holds exactly the addresses below `n` can be read there. -/
theorem Memory.readRange?_of_keys (m : Memory) (n : Nat) (h : m.map Prod.fst = List.range n) :
    ∃ bytes, m.readRange? 0 n = some bytes := by
  have key : ∀ k a, a + k ≤ n → ∃ bytes, m.readRange? a k = some bytes := by
    intro k
    induction k with
    | zero => intro a _; exact ⟨[], rfl⟩
    | succ k ih =>
      intro a hak
      have hs : (m.read? a).isSome = true := by
        rw [Memory.read?_isSome, h]; simp; omega
      obtain ⟨b, hb⟩ := Option.isSome_iff_exists.1 hs
      obtain ⟨rest, hrest⟩ := ih (a + 1) (by omega)
      exact ⟨b :: rest, by simp [Memory.readRange?, hb, hrest]⟩
  exact key n 0 (by omega)

/-- Reading back a buffer after an append: what was there, then the appended bytes. -/
theorem Memory.readRange?_write (m : Memory) (n : Nat) (burst bytes : List Byte)
    (h : m.readRange? 0 n = some burst) :
    (m.write n bytes).readRange? 0 (n + bytes.length) = some (burst ++ bytes) := by
  obtain ⟨hl, hk⟩ := (Memory.readRange?_eq_some ..).1 h
  rw [Memory.readRange?_eq_some]
  refine ⟨by simp [hl], ?_⟩
  intro k hkn
  rw [Memory.read?_write]
  by_cases hlt : k < n
  · have h1 : ¬ n ≤ 0 + k := by omega
    simp only [h1, false_and, ite_false, hk k hlt]
    rw [List.getElem?_append_left (by omega)]
  · have h1 : n ≤ 0 + k := by omega
    have h2 : 0 + k < n + bytes.length := by omega
    simp only [h1, h2, and_self, ite_true]
    rw [List.getElem?_append_right (by omega), hl, Nat.zero_add]

end Sys2Proof.Machine
end

