-- ==== Sys2Proof/Laws/Ports.lean ====
section
/-! SUPPORT. What the shared operations on the ports can do, said once each: a call of the sink, the burst of a flush, the
emission of a record, and the primitives FLUSH and DISCARD. -/

namespace Sys2Proof.Machine

/-- A call of the sink stops exactly when the sink never answers it. -/
theorem sinkCall_silent {c : Nat} {items : List SinkItem} {l : Lane} (h : l.nextReply c = none) :
    sinkCall c items l = .error (.sinkSilent c) := by
  simp [sinkCall, h]

theorem sinkCall_ok {c : Nat} {items : List SinkItem} {l : Lane} (h : l.nextReply c = some .ok) :
    sinkCall c items l = .ok (true, l.sinkGot items) := by
  simp [sinkCall, h]

theorem sinkCall_err {c : Nat} {items reached : List SinkItem} {l : Lane}
    (h : l.nextReply c = some (.err reached)) : sinkCall c items l = .ok (false, l.sinkGot reached) := by
  simp [sinkCall, h]

/-- Everything a call of the sink can do. -/
theorem sinkCall_cases (c : Nat) (items : List SinkItem) (l : Lane) :
    (l.nextReply c = none ∧ sinkCall c items l = .error (.sinkSilent c)) ∨
    (l.nextReply c = some .ok ∧ sinkCall c items l = .ok (true, l.sinkGot items)) ∨
    (∃ reached, l.nextReply c = some (.err reached) ∧ sinkCall c items l = .ok (false, l.sinkGot reached)) := by
  rcases h : l.nextReply c with _ | _ | reached
  · exact .inl ⟨rfl, sinkCall_silent h⟩
  · exact .inr (.inl ⟨rfl, sinkCall_ok h⟩)
  · exact .inr (.inr ⟨reached, rfl, sinkCall_err h⟩)

/-- An answered call adds what reached the sink, and nothing else of the lane but the answer's place changes. -/
theorem sinkCall_eq_ok {c : Nat} {items : List SinkItem} {l l' : Lane} {ok : Bool}
    (h : sinkCall c items l = .ok (ok, l')) : ∃ got, l' = l.sinkGot got ∧ (ok = true → got = items) := by
  rcases sinkCall_cases c items l with ⟨-, h'⟩ | ⟨-, h'⟩ | ⟨reached, -, h'⟩ <;> rw [h'] at h <;> cases h
  · exact ⟨items, rfl, fun _ => rfl⟩
  · exact ⟨reached, rfl, fun h => by cases h⟩

theorem sinkCall_eq_error {c : Nat} {items : List SinkItem} {l : Lane} {f : Fault}
    (h : sinkCall c items l = .error f) : f = .sinkSilent c ∧ l.nextReply c = none := by
  rcases sinkCall_cases c items l with ⟨hn, h'⟩ | ⟨-, h'⟩ | ⟨reached, -, h'⟩ <;> rw [h'] at h <;> cases h
  exact ⟨rfl, hn⟩

/-- A sink that answers every call it lists answers this one. -/
theorem Lane.nextReply_isSome {c : Nat} {l : Lane} (h : l.SinkAnswers) : (l.nextReply c).isSome = true := by
  unfold Lane.nextReply
  split
  · rename_i r rest hr; exact h r (by simp [hr])
  · rfl

theorem Lane.sinkAnswers_sinkGot {l : Lane} (h : l.SinkAnswers) (got : List SinkItem) :
    (l.sinkGot got).SinkAnswers := fun r hr => h r (List.mem_of_mem_tail hr)

/-- The lane after a record was taken (R56, R298). -/
def Lane.recorded (ev : EventRec) (l : Lane) : Lane :=
  { l with events := l.events ++ [ev], eventRoom := l.eventRoom.map (· - 1) }

@[simp] theorem Lane.recorded_ch (ev : EventRec) (l : Lane) : (l.recorded ev).ch = l.ch := rfl
@[simp] theorem Lane.recorded_sink (ev : EventRec) (l : Lane) : (l.recorded ev).sink = l.sink := rfl
@[simp] theorem Lane.recorded_events (ev : EventRec) (l : Lane) : (l.recorded ev).events = l.events ++ [ev] := rfl
@[simp] theorem Lane.recorded_replies (ev : EventRec) (l : Lane) : (l.recorded ev).replies = l.replies := rfl
@[simp] theorem Lane.recorded_calls (ev : EventRec) (l : Lane) : (l.recorded ev).calls = l.calls := rfl
@[simp] theorem Lane.recorded_eventRoom (ev : EventRec) (l : Lane) :
    (l.recorded ev).eventRoom = l.eventRoom.map (· - 1) := rfl

/-- Emitting a record: it is appended if the consumer takes it. -/
theorem eventEmit_taken {c : Nat} {ev : EventRec} {l : Lane} (h : l.EventTaken) :
    eventEmit c ev l = .ok (l.recorded ev) := by
  unfold eventEmit Lane.recorded
  split
  · rename_i h0; simp [h0]
  · rename_i h0; exact absurd h0 h
  · rename_i n h0; simp [h0]

theorem eventEmit_eq_ok {c : Nat} {ev : EventRec} {l l' : Lane} (h : eventEmit c ev l = .ok l') :
    l.EventTaken ∧ l' = l.recorded ev := by
  by_cases ht : l.EventTaken
  · rw [eventEmit_taken ht] at h; cases h; exact ⟨ht, rfl⟩
  · have h0 : l.eventRoom = some 0 := by simpa [Lane.EventTaken] using ht
    simp [eventEmit, h0] at h

theorem eventEmit_eq_error {c : Nat} {ev : EventRec} {l : Lane} {f : Fault} (h : eventEmit c ev l = .error f) :
    f = .eventSilent c ∧ ¬ l.EventTaken := by
  by_cases ht : l.EventTaken
  · rw [eventEmit_taken ht] at h; cases h
  · have h0 : l.eventRoom = some 0 := by simpa [Lane.EventTaken] using ht
    simp only [eventEmit, h0] at h
    cases h; exact ⟨rfl, ht⟩

/-- The burst of a flush, the bytes below WOFF being there. -/
theorem emitAcc_of_read {c : Nat} {l : Lane} {burst : List Byte}
    (h : l.ch.acc.readRange? 0 l.ch.woff.toNat = some burst) :
    emitAcc c l = sinkCall c [.bytes burst, .endOfPes] l := by
  simp [emitAcc, h, sinkEmit]

theorem emitAcc_eq_ok {c : Nat} {l l' : Lane} {ok : Bool} (h : emitAcc c l = .ok (ok, l')) :
    ∃ burst got, l.ch.acc.readRange? 0 l.ch.woff.toNat = some burst ∧ l' = l.sinkGot got ∧
      (ok = true → got = [.bytes burst, .endOfPes]) := by
  unfold emitAcc at h
  split at h
  · cases h
  · rename_i burst hb
    obtain ⟨got, hl, hok⟩ := sinkCall_eq_ok h
    exact ⟨burst, got, hb, hl, hok⟩

theorem emitAcc_eq_error {c : Nat} {l : Lane} {f : Fault} (h : emitAcc c l = .error f) :
    (f = .accUnwritten c ∧ l.ch.acc.readRange? 0 l.ch.woff.toNat = none) ∨
    (f = .sinkSilent c ∧ l.nextReply c = none) := by
  unfold emitAcc at h
  split at h
  · rename_i hb; cases h; exact .inl ⟨rfl, hb⟩
  · exact .inr (sinkCall_eq_error h)

/-- Everything FLUSH can do when it ends: the channel is Idle, F_FLUSH is set, and the sink has got something. -/
theorem Work.flush_eq_ok {c : Nat} {w w' : Work} {ok : Bool} (h : w.flush c = .ok (ok, w')) :
    ∃ burst got, w.lane.ch.acc.readRange? 0 w.lane.ch.woff.toNat = some burst ∧
      (ok = true → got = [.bytes burst, .endOfPes]) ∧
      w' = { w with fl := setFlag w.fl .flush, lane := (w.lane.sinkGot got).withCh w.lane.ch.toIdle } := by
  unfold Work.flush at h
  split at h
  · cases h
  · rename_i ok' l he
    cases h
    obtain ⟨burst, got, hb, rfl, hok⟩ := emitAcc_eq_ok he
    exact ⟨burst, got, hb, hok, rfl⟩

theorem Work.flush_eq_error {c : Nat} {w : Work} {f : Fault} (h : w.flush c = .error f) :
    (f = .accUnwritten c ∧ w.lane.ch.acc.readRange? 0 w.lane.ch.woff.toNat = none) ∨
    (f = .sinkSilent c ∧ w.lane.nextReply c = none) := by
  unfold Work.flush at h
  split at h
  · rename_i f' he; cases h; exact emitAcc_eq_error he
  · cases h

/-- FLUSH with the bytes there and the sink answering `ok`. -/
theorem Work.flush_ok {c : Nat} {w : Work} {burst : List Byte}
    (hb : w.lane.ch.acc.readRange? 0 w.lane.ch.woff.toNat = some burst) (hr : w.lane.nextReply c = some .ok) :
    w.flush c = .ok (true, { w with
      fl := setFlag w.fl .flush
      lane := (w.lane.sinkGot [.bytes burst, .endOfPes]).withCh w.lane.ch.toIdle }) := by
  simp [Work.flush, emitAcc_of_read hb, sinkCall_ok hr]

/-- FLUSH with the bytes there and the sink answering `err`. -/
theorem Work.flush_err {c : Nat} {w : Work} {burst : List Byte} {reached : List SinkItem}
    (hb : w.lane.ch.acc.readRange? 0 w.lane.ch.woff.toNat = some burst)
    (hr : w.lane.nextReply c = some (.err reached)) :
    w.flush c = .ok (false, { w with
      fl := setFlag w.fl .flush
      lane := (w.lane.sinkGot reached).withCh w.lane.ch.toIdle }) := by
  simp [Work.flush, emitAcc_of_read hb, sinkCall_err hr]

end Sys2Proof.Machine
end

