-- ==== Sys2Proof/Laws/Assembler.lean ====
section
/-! SUPPORT. What the steps of ABSORB_CH can do, said once each: what they leave alone (`Work.Extends`), that they keep the
invariant of a channel, and which faults they can raise. -/

namespace Sys2Proof

open Machine

theorem Packet.slice_length (p : Packet) (i : Nat) : (p.slice i 188).length = 188 - i := by
  simp [Packet.slice, p.property]

end Sys2Proof

namespace Sys2Proof.Machine

/-! ## Parsers -/

/-- A payload fills the packet from its offset to the end. -/
theorem geometry_payload (h : Header) (a : Option Adaptation) :
    (geometry h a).plen = 0 ∨ ((geometry h a).plen = 188 - (geometry h a).off ∧ (geometry h a).off ≤ 188) := by
  cases a with
  | none => by_cases hp : h.hasPayload <;> simp [geometry, lengthError, payloadOffset, hp]
  | some field =>
    by_cases he : 183 < field.length.toNat
    · simp [geometry, lengthError, he]
    · by_cases hp : h.hasPayload
      · right; simp [geometry, lengthError, payloadOffset, Adaptation.total, he, hp]; omega
      · simp [geometry, lengthError, hp]

/-- Fewer than six payload bytes: nothing is decoded (R145). -/
theorem pesDecode_short {p : Packet} {off plen : Nat} (h : plen < 6) : pesDecode p off plen =
    { decoded := false, trunc := true, startCode := 0, sid := 0, len := 0, hdl := 0, hs := 0 } := by
  simp [pesDecode, h]

/-- An excluded stream-id: header size 6 (R143, R146). -/
theorem pesDecode_excl {p : Packet} {off plen : Nat} (h : 6 ≤ plen) (hx : isExtended (p.byte (off + 3)) = false) :
    pesDecode p off plen =
    { decoded := true, trunc := false, startCode := p.byte off ++ p.byte (off + 1) ++ p.byte (off + 2)
      sid := p.byte (off + 3), len := p.byte (off + 4) ++ p.byte (off + 5), hdl := 0, hs := 6 } := by
  have : ¬ plen < 6 := by omega
  simp [pesDecode, this, hx]

/-- An extended stream-id whose HDL is not in the packet (R145). -/
theorem pesDecode_noHdl {p : Packet} {off plen : Nat} (h : 6 ≤ plen) (h9 : plen < 9)
    (hx : isExtended (p.byte (off + 3)) = true) : pesDecode p off plen =
    { decoded := true, trunc := true, startCode := p.byte off ++ p.byte (off + 1) ++ p.byte (off + 2)
      sid := p.byte (off + 3), len := p.byte (off + 4) ++ p.byte (off + 5), hdl := 0, hs := 0 } := by
  have : ¬ plen < 6 := by omega
  simp [pesDecode, this, h9, hx]

/-- An extended stream-id with its HDL: header size 9 + HDL (R144, R146). -/
theorem pesDecode_extended {p : Packet} {off plen : Nat} (h9 : 9 ≤ plen) (hx : isExtended (p.byte (off + 3)) = true) :
    pesDecode p off plen =
    { decoded := true, trunc := decide (plen < 9 + (p.byte (off + 8)).toNat)
      startCode := p.byte off ++ p.byte (off + 1) ++ p.byte (off + 2)
      sid := p.byte (off + 3), len := p.byte (off + 4) ++ p.byte (off + 5)
      hdl := p.byte (off + 8), hs := 9 + (p.byte (off + 8)).toNat } := by
  have h6 : ¬ plen < 6 := by omega
  have : ¬ plen < 9 := by omega
  simp [pesDecode, h6, this, hx]

/-- A header that is not truncated was decoded, has at least six bytes, and lies in the payload region (R145, R146). -/
theorem pesDecode_complete {p : Packet} {off plen : Nat} (h : (pesDecode p off plen).trunc = false) :
    (pesDecode p off plen).decoded = true ∧ 6 ≤ (pesDecode p off plen).hs ∧ (pesDecode p off plen).hs ≤ plen := by
  by_cases h6 : plen < 6
  · simp [pesDecode_short h6] at h
  · cases hx : isExtended (p.byte (off + 3))
    · simp [pesDecode_excl (Nat.not_lt.1 h6) hx]; omega
    · by_cases h9 : plen < 9
      · simp [pesDecode_noHdl (Nat.not_lt.1 h6) h9 hx] at h
      · rw [pesDecode_extended (Nat.not_lt.1 h9) hx] at h ⊢
        simp only [decide_eq_false_iff_not] at h
        exact ⟨rfl, by simp; omega, Nat.not_lt.1 h⟩

/-- PES_CHECK on a header that is not truncated and whose declared length covers it. -/
theorem pesCheck_sound {d : PesDecode} {policy : MalformedPolicy} (ht : d.trunc = false)
    (hl : d.len ≠ 0 → d.hs ≤ d.len.toNat + 6) : pesCheck d policy =
    { accept := d.startCodeOk || policy == .propagate
      fl := setFlagIf (d.decoded && !d.startCodeOk) 0 .badStartCode } := by
  have hlen : (d.bounded && decide (d.len.toNat + 6 < d.hs)) = false := by
    by_cases h0 : d.len = 0
    · simp [PesDecode.bounded, h0]
    · have := hl h0; simp [PesDecode.bounded]; intro; omega
  simp only [pesCheck, ht, hlen, Bool.false_eq_true, ite_false]
  cases d.startCodeOk <;> cases policy <;> rfl

/-- PES_CHECK accepts exactly the headers R150 names. -/
theorem pesCheck_accept (d : PesDecode) (policy : MalformedPolicy) :
    (pesCheck d policy).accept = true ↔ d.Accepted policy := by
  by_cases ht : d.trunc = true
  · simp [pesCheck, PesDecode.Accepted, ht]
  · replace ht : d.trunc = false := by simpa using ht
    by_cases hl : d.len ≠ 0 → d.hs ≤ d.len.toNat + 6
    · rw [pesCheck_sound ht hl]
      simp only [PesDecode.Accepted, ht, PesDecode.startCodeOk, Bool.or_eq_true, beq_iff_eq, true_and]
      exact ⟨fun h => ⟨hl, h⟩, fun h => h.2⟩
    · have hn : ¬ d.Accepted policy := fun h => hl h.2.1
      have h0 : ¬ d.len = 0#16 := fun h => hl fun h' => absurd h h'
      have hs : d.len.toNat + 6 < d.hs := by
        rcases Nat.lt_or_ge (d.len.toNat + 6) d.hs with h | h
        · exact h
        · exact absurd (fun _ => h) hl
      simp only [hn, iff_false]
      simp [pesCheck, ht, PesDecode.bounded, h0, hs]

/-- The flags of an accepted header. -/
theorem pesCheck_acceptFlags {d : PesDecode} {policy : MalformedPolicy} (h : d.Accepted policy)
    (hd : d.decoded = true) : (pesCheck d policy).fl = flagVec d.acceptFlags := by
  rw [pesCheck_sound h.1 h.2.1]
  by_cases hc : d.startCode = 1
  · have : d.startCodeOk = true := by simp [PesDecode.startCodeOk, hc]
    rw [PesDecode.acceptFlags, if_pos hc]
    simp [this, flagVec, setFlagIf]
  · have : d.startCodeOk = false := by simpa [PesDecode.startCodeOk] using hc
    rw [PesDecode.acceptFlags, if_neg hc]
    simp [this, hd, flagVec, setFlagIf]

/-! ## The continuity check -/

/-- The check of the algorithm is the arithmetic of R176. -/
theorem Channel.ccLost_eq_false (cc : BitVec 4) (ch : Channel) : ch.ccLost cc = false ↔ ch.InSequence cc := by
  have key : ∀ a b : BitVec 4, (a - b != 1) = false ↔ ((a.toNat : Int) - (b.toNat : Int)) % 16 = 1 := by decide
  unfold Channel.ccLost Channel.InSequence
  cases hv : ch.ccValid
  · simp
  · simp only [Bool.true_and, forall_const]; exact key cc ch.lastCc

theorem Channel.ccLost_eq_true (cc : BitVec 4) (ch : Channel) : ch.ccLost cc = true ↔ ¬ ch.InSequence cc := by
  rw [← Channel.ccLost_eq_false]; simp

/-! ## What a packet leaves alone -/

/-- From `w` to `w'` the configuration of the channel is unchanged, its sink stream has only grown, nothing was emitted, the
event consumer is as it was, and a sink that answers still does. -/
structure Work.Extends (w w' : Work) : Prop where
  targetPid : w'.lane.ch.targetPid = w.lane.ch.targetPid
  en : w'.lane.ch.en = w.lane.ch.en
  malformedPolicy : w'.lane.ch.malformedPolicy = w.lane.ch.malformedPolicy
  shutdownPolicy : w'.lane.ch.shutdownPolicy = w.lane.ch.shutdownPolicy
  sink : w.lane.sink <+: w'.lane.sink
  events : w'.lane.events = w.lane.events
  eventRoom : w'.lane.eventRoom = w.lane.eventRoom
  answers : w.lane.SinkAnswers → w'.lane.SinkAnswers

theorem Work.Extends.refl (w : Work) : w.Extends w := ⟨rfl, rfl, rfl, rfl, List.prefix_refl _, rfl, rfl, id⟩

theorem Work.Extends.trans {w w' w'' : Work} (h : w.Extends w') (h' : w'.Extends w'') : w.Extends w'' :=
  ⟨h'.1.trans h.1, h'.2.trans h.2, h'.3.trans h.3, h'.4.trans h.4, h.5.trans h'.5, h'.6.trans h.6, h'.7.trans h.7,
    h'.8 ∘ h.8⟩

/-- A change of the assembly fields alone. -/
theorem Work.Extends.of_lane {w w' : Work} (ha : w'.lane.replies = w.lane.replies) (hs : w'.lane.sink = w.lane.sink) (he : w'.lane.events = w.lane.events)
    (hr : w'.lane.eventRoom = w.lane.eventRoom) (h1 : w'.lane.ch.targetPid = w.lane.ch.targetPid)
    (h2 : w'.lane.ch.en = w.lane.ch.en) (h3 : w'.lane.ch.malformedPolicy = w.lane.ch.malformedPolicy)
    (h4 : w'.lane.ch.shutdownPolicy = w.lane.ch.shutdownPolicy) : w.Extends w' :=
  ⟨h1, h2, h3, h4, hs ▸ List.prefix_refl _, he, hr, by unfold Lane.SinkAnswers; rw [ha]; exact id⟩

theorem Work.extends_flag (k : Flag) (w : Work) : w.Extends (w.flag k) := .of_lane rfl rfl rfl rfl rfl rfl rfl rfl

theorem Work.extends_discard (w : Work) : w.Extends w.discard := .of_lane rfl rfl rfl rfl rfl rfl rfl rfl

theorem Work.extends_sinkFail (w : Work) : w.Extends w.sinkFail := .of_lane rfl rfl rfl rfl rfl rfl rfl rfl

theorem Work.extends_trackCc (cc : BitVec 4) (w : Work) : w.Extends (w.withCh (w.lane.ch.trackCc cc)) :=
  .of_lane rfl rfl rfl rfl rfl rfl rfl rfl

theorem Work.extends_flush {c : Nat} {w w' : Work} {ok : Bool} (h : w.flush c = .ok (ok, w')) : w.Extends w' := by
  obtain ⟨burst, got, -, -, rfl⟩ := Work.flush_eq_ok h
  exact ⟨rfl, rfl, rfl, rfl, by simp, rfl, rfl, fun h => Lane.sinkAnswers_sinkGot h got⟩

theorem Work.extends_flushAs {c : Nat} {r r' : Result} {w w' : Work} (h : w.flushAs c r = .ok (r', w')) :
    w.Extends w' := by
  unfold Work.flushAs at h
  split at h
  · cases h
  · rename_i w1 hf; cases h; exact Work.extends_flush hf
  · rename_i w1 hf; cases h; exact (Work.extends_flush hf).trans (Work.extends_sinkFail _)

theorem Channel.accWrite_eq_ok {cap : Word} {c a : Nat} {bytes : List Byte} {ch ch' : Channel}
    (h : ch.accWrite cap c a bytes = .ok ch') :
    a + bytes.length ≤ cap.toNat ∧ ch' = { ch with acc := ch.acc.write a bytes } := by
  unfold Channel.accWrite at h
  split at h
  · cases h; exact ⟨‹_›, rfl⟩
  · cases h

theorem settlePrevious_extends {c : Nat} {w w' : Work} {ok : Bool} (h : settlePrevious c w = .ok (ok, w')) :
    w.Extends w' := by
  unfold settlePrevious at h
  split at h
  · split at h
    · cases h; exact (Work.extends_flag _ _).trans (Work.extends_discard _)
    · exact Work.extends_flush h
  · cases h; exact .refl _

theorem beginPes_extends {cap : Word} {c : Nat} {p : Packet} {g : Geometry} {lost : Bool} {w w' : Work} {r : Result}
    (h : beginPes cap c p g lost w = .ok (r, w')) : w.Extends w' := by
  unfold beginPes at h
  dsimp only at h
  split at h
  · split at h
    · cases h; exact .of_lane rfl rfl rfl rfl rfl rfl rfl rfl
    · split at h
      · cases h
      · rename_i ch hw
        obtain ⟨-, rfl⟩ := Channel.accWrite_eq_ok hw
        split at h
        · refine Work.Extends.trans ?_ (Work.extends_flushAs h)
          exact .of_lane rfl rfl rfl rfl rfl rfl rfl rfl
        · cases h; exact .of_lane rfl rfl rfl rfl rfl rfl rfl rfl
  · cases h; exact .of_lane rfl rfl rfl rfl rfl rfl rfl rfl

theorem startPes_extends {cap : Word} {c : Nat} {p : Packet} {g : Geometry} {lost : Bool} {w w' : Work} {r : Result}
    (h : startPes cap c p g lost w = .ok (r, w')) : w.Extends w' := by
  unfold startPes at h
  split at h
  · cases h
  · rename_i w1 hs; exact (settlePrevious_extends hs).trans (beginPes_extends h)
  · rename_i w1 hs; cases h; exact (settlePrevious_extends hs).trans (Work.extends_sinkFail _)

@[simp] theorem Work.reportStored_lane (t : PesTriple) (r : Result) (w : Work) : (w.reportStored t r).lane = w.lane := by
  unfold Work.reportStored; split <;> rfl

@[simp] theorem Work.reportStored_fl (t : PesTriple) (r : Result) (w : Work) : (w.reportStored t r).fl = w.fl := by
  unfold Work.reportStored; split <;> rfl

@[simp] theorem Work.reportStored_pes (t : PesTriple) (r : Result) (w : Work) :
    (w.reportStored t r).pes = if r = .assemblingFinished then some t else w.pes := by
  unfold Work.reportStored; split <;> rfl

theorem Work.extends_reportStored (t : PesTriple) (r : Result) (w : Work) : w.Extends (w.reportStored t r) := by
  refine .of_lane ?_ ?_ ?_ ?_ ?_ ?_ ?_ ?_ <;> rw [Work.reportStored_lane]

theorem continuePes_extends {cap : Word} {c : Nat} {p : Packet} {g : Geometry} {w w' : Work} {r : Result}
    (h : continuePes cap c p g w = .ok (r, w')) : w.Extends w' := by
  unfold continuePes at h
  dsimp only at h
  split at h
  · cases h; exact Work.extends_flag _ _
  · split at h
    · cases h; exact (Work.extends_flag _ _).trans (Work.extends_discard _)
    · split at h
      · cases h
      · rename_i ch hw
        obtain ⟨-, rfl⟩ := Channel.accWrite_eq_ok hw
        split at h
        · split at h
          · cases h
          · rename_i hf
            cases h
            refine Work.Extends.trans ?_ (Work.Extends.trans (Work.extends_flushAs hf) (Work.extends_reportStored _ _ _))
            exact .of_lane rfl rfl rfl rfl rfl rfl rfl rfl
        · cases h; exact .of_lane rfl rfl rfl rfl rfl rfl rfl rfl

/-- The record of a packet in sequence, once the counter is taken. -/
def Work.tracked (cc : BitVec 4) (lost : Bool) (w : Work) : Work :=
  let w := { w with fl := setFlagIf lost w.fl .disc }
  let w := w.withCh (w.lane.ch.trackCc cc)
  if lost then w.discard else w

theorem Work.extends_tracked (cc : BitVec 4) (lost : Bool) (w : Work) : w.Extends (w.tracked cc lost) := by
  cases lost <;> exact .of_lane rfl rfl rfl rfl rfl rfl rfl rfl

/-- The packet's path after the counter (R172), in one equation. -/
theorem processPacket_eq (cap : Word) (c : Nat) (p : Packet) (h : Header) (g : Geometry) (w : Work) :
    processPacket cap c p h g w =
      if g.err then
        .ok (.streamPacketLost, ((w.flag .geom).discard).withCh ((w.flag .geom).discard.lane.ch.trackCc h.cc))
      else if w.lane.ch.ccLost h.cc && !(h.pusi && decide (0 < g.plen)) then
        .ok (.streamPacketLost, w.tracked h.cc (w.lane.ch.ccLost h.cc))
      else if g.plen = 0 then
        .ok (.assemblingContinue, (w.tracked h.cc (w.lane.ch.ccLost h.cc)).flag .noPayload)
      else if h.pusi && decide (0 < g.plen) then
        startPes cap c p g (w.lane.ch.ccLost h.cc) (w.tracked h.cc (w.lane.ch.ccLost h.cc))
      else continuePes cap c p g (w.tracked h.cc (w.lane.ch.ccLost h.cc)) := rfl

theorem processPacket_extends {cap : Word} {c : Nat} {p : Packet} {h : Header} {g : Geometry} {w w' : Work}
    {r : Result} (he : processPacket cap c p h g w = .ok (r, w')) : w.Extends w' := by
  rw [processPacket_eq] at he
  split at he
  · cases he; exact .of_lane rfl rfl rfl rfl rfl rfl rfl rfl
  · split at he
    · cases he; exact Work.extends_tracked _ _ _
    · split at he
      · cases he; exact (Work.extends_tracked _ _ _).trans (Work.extends_flag _ _)
      · split at he
        · exact (Work.extends_tracked _ _ _).trans (startPes_extends he)
        · exact (Work.extends_tracked _ _ _).trans (continuePes_extends he)

/-- What one channel's part of an ABSORB leaves alone, when it ends: the configuration is unchanged, the sink stream has only
grown, and exactly one record was emitted. -/
theorem absorbLane_frame {cap idx : Word} {p : Packet} {c : Nat} {l l' : Lane}
    (h : absorbLane cap idx p c l = .ok l') :
    l'.ch.targetPid = l.ch.targetPid ∧ l'.ch.en = l.ch.en ∧ l'.ch.malformedPolicy = l.ch.malformedPolicy ∧
    l'.ch.shutdownPolicy = l.ch.shutdownPolicy ∧ l.sink <+: l'.sink ∧ (∃ ev, l'.events = l.events ++ [ev]) ∧
    l.EventTaken ∧ (l.ch.fatal = true → l'.ch = l.ch ∧ l'.sink = l.sink) := by
  unfold absorbLane at h
  dsimp only at h
  split at h
  · cases h
  · rename_i l1 ev ha
    obtain ⟨htaken, rfl⟩ := eventEmit_eq_ok h
    unfold absorbChannel at ha
    split at ha
    · cases ha; exact ⟨rfl, rfl, rfl, rfl, List.prefix_refl _, ⟨_, rfl⟩, htaken, fun _ => ⟨rfl, rfl⟩⟩
    · split at ha
      · cases ha; exact ⟨rfl, rfl, rfl, rfl, List.prefix_refl _, ⟨_, rfl⟩, htaken, fun _ => ⟨rfl, rfl⟩⟩
      · rename_i hnf
        split at ha
        · cases ha
        · rename_i r w hp
          cases ha
          have hx := processPacket_extends hp
          refine ⟨hx.1, hx.2, hx.3, hx.4, hx.5, ⟨mkEvent c idx (hdrDecode p) (afDecode p (hdrDecode p)) r w.fl w.pes, ?_⟩, ?_, fun hf => absurd hf hnf⟩
          · simpa using hx.6
          · have := hx.7; simp only [Lane.EventTaken, Work.finish_eventRoom] at htaken ⊢; rwa [this] at htaken

/-! ## The invariant -/

theorem Channel.inv_toIdle {cap : Word} (ch : Channel) : ch.toIdle.Inv cap := by
  simp [Channel.Inv]

/-- The invariant reads neither the counter, nor the last result and flags, nor the last PES header. -/
theorem Channel.inv_congr {cap : Word} {ch ch' : Channel} (h : ch.Inv cap) (h1 : ch'.acc = ch.acc)
    (h2 : ch'.woff = ch.woff) (h3 : ch'.expected = ch.expected) (h4 : ch'.state = ch.state)
    (h5 : ch'.bounded = ch.bounded) (h6 : ch'.fatal = true → ch'.state = .idle) : ch'.Inv cap := by
  obtain ⟨a, b, d, e, f, g, -⟩ := h
  refine ⟨?_, ?_, ?_, ?_, ?_, ?_, h6⟩ <;> simpa only [h1, h2, h3, h4, h5]

theorem Channel.inv_trackCc {cap : Word} {ch : Channel} (cc : BitVec 4) (h : ch.Inv cap) : (ch.trackCc cc).Inv cap :=
  Channel.inv_congr h rfl rfl rfl rfl rfl h.2.2.2.2.2.2

theorem Work.flush_ch {c : Nat} {w w' : Work} {ok : Bool} (h : w.flush c = .ok (ok, w')) :
    w'.lane.ch = w.lane.ch.toIdle := by
  obtain ⟨burst, got, -, -, rfl⟩ := Work.flush_eq_ok h; rfl

theorem Work.inv_flushAs {cap : Word} {c : Nat} {r r' : Result} {w w' : Work} (h : w.flushAs c r = .ok (r', w')) :
    w'.lane.ch.Inv cap := by
  unfold Work.flushAs at h
  split at h
  · cases h
  · rename_i w1 hf; cases h; rw [Work.flush_ch hf]; exact Channel.inv_toIdle _
  · rename_i w1 hf; cases h; exact Channel.inv_congr (Channel.inv_toIdle w1.lane.ch) rfl rfl rfl rfl rfl fun _ => rfl

theorem settlePrevious_inv {cap : Word} {c : Nat} {w w' : Work} {ok : Bool} (hi : w.lane.ch.Inv cap)
    (h : settlePrevious c w = .ok (ok, w')) :
    w'.lane.ch.Inv cap ∧ w'.lane.ch.state = .idle ∧ w'.lane.ch.fatal = w.lane.ch.fatal := by
  unfold settlePrevious at h
  split at h
  · split at h
    · cases h; exact ⟨Channel.inv_toIdle _, rfl, rfl⟩
    · rw [Work.flush_ch h]; exact ⟨Channel.inv_toIdle _, rfl, rfl⟩
  · rename_i hs
    cases h
    refine ⟨hi, ?_, rfl⟩
    cases hst : w.lane.ch.state
    · rfl
    · exact absurd hst hs

/-- The elementary bytes of an accepted start packet. -/
theorem elementary_length {p : Packet} {g : Geometry} (hg : g.plen = 188 - g.off) (hs : Nat) :
    (p.slice (g.off + hs) 188).length = g.plen - hs := by
  rw [Packet.slice_length]; omega

theorem beginPes_inv {cap : Word} {c : Nat} {p : Packet} {g : Geometry} {lost : Bool} {w w' : Work} {r : Result}
    (hi : w.lane.ch.Inv cap) (hidle : w.lane.ch.state = .idle) (hf : w.lane.ch.fatal = false)
    (hg : g.plen = 188 - g.off) (h : beginPes cap c p g lost w = .ok (r, w')) : w'.lane.ch.Inv cap := by
  unfold beginPes at h
  dsimp only at h
  split at h
  · rename_i hacc
    have hA := (pesCheck_accept _ _).1 hacc
    obtain ⟨hdec, hs6, hspl⟩ := pesDecode_complete hA.1
    split at h
    · cases h; exact Channel.inv_congr hi rfl rfl rfl rfl rfl hi.2.2.2.2.2.2
    · rename_i hroom
      split at h
      · cases h
      · rename_i ch hw
        obtain ⟨hcap, rfl⟩ := Channel.accWrite_eq_ok hw
        split at h
        · exact Work.inv_flushAs h
        · rename_i hnc
          cases h
          have hlen := elementary_length (p := p) hg (pesDecode p g.off g.plen).hs
          have hw0 := (hi.2.2.2.1 hidle).1
          have hk := hi.1
          simp only [hw0] at hk
          have hexp : (pesDecode p g.off g.plen).expected ≤ 65535 := by
            unfold PesDecode.expected; split <;> omega
          have hcapLt : cap.toNat < 2 ^ 32 := cap.isLt
          have hn : (BitVec.ofNat 32 (p.slice (g.off + (pesDecode p g.off g.plen).hs) 188).length).toNat =
              g.plen - (pesDecode p g.off g.plen).hs := by
            rw [BitVec.toNat_ofNat, hlen]; omega
          have he : (BitVec.ofNat 32 (pesDecode p g.off g.plen).expected).toNat =
              (pesDecode p g.off g.plen).expected := by
            rw [BitVec.toNat_ofNat]; omega
          refine ⟨?_, ?_, ?_, ?_, ?_, ?_, ?_⟩
          · have := Memory.write_keys w.lane.ch.acc 0 (p.slice (g.off + (pesDecode p g.off g.plen).hs) 188)
              (by simpa using hk)
            simp only [Work.flag_lane, Work.withCh_lane, Lane.withCh_ch, Channel.openPes, hn]
            simpa [hlen] using this
          · simp only [Work.flag_lane, Work.withCh_lane, Lane.withCh_ch, Channel.openPes, hn]; omega
          · simp only [Work.flag_lane, Work.withCh_lane, Lane.withCh_ch, Channel.openPes, he]; omega
          · simp [Channel.openPes]
          · intro _ hb
            simp only [Work.flag_lane, Work.withCh_lane, Lane.withCh_ch, Channel.openPes] at hb
            simp only [Work.flag_lane, Work.withCh_lane, Lane.withCh_ch, Channel.openPes, he, hn]
            simp only [PesDecode.room, hb, ite_true, Bool.true_and, beq_iff_eq] at hroom hnc
            omega
          · intro _ hb
            simp only [Work.flag_lane, Work.withCh_lane, Lane.withCh_ch, Channel.openPes] at hb
            simp [Channel.openPes, PesDecode.expected, hb]
          · intro h; simp [Channel.openPes, hf] at h
  · cases h; exact Channel.inv_congr hi rfl rfl rfl rfl rfl hi.2.2.2.2.2.2

theorem startPes_inv {cap : Word} {c : Nat} {p : Packet} {g : Geometry} {lost : Bool} {w w' : Work} {r : Result}
    (hi : w.lane.ch.Inv cap) (hf : w.lane.ch.fatal = false) (hg : g.plen = 188 - g.off)
    (h : startPes cap c p g lost w = .ok (r, w')) : w'.lane.ch.Inv cap := by
  unfold startPes at h
  split at h
  · cases h
  · rename_i w1 hs
    obtain ⟨h1, h2, h3⟩ := settlePrevious_inv hi hs
    exact beginPes_inv h1 h2 (h3.trans hf) hg h
  · rename_i w1 hs
    cases h
    exact Channel.inv_congr (Channel.inv_toIdle w1.lane.ch) rfl rfl rfl rfl rfl fun _ => rfl

theorem continuePes_inv {cap : Word} {c : Nat} {p : Packet} {g : Geometry} {w w' : Work} {r : Result}
    (hi : w.lane.ch.Inv cap) (hg : g.plen = 188 - g.off)
    (h : continuePes cap c p g w = .ok (r, w')) : w'.lane.ch.Inv cap := by
  unfold continuePes at h
  dsimp only at h
  split at h
  · cases h; exact hi
  · rename_i hst
    split at h
    · cases h; exact Channel.inv_toIdle _
    · rename_i hroom
      split at h
      · cases h
      · rename_i ch hw
        obtain ⟨hcap, rfl⟩ := Channel.accWrite_eq_ok hw
        split at h
        · split at h
          · cases h
          · rename_i hf
            cases h
            rw [Work.reportStored_lane]
            exact Work.inv_flushAs hf
        · rename_i hnc
          cases h
          have hlen : (p.slice g.off 188).length = g.plen := by rw [Packet.slice_length, hg]
          rw [hlen] at hcap
          have hcapLt : cap.toNat < 2 ^ 32 := cap.isLt
          have hn : (BitVec.ofNat 32 (w.lane.ch.woff.toNat + g.plen)).toNat = w.lane.ch.woff.toNat + g.plen := by
            rw [BitVec.toNat_ofNat]; omega
          obtain ⟨i1, i2, i3, i4, i5, i6, i7⟩ := hi
          refine ⟨?_, ?_, i3, ?_, ?_, i6, i7⟩
          · have := Memory.write_keys w.lane.ch.acc _ (p.slice g.off 188) i1
            simp only [Work.withCh_lane, Lane.withCh_ch, hn]
            rwa [hlen] at this
          · simp only [Work.withCh_lane, Lane.withCh_ch, hn]; exact hcap
          · intro h; exact absurd h hst
          · intro _ hb
            simp only [Work.withCh_lane, Lane.withCh_ch] at hb
            simp only [Work.withCh_lane, Lane.withCh_ch, hn]
            simp only [hb, Bool.true_and, beq_iff_eq] at hnc
            simp only [Channel.room, hb, ite_true] at hroom
            omega

theorem Work.inv_tracked {cap : Word} {w : Work} (cc : BitVec 4) (lost : Bool) (hi : w.lane.ch.Inv cap) :
    (w.tracked cc lost).lane.ch.Inv cap := by
  cases lost
  · exact Channel.inv_trackCc cc hi
  · exact Channel.inv_toIdle _

theorem Work.fatal_tracked {w : Work} (cc : BitVec 4) (lost : Bool) :
    (w.tracked cc lost).lane.ch.fatal = w.lane.ch.fatal := by cases lost <;> rfl

theorem processPacket_inv {cap : Word} {c : Nat} {p : Packet} {h : Header} {a : Option Adaptation} {w w' : Work}
    {r : Result} (hi : w.lane.ch.Inv cap) (hf : w.lane.ch.fatal = false)
    (he : processPacket cap c p h (geometry h a) w = .ok (r, w')) : w'.lane.ch.Inv cap := by
  rw [processPacket_eq] at he
  have hg := geometry_payload h a
  split at he
  · cases he
    exact Channel.inv_congr (Channel.inv_toIdle w.lane.ch) rfl rfl rfl rfl rfl fun _ => rfl
  · split at he
    · cases he; exact Work.inv_tracked _ _ hi
    · split at he
      · cases he; exact Work.inv_tracked _ _ hi
      · rename_i hne
        have hg' := (hg.resolve_left hne).1
        split at he
        · exact startPes_inv (Work.inv_tracked _ _ hi) (by rw [Work.fatal_tracked, hf]) hg' he
        · exact continuePes_inv (Work.inv_tracked _ _ hi) hg' he

/-- Every packet keeps the invariant of a channel. -/
theorem absorbLane_inv {cap idx : Word} {p : Packet} {c : Nat} {l l' : Lane} (hi : l.ch.Inv cap)
    (h : absorbLane cap idx p c l = .ok l') : l'.ch.Inv cap := by
  unfold absorbLane at h
  dsimp only at h
  split at h
  · cases h
  · rename_i l1 ev ha
    obtain ⟨-, rfl⟩ := eventEmit_eq_ok h
    unfold absorbChannel at ha
    split at ha
    · cases ha; exact hi
    · split at ha
      · cases ha; exact hi
      · rename_i hnf
        split at ha
        · cases ha
        · rename_i r w hp
          cases ha
          have := processPacket_inv hi (by simpa using hnf) hp
          exact Channel.inv_congr this rfl rfl rfl rfl rfl this.2.2.2.2.2.2

/-! ## Which faults a packet can raise -/

theorem Lane.not_sinkAnswers {c : Nat} {l : Lane} (h : l.nextReply c = none) : ¬ l.SinkAnswers := by
  intro ha; have := Lane.nextReply_isSome (c := c) ha; simp [h] at this

/-- FLUSH with its bytes in the buffer stops only at a sink that never answers. -/
theorem Work.flush_error {c : Nat} {w : Work} {f : Fault} {burst : List Byte}
    (hb : w.lane.ch.acc.readRange? 0 w.lane.ch.woff.toNat = some burst) (h : w.flush c = .error f) :
    f = .sinkSilent c ∧ ¬ w.lane.SinkAnswers := by
  rcases Work.flush_eq_error h with ⟨-, hr⟩ | ⟨hf, hn⟩
  · rw [hr] at hb; cases hb
  · exact ⟨hf, Lane.not_sinkAnswers hn⟩

theorem Channel.accWrite_error {cap : Word} {c a : Nat} {bytes : List Byte} {ch : Channel} {f : Fault}
    (h : ch.accWrite cap c a bytes = .error f) : cap.toNat < a + bytes.length := by
  unfold Channel.accWrite at h
  split at h
  · cases h
  · omega

theorem Work.flushAs_error {c : Nat} {r : Result} {w : Work} {f : Fault} {burst : List Byte}
    (hb : w.lane.ch.acc.readRange? 0 w.lane.ch.woff.toNat = some burst) (h : w.flushAs c r = .error f) :
    f = .sinkSilent c ∧ ¬ w.lane.SinkAnswers := by
  unfold Work.flushAs at h
  split at h
  · rename_i f' hf; cases h; exact Work.flush_error hb hf
  · cases h
  · cases h

theorem beginPes_error {cap : Word} {c : Nat} {p : Packet} {g : Geometry} {lost : Bool} {w : Work} {f : Fault}
    (hg : g.plen = 188 - g.off) (hcap : 65535 ≤ cap.toNat) (h : beginPes cap c p g lost w = .error f) :
    f = .sinkSilent c ∧ ¬ w.lane.SinkAnswers := by
  unfold beginPes at h
  dsimp only at h
  split at h
  · split at h
    · cases h
    · have hlen := elementary_length (p := p) hg (pesDecode p g.off g.plen).hs
      split at h
      · rename_i f' hw
        have := Channel.accWrite_error hw
        rw [hlen] at this; omega
      · rename_i ch hw
        obtain ⟨-, rfl⟩ := Channel.accWrite_eq_ok hw
        split at h
        · have hx := fun hb => Work.flushAs_error
            (burst := p.slice (g.off + (pesDecode p g.off g.plen).hs) 188) hb h
          refine hx ?_
          have hn : (BitVec.ofNat 32 (p.slice (g.off + (pesDecode p g.off g.plen).hs) 188).length).toNat =
              0 + (p.slice (g.off + (pesDecode p g.off g.plen).hs) 188).length := by
            rw [BitVec.toNat_ofNat, hlen]; omega
          have := Memory.readRange?_write w.lane.ch.acc 0 []
            (p.slice (g.off + (pesDecode p g.off g.plen).hs) 188) rfl
          simp only [Work.flag_lane, Work.withCh_lane, Lane.withCh_ch, Channel.openPes, hn]
          simpa using this
        · cases h
  · cases h

theorem startPes_error {cap : Word} {c : Nat} {p : Packet} {g : Geometry} {lost : Bool} {w : Work} {f : Fault}
    (hi : w.lane.ch.Inv cap) (hg : g.plen = 188 - g.off) (hcap : 65535 ≤ cap.toNat)
    (h : startPes cap c p g lost w = .error f) : f = .sinkSilent c ∧ ¬ w.lane.SinkAnswers := by
  unfold startPes at h
  split at h
  · rename_i f' hs
    cases h
    unfold settlePrevious at hs
    split at hs
    · split at hs
      · cases hs
      · obtain ⟨burst, hb⟩ := Memory.readRange?_of_keys _ _ hi.1
        exact Work.flush_error hb hs
    · cases hs
  · rename_i w1 hs
    obtain ⟨hf, ha⟩ := beginPes_error hg hcap h
    exact ⟨hf, fun h => ha ((settlePrevious_extends hs).answers h)⟩
  · cases h

theorem continuePes_error {cap : Word} {c : Nat} {p : Packet} {g : Geometry} {w : Work} {f : Fault}
    (hi : w.lane.ch.Inv cap) (hg : g.plen = 188 - g.off) (hcap : 65535 ≤ cap.toNat)
    (h : continuePes cap c p g w = .error f) : f = .sinkSilent c ∧ ¬ w.lane.SinkAnswers := by
  unfold continuePes at h
  dsimp only at h
  have hlen : (p.slice g.off 188).length = g.plen := by rw [Packet.slice_length, hg]
  have hexp := hi.2.2.1
  split at h
  · cases h
  · split at h
    · cases h
    · rename_i hroom
      have hfit : w.lane.ch.woff.toNat + g.plen ≤ cap.toNat := by
        unfold Channel.room at hroom; split at hroom <;> omega
      split at h
      · rename_i f' hw
        have := Channel.accWrite_error hw
        rw [hlen] at this; omega
      · rename_i ch hw
        obtain ⟨-, rfl⟩ := Channel.accWrite_eq_ok hw
        split at h
        · obtain ⟨burst, hb⟩ := Memory.readRange?_of_keys _ _ hi.1
          split at h
          rotate_left
          · cases h
          rename_i hf
          cases h
          have hx := fun hb => Work.flushAs_error (burst := burst ++ p.slice g.off 188) hb hf
          refine hx ?_
          have hcapLt : cap.toNat < 2 ^ 32 := cap.isLt
          have hn : (BitVec.ofNat 32 (w.lane.ch.woff.toNat + g.plen)).toNat =
              w.lane.ch.woff.toNat + (p.slice g.off 188).length := by
            rw [BitVec.toNat_ofNat, hlen]; omega
          have := Memory.readRange?_write w.lane.ch.acc _ burst (p.slice g.off 188) hb
          simp only [Work.withCh_lane, Lane.withCh_ch, hn]
          exact this
        · cases h

theorem processPacket_error {cap : Word} {c : Nat} {p : Packet} {h : Header} {a : Option Adaptation} {w : Work}
    {f : Fault} (hi : w.lane.ch.Inv cap) (hcap : 65535 ≤ cap.toNat)
    (he : processPacket cap c p h (geometry h a) w = .error f) : f = .sinkSilent c ∧ ¬ w.lane.SinkAnswers := by
  rw [processPacket_eq] at he
  have hg := geometry_payload h a
  have hx := Work.extends_tracked h.cc (w.lane.ch.ccLost h.cc) w
  have hit := Work.inv_tracked h.cc (w.lane.ch.ccLost h.cc) hi
  split at he
  · cases he
  · split at he
    · cases he
    · split at he
      · cases he
      · rename_i hne
        have hg' := (hg.resolve_left hne).1
        split at he
        · obtain ⟨hf, ha⟩ := startPes_error hit hg' hcap he
          exact ⟨hf, fun h => ha (hx.answers h)⟩
        · obtain ⟨hf, ha⟩ := continuePes_error hit hg' hcap he
          exact ⟨hf, fun h => ha (hx.answers h)⟩

/-- Under the invariant a packet can only be stopped by a sink that never answers or an event consumer that never takes a
record. -/
theorem absorbLane_error {cap idx : Word} {p : Packet} {c : Nat} {l : Lane} {f : Fault} (hi : l.ch.Inv cap)
    (hcap : 65535 ≤ cap.toNat) (h : absorbLane cap idx p c l = .error f) :
    (f = .sinkSilent c ∧ ¬ l.SinkAnswers) ∨ (f = .eventSilent c ∧ ¬ l.EventTaken) := by
  unfold absorbLane at h
  dsimp only at h
  split at h
  · rename_i f' ha
    cases h
    unfold absorbChannel at ha
    split at ha
    · cases ha
    · split at ha
      · cases ha
      · split at ha
        · rename_i f' hp; cases ha; exact .inl (processPacket_error hi hcap hp)
        · cases ha
  · rename_i l1 ev ha
    obtain ⟨hf, ht⟩ := eventEmit_eq_error h
    refine .inr ⟨hf, ?_⟩
    unfold absorbChannel at ha
    split at ha
    · cases ha; exact ht
    · split at ha
      · cases ha; exact ht
      · split at ha
        · cases ha
        · rename_i r w hp
          cases ha
          have := (processPacket_extends hp).eventRoom
          simpa only [Lane.EventTaken, Work.finish_eventRoom, this] using ht

/-- A packet completes on a channel whose ports answer. -/
theorem absorbLane_total {cap : Word} {l : Lane} (idx : Word) (p : Packet) (c : Nat) (hi : l.ch.Inv cap)
    (hcap : 65535 ≤ cap.toNat) (hs : l.SinkAnswers) (he : l.EventTaken) :
    ∃ l', absorbLane cap idx p c l = .ok l' := by
  cases h : absorbLane cap idx p c l with
  | ok l' => exact ⟨l', rfl⟩
  | error f =>
    rcases absorbLane_error hi hcap h with ⟨-, h'⟩ | ⟨-, h'⟩
    · exact absurd hs h'
    · exact absurd he h'

end Sys2Proof.Machine
end

