-- ==== Sys2Proof/Laws/Absorb.lean ====
section
/-! SUPPORT. ABSORB over all channels: each channel's part is its own (spec/43_assembler.md R171), and a fault of an
ABSORB is a fault of one channel's part. -/

namespace Sys2Proof.Machine

/-- When every channel is done, each has become what its own part of the packet makes of it. -/
theorem absorbLanes_eq_ok {cap idx : Word} {p : Packet} {c : Nat} {lanes lanes' : List Lane}
    (h : absorbLanes cap idx p c lanes = .ok lanes') :
    lanes'.length = lanes.length ∧
    ∀ k l, lanes[k]? = some l → ∃ l', lanes'[k]? = some l' ∧ absorbLane cap idx p (c + k) l = .ok l' := by
  induction lanes generalizing c lanes' with
  | nil => cases h; simp
  | cons l0 rest ih =>
    unfold absorbLanes at h
    split at h
    · cases h
    · rename_i l1 h1
      split at h
      · cases h
      · rename_i rest' hr
        cases h
        obtain ⟨hlen, hk⟩ := ih hr
        refine ⟨by simp [hlen], ?_⟩
        intro k l hl
        cases k with
        | zero =>
          obtain rfl : l0 = l := by simpa using hl
          exact ⟨l1, by simp, h1⟩
        | succ k =>
          obtain ⟨l', hl', ha⟩ := hk k l (by simpa using hl)
          exact ⟨l', by simpa using hl', by rw [← ha]; congr 1; omega⟩

/-- A fault of the whole is a fault of one channel. -/
theorem absorbLanes_eq_error {cap idx : Word} {p : Packet} {c : Nat} {lanes : List Lane} {f : Fault}
    (h : absorbLanes cap idx p c lanes = .error f) :
    ∃ k l, lanes[k]? = some l ∧ absorbLane cap idx p (c + k) l = .error f := by
  induction lanes generalizing c with
  | nil => cases h
  | cons l0 rest ih =>
    unfold absorbLanes at h
    split at h
    · rename_i f' h1; cases h; exact ⟨0, l0, by simp, h1⟩
    · split at h
      · rename_i f' hr
        cases h
        obtain ⟨k, l, hl, ha⟩ := ih hr
        exact ⟨k + 1, l, by simpa using hl, by rw [← ha]; congr 1; omega⟩
      · cases h

/-- Everything an ABSORB can do when it completes. -/
theorem absorbPacket_eq_next {p : Packet} {s t : State} (h : absorbPacket p s = .next t) : AbsorbsTo s p t := by
  unfold absorbPacket at h
  split at h
  · cases h
  · rename_i lanes hl
    cases h
    obtain ⟨hlen, hk⟩ := absorbLanes_eq_ok hl
    refine ⟨rfl, rfl, rfl, rfl, hlen, ?_⟩
    intro c l hc
    obtain ⟨l', hl', ha⟩ := hk c l hc
    rw [Nat.zero_add] at ha
    obtain ⟨-, -, -, -, -, ⟨ev, hev⟩, -⟩ := absorbLane_frame ha
    exact ⟨l', hl', ha, by simp [hev]⟩

theorem absorbPacket_eq_fault {p : Packet} {s : State} {f : Fault} (h : absorbPacket p s = .fault f) :
    ∃ c l, s.lanes[c]? = some l ∧ absorbLane s.accCapacity s.pktIndex p c l = .error f := by
  unfold absorbPacket at h
  split at h
  · rename_i f' hl
    cases h
    obtain ⟨k, l, hk, ha⟩ := absorbLanes_eq_error hl
    exact ⟨k, l, hk, by rwa [Nat.zero_add] at ha⟩
  · cases h

theorem absorbPacket_not_refused {p : Packet} {s : State} {r : Refusal} : absorbPacket p s ≠ .refused r := by
  unfold absorbPacket; split <;> simp

end Sys2Proof.Machine
end

