-- ==== Sys2Proof/Laws/Commands.lean ====
section
/-! SUPPORT. What a command can do, said once: the four shapes of an instruction, WRREG's one register, and EOS. -/

namespace Sys2Proof.Machine

/-- An instruction presents a packet, ends a stream, writes a register, or only answers. -/
theorem exec_shape (i : Instr) :
    (∃ p : Packet, (encode i).data = .packet p.val ∧ ∀ s, exec i s = absorbPacket p s) ∨
    (∃ ch, i = .eos ch) ∨ (∃ index v, i = .wrreg index v) ∨
    ((∀ bytes, (encode i).data ≠ .packet bytes) ∧ ∀ s, ∃ st d, exec i s = .next (s.respond st d)) := by
  cases i
  case absorb p => exact .inl ⟨p, rfl, fun _ => rfl⟩
  case tsAfcReserved u f b => exact .inl ⟨_, rfl, fun _ => rfl⟩
  case tsPayloadStart f b => exact .inl ⟨_, rfl, fun _ => rfl⟩
  case tsPayloadCont f b => exact .inl ⟨_, rfl, fun _ => rfl⟩
  case tsAfOnly u f b => exact .inl ⟨_, rfl, fun _ => rfl⟩
  case tsAfPayloadStart f b => exact .inl ⟨_, rfl, fun _ => rfl⟩
  case tsAfPayloadCont f b => exact .inl ⟨_, rfl, fun _ => rfl⟩
  case sidExclBC q => exact .inl ⟨_, rfl, fun _ => rfl⟩
  case sidExclBE q => exact .inl ⟨_, rfl, fun _ => rfl⟩
  case sidExclBF q => exact .inl ⟨_, rfl, fun _ => rfl⟩
  case sidExclF0 q => exact .inl ⟨_, rfl, fun _ => rfl⟩
  case sidExclF1 q => exact .inl ⟨_, rfl, fun _ => rfl⟩
  case sidExclF2 q => exact .inl ⟨_, rfl, fun _ => rfl⟩
  case sidExclF8 q => exact .inl ⟨_, rfl, fun _ => rfl⟩
  case sidExclFF q => exact .inl ⟨_, rfl, fun _ => rfl⟩
  case sidExtended sid q => exact .inl ⟨_, rfl, fun _ => rfl⟩
  case eos ch => exact .inr (.inl ⟨ch, rfl⟩)
  case wrreg index v => exact .inr (.inr (.inl ⟨index, v, rfl⟩))
  all_goals exact .inr (.inr (.inr ⟨fun _ h => HostData.noConfusion h, fun _ => ⟨_, _, rfl⟩⟩))

/-! ## Registers -/

/-- The index of CTRL(c) is its own (spec/10_state.md R30). -/
theorem regAt_ctrl_iff {n : Nat} {index : BitVec 8} {c : Nat} :
    regAt n index = .ctrl c ↔ c < n ∧ index.toNat = 0x10 + 8 * c := by
  unfold regAt
  dsimp only
  split
  · simp; omega
  · split
    · simp; omega
    · split
      · simp; omega
      · split
        · simp; omega
        · split
          · rename_i h1 h2 h3 h4 h5
            unfold channelReg
            split
            case h_6 h0 _ _ _ _ => have : ¬ (index.toNat - 16) % 8 = 0 := h0; simp; omega
            all_goals simp; omega
          · simp; omega

/-- Everything a write does: CTRL of an existing channel re-creates it, any other index changes nothing. -/
theorem State.writeReg_cases (s : State) (index : BitVec 8) (v : Word) :
    (∃ c l, s.lanes[c]? = some l ∧ index.toNat = 0x10 + 8 * c ∧
      s.writeReg index v = s.setLane c (l.withCh (ctrlWrite v))) ∨
    ((∀ c < s.lanes.length, index.toNat ≠ 0x10 + 8 * c) ∧ s.writeReg index v = s) := by
  by_cases h : ∃ c, regAt s.lanes.length index = .ctrl c
  · obtain ⟨c, hc⟩ := h
    obtain ⟨hlt, hi⟩ := regAt_ctrl_iff.1 hc
    refine .inl ⟨c, s.lanes[c], by simp [hlt], hi, ?_⟩
    simp [State.writeReg, hc, hlt]
  · refine .inr ⟨fun c hc hi => h ⟨c, regAt_ctrl_iff.2 ⟨hc, hi⟩⟩, ?_⟩
    unfold State.writeReg
    split
    · rename_i c hc; exact absurd ⟨c, hc⟩ h
    all_goals rfl

/-! ## EOS (spec/44_host_commands.md R238) -/

/-- Everything EOS does to a channel when it ends: a channel with FATAL is left alone; any other is Idle without CC history, its
sink has got something, and its answer tells whether a call failed. -/
theorem eosLane_eq_ok {c : Nat} {l l' : Lane} {st : StatusCode} (h : eosLane c l = .ok (st, l')) :
    (l.ch.fatal = true ∧ st = .sinkError ∧ l' = l) ∨
    (l.ch.fatal = false ∧ ∃ failed, l'.ch = l.ch.afterEos failed ∧ l.sink <+: l'.sink ∧ l'.events = l.events ∧
      l'.eventRoom = l.eventRoom ∧ st = if failed then .sinkError else .ok) := by
  unfold eosLane at h
  split at h
  · rename_i hf; cases h; exact .inl ⟨hf, rfl, rfl⟩
  · rename_i hf
    split at h
    · cases h
    · rename_i flushed l1 h1
      split at h
      · cases h
      · rename_i closed l2 h2
        cases h
        have hl1 : ∃ got, l1.ch = l.ch ∧ l1.sink = l.sink ++ got ∧ l1.events = l.events ∧
            l1.eventRoom = l.eventRoom := by
          unfold eosFlush at h1
          split at h1
          · obtain ⟨_, got, -, rfl, -⟩ := emitAcc_eq_ok h1; exact ⟨got, rfl, rfl, rfl, rfl⟩
          · cases h1; exact ⟨[], rfl, by simp, rfl, rfl⟩
        have hl2 : ∃ got, l2.ch = l1.ch ∧ l2.sink = l1.sink ++ got ∧ l2.events = l1.events ∧
            l2.eventRoom = l1.eventRoom := by
          unfold eosClose at h2
          split at h2
          · obtain ⟨got, rfl, -⟩ := sinkCall_eq_ok h2; exact ⟨got, rfl, rfl, rfl, rfl⟩
          · cases h2; exact ⟨[], rfl, by simp, rfl, rfl⟩
        obtain ⟨g1, c1, s1, e1, r1⟩ := hl1
        obtain ⟨g2, c2, s2, e2, r2⟩ := hl2
        refine .inr ⟨by simpa using hf, !closed, ?_, ?_, ?_, ?_, ?_⟩
        · simp [c2, c1]
        · simp [s2, s1]
        · simp [e2, e1]
        · simp [r2, r1]
        · cases closed <;> rfl

/-- EOS on a channel that meets the invariant stops only at a sink that never answers. -/
theorem eosLane_error {cap : Word} {c : Nat} {l : Lane} {f : Fault} (hi : l.ch.Inv cap) (h : eosLane c l = .error f) :
    f = .sinkSilent c ∧ ¬ l.SinkAnswers := by
  unfold eosLane at h
  split at h
  · cases h
  · split at h
    · rename_i f' h1
      cases h
      unfold eosFlush at h1
      split at h1
      · obtain ⟨burst, hb⟩ := Memory.readRange?_of_keys _ _ hi.1
        rcases emitAcc_eq_error h1 with ⟨-, hr⟩ | ⟨hf, hn⟩
        · rw [hr] at hb; cases hb
        · exact ⟨hf, Lane.not_sinkAnswers hn⟩
      · cases h1
    · rename_i flushed l1 h1
      split at h
      · rename_i f' h2
        cases h
        unfold eosClose at h2
        split at h2
        · obtain ⟨hf, hn⟩ := sinkCall_eq_error h2
          refine ⟨hf, fun ha => Lane.not_sinkAnswers hn ?_⟩
          unfold eosFlush at h1
          split at h1
          · obtain ⟨_, got, -, rfl, -⟩ := emitAcc_eq_ok h1; exact Lane.sinkAnswers_sinkGot ha got
          · cases h1; exact ha
        · cases h2
      · cases h

/-- Everything EOS can do when it completes. -/
theorem execEos_eq_next {ch : BitVec 4} {s t : State} (h : execEos ch s = .next t) :
    (s.lanes[ch.toNat]? = none ∧ t = s.respond .illegal none) ∨
    ∃ l st l', s.lanes[ch.toNat]? = some l ∧ eosLane ch.toNat l = .ok (st, l') ∧
      t = (s.setLane ch.toNat l').respond st none := by
  unfold execEos at h
  split at h
  · rename_i hn; cases h; exact .inl ⟨hn, rfl⟩
  · rename_i l hl
    split at h
    · cases h
    · rename_i st l' he; cases h; exact .inr ⟨l, st, l', hl, he, rfl⟩

end Sys2Proof.Machine
end

