-- ==== Sys2Proof/Laws/Decode.lean ====
section
/-! SUPPORT. The fields of a command word and of a TS header are where the encoder puts them (spec/30_encoding.md R70, R80), and
where the pieces of a start packet lie (R74). -/

namespace Sys2Proof

/-! ## The command word -/

theorem commandWord_bit (op ch : BitVec 4) (reg : BitVec 8) (i : Nat) : (commandWord op ch reg).getLsbD i =
    if i < 4 then op.getLsbD i else if i < 8 then ch.getLsbD (i - 4) else reg.getLsbD (i - 8) := by
  show @BitVec.getLsbD (16 + 8 + 4 + 4) ((0 : BitVec 16) ++ reg ++ ch ++ op) i = _
  rw [BitVec.getLsbD_append, BitVec.getLsbD_append, BitVec.getLsbD_append]
  by_cases h4 : i < 4
  · simp [h4]
  · by_cases h8 : i < 8
    · have : i - 4 < 4 := by omega
      simp [h4, h8, this]
    · have h1 : ¬ i - 4 < 4 := by omega
      have h2 : i - 4 - 4 = i - 8 := by omega
      by_cases h16 : i - 8 < 8
      · simp [h4, h8, h1, h2, h16]
      · have : 8 ≤ i - 8 := by omega
        simp [h4, h8, h1, h2, h16, BitVec.getLsbD_of_ge _ _ this]

@[simp] theorem opField_commandWord (op ch : BitVec 4) (reg : BitVec 8) : opField (commandWord op ch reg) = op := by
  apply BitVec.eq_of_getLsbD_eq
  intro i hi
  rw [opField, BitVec.getLsbD_extractLsb', commandWord_bit]
  simp [hi]

@[simp] theorem chField_commandWord (op ch : BitVec 4) (reg : BitVec 8) : chField (commandWord op ch reg) = ch := by
  apply BitVec.eq_of_getLsbD_eq
  intro i hi
  have h8 : 4 + i < 8 := by omega
  rw [chField, BitVec.getLsbD_extractLsb', commandWord_bit]
  simp [hi, h8]

@[simp] theorem regField_commandWord (op ch : BitVec 4) (reg : BitVec 8) : regField (commandWord op ch reg) = reg := by
  apply BitVec.eq_of_getLsbD_eq
  intro i hi
  have h4 : ¬ 8 + i < 4 := by omega
  rw [regField, BitVec.getLsbD_extractLsb', commandWord_bit]
  simp [hi, h4]

/-- The packet of an ABSORB is the packet it was made of. -/
@[simp] theorem absorbTxn_packet? (p : Packet) : (absorbTxn p).packet? = some p := by
  obtain ⟨bytes, h⟩ := p
  have hd : decodeCommand (absorbTxn ⟨bytes, h⟩) = .ok (.absorb ⟨bytes, h⟩) := by
    show absorbCommand (.packet bytes) = _
    simp [absorbCommand, h]
  simp [Txn.packet?, hd]

/-! ## The TS header -/

theorem byte1_fields : ∀ (tei s tp : Bool) (hi : BitVec 5),
    let b : Byte := BitVec.ofBool tei ++ BitVec.ofBool s ++ BitVec.ofBool tp ++ hi
    b.getLsbD 7 = tei ∧ b.getLsbD 6 = s ∧ b.getLsbD 5 = tp ∧ b.extractLsb' 0 5 = hi := by decide

theorem byte3_fields : ∀ (tsc afc : BitVec 2) (cc : BitVec 4),
    let b : Byte := tsc ++ afc ++ cc
    b.extractLsb' 6 2 = tsc ∧ b.extractLsb' 4 2 = afc ∧ b.extractLsb' 0 4 = cc := by decide

theorem pid_halves (pid : BitVec 13) : pid.extractLsb' 8 5 ++ pid.extractLsb' 0 8 = pid := by
  apply BitVec.eq_of_getLsbD_eq
  intro i hi
  show @BitVec.getLsbD (5 + 8) (pid.extractLsb' 8 5 ++ pid.extractLsb' 0 8) i = _
  rw [BitVec.getLsbD_append]
  by_cases h : i < 8
  · simp [h]
  · have h1 : 8 + (i - 8) = i := by omega
    have h2 : i - 8 < 5 := by omega
    simp [h, h1, h2]

theorem TsFields.packet_byte1 (f : TsFields) (u : Bool) (a : BitVec 2) (b : Body) : (f.packet u a b).byte 1 =
    BitVec.ofBool f.tei ++ BitVec.ofBool u ++ BitVec.ofBool f.tp ++ f.pid.extractLsb' 8 5 := by
  simp [Packet.byte, TsFields.packet, TsFields.header]

theorem TsFields.packet_byte3 (f : TsFields) (u : Bool) (a : BitVec 2) (b : Body) :
    (f.packet u a b).byte 3 = f.tsc ++ a ++ f.cc := by
  simp [Packet.byte, TsFields.packet, TsFields.header]

@[simp] theorem TsFields.packet_pusi (f : TsFields) (u : Bool) (a : BitVec 2) (b : Body) :
    (f.packet u a b).pusi = u := by
  rw [Packet.pusi, TsFields.packet_byte1]; exact (byte1_fields ..).2.1

@[simp] theorem TsFields.packet_afc (f : TsFields) (u : Bool) (a : BitVec 2) (b : Body) :
    (f.packet u a b).afc = a := by
  rw [Packet.afc, TsFields.packet_byte3]; exact (byte3_fields ..).2.1

@[simp] theorem TsFields.packet_pid (f : TsFields) (u : Bool) (a : BitVec 2) (b : Body) :
    (f.packet u a b).pid = f.pid := by
  have h2 : (f.packet u a b).byte 2 = f.pid.extractLsb' 0 8 := by
    simp [Packet.byte, TsFields.packet, TsFields.header]
  rw [Packet.pid, TsFields.packet_byte1, (byte1_fields ..).2.2.2, h2]; exact pid_halves f.pid

@[simp] theorem TsFields.packet_cc (f : TsFields) (u : Bool) (a : BitVec 2) (b : Body) :
    (f.packet u a b).cc = f.cc := by
  show ((f.packet u a b).byte 3).extractLsb' 0 4 = f.cc
  rw [TsFields.packet_byte3]; exact (byte3_fields ..).2.2

@[simp] theorem TsFields.packet_tsFields (f : TsFields) (u : Bool) (a : BitVec 2) (b : Body) :
    (f.packet u a b).tsFields = f := by
  obtain ⟨sync, tei, tp, pid, tsc, cc⟩ := f
  simp only [Packet.tsFields, TsFields.packet_pid, TsFields.packet_byte1, TsFields.packet_byte3, byte1_fields,
    byte3_fields]
  simp [Packet.byte, TsFields.packet, TsFields.header]

@[simp] theorem TsFields.packet_body (f : TsFields) (u : Bool) (a : BitVec 2) (b : Body) :
    (f.packet u a b).body = b := by
  simp [Packet.body, TsFields.packet, TsFields.header]

/-! ## A start packet -/

/-- A start packet that fits is its pieces laid end to end. -/
theorem PesStart.packet_val {q : PesStart} (h : q.fits = true) (sid : Byte) :
    (q.packet sid).val = q.ts.header true q.afc ++ q.afBytes ++ q.pesBytes sid ++ q.tail := by
  have hlen : (q.ts.header true q.afc ++ q.afBytes ++ q.pesBytes sid ++ q.tail).length = 188 := by
    simp only [PesStart.fits, PesStart.afSize] at h
    unfold PesStart.afBytes
    cases haf : q.af <;> simp [haf, TsFields.header, PesStart.pesBytes] at h ⊢ <;> omega
  simp only [PesStart.packet, Packet.ofList]
  rw [List.take_append_of_le_length (by omega), ← hlen, List.take_length]

/-- The payload of a start packet: the PES header from its first byte. -/
theorem PesStart.packet_byte {q : PesStart} (h : q.fits = true) (sid : Byte) (k : Nat) :
    (q.packet sid).byte (4 + q.afSize + k) = (q.pesBytes sid ++ q.tail).getD k 0 := by
  have hpre : (q.ts.header true q.afc ++ q.afBytes).length = 4 + q.afSize := by
    unfold PesStart.afBytes PesStart.afSize
    cases haf : q.af <;> simp [TsFields.header]; omega
  rw [Packet.byte, PesStart.packet_val h, List.append_assoc (q.ts.header true q.afc ++ q.afBytes)]
  simp only [List.getD_eq_getElem?_getD]
  rw [List.getElem?_append_right (by omega), hpre]
  congr 2; omega

end Sys2Proof
end

