-- ==== Sys2Proof/Laws/Packet.lean ====
section
/-! SUPPORT. One packet on one channel in the words of Safety.lean: its payload, the flags it reports, and the lane a packet that
passes both gates leaves (spec/43_assembler.md R172). -/

namespace Sys2Proof.Machine

/-! ## Flag vectors -/

theorem setFlag_eq (fl : BitVec 12) (k : Flag) : setFlag fl k = fl ||| k.mask := rfl

@[simp] theorem flagVec_nil : flagVec [] = 0 := rfl

theorem foldl_setFlag (fl : BitVec 12) (flags : List Flag) : flags.foldl setFlag fl = fl ||| flagVec flags := by
  induction flags generalizing fl with
  | nil => simp
  | cons k flags ih =>
    have h := ih (setFlag 0 k)
    have h' := ih (setFlag fl k)
    simp only [List.foldl_cons, flagVec] at h h' ⊢
    rw [h', h]
    simp [setFlag, BitVec.or_assoc]

theorem flagVec_cons (k : Flag) (flags : List Flag) : flagVec (k :: flags) = k.mask ||| flagVec flags := by
  rw [flagVec, List.foldl_cons, foldl_setFlag]; simp [setFlag]

theorem flagVec_append (a b : List Flag) : flagVec (a ++ b) = flagVec a ||| flagVec b := by
  rw [flagVec, List.foldl_append, foldl_setFlag]; rfl

end Sys2Proof.Machine

namespace Sys2Proof

open Machine

/-! ## The payload -/

/-- A payload reaches from its offset to the packet's end. -/
theorem Packet.payload_length {p : Packet} (h : 0 < p.geometry.plen) :
    p.payload.length = p.geometry.plen ∧ p.geometry.plen = 188 - p.geometry.off := by
  have hg := (geometry_payload (hdrDecode p) (afDecode p (hdrDecode p))).resolve_left
    (by show ¬ p.geometry.plen = 0; omega)
  exact ⟨by rw [Packet.payload, Packet.slice_length]; exact hg.1.symm, hg.1⟩

theorem Packet.elementary_length {p : Packet} (h : 0 < p.geometry.plen) :
    p.elementary.length = p.geometry.plen - p.pes.hs := Machine.elementary_length (Packet.payload_length h).2 _

/-- `P[off + k]` is the payload's byte k. -/
theorem Packet.byte_payload (p : Packet) (k : Nat) : p.byte (p.geometry.off + k) = p.payload.getD k 0 := by
  obtain ⟨bytes, h⟩ := p
  unfold Packet.byte Packet.payload Packet.slice
  rw [List.take_of_length_le (by simp [h])]
  simp [List.getD_eq_getElem?_getD, List.getElem?_drop]

/-- `P[off + k .. 188]` is the payload from its byte k on. -/
theorem Packet.slice_payload (p : Packet) (k : Nat) : p.slice (p.geometry.off + k) 188 = p.payload.drop k := by
  obtain ⟨bytes, h⟩ := p
  unfold Packet.payload Packet.slice
  rw [List.take_of_length_le (by simp [h]), List.take_of_length_le (by simp [h]), List.drop_drop]

end Sys2Proof

namespace Sys2Proof.Machine

/-! ## The lane a packet leaves -/

/-- A packet that passes both gates leaves what `processPacket` makes of the lane, with its record emitted. -/
theorem absorbLane_taken {cap idx : Word} {p : Packet} {c : Nat} {l : Lane} {r : Result} {w : Work} (he : l.EventTaken)
    (ht : l.ch.Takes p)
    (h : processPacket cap c p (hdrDecode p) p.geometry { lane := l, fl := 0, pes := none } = .ok (r, w)) :
    absorbLane cap idx p c l = .ok ((w.finish r).recorded (p.event c idx r w.fl w.pes)) := by
  obtain ⟨h1, h2, h3⟩ := ht
  have h2' : (hdrDecode p).pid = l.ch.targetPid := h2
  have h' : processPacket cap c p (hdrDecode p) (geometry (hdrDecode p) (afDecode p (hdrDecode p)))
      { lane := l, fl := 0, pes := none } = .ok (r, w) := h
  unfold absorbLane absorbChannel
  simp only [h1, h2', h3, Bool.not_true, bne_self_eq_false, Bool.or_self, Bool.false_eq_true, if_false]
  rw [h']
  refine eventEmit_taken ?_
  have := (processPacket_extends h).eventRoom
  simpa [Lane.EventTaken, this] using he

/-- A start packet that passes both gates: the counter, the loss, then `startPes` (R176 to R188). -/
theorem absorbLane_start {cap idx : Word} {p : Packet} {c : Nat} {l : Lane} {r : Result} {w : Work} (he : l.EventTaken)
    (ht : l.ch.Takes p) (hs : p.IsStart)
    (h : startPes cap c p p.geometry (l.ch.ccLost p.cc)
      (({ lane := l, fl := 0, pes := none } : Work).tracked p.cc (l.ch.ccLost p.cc)) = .ok (r, w)) :
    absorbLane cap idx p c l = .ok ((w.finish r).recorded (p.event c idx r w.fl w.pes)) := by
  obtain ⟨h1, h2, h3⟩ := hs
  have h2' : (hdrDecode p).pusi = true := h2
  refine absorbLane_taken he ht ?_
  rw [processPacket_eq, if_neg (by simp [h1]), if_neg (by simp [h2', h3]), if_neg (by omega),
    if_pos (by simp [h2', h3])]
  exact h

/-- A continuation packet in sequence that passes both gates: the counter, then `continuePes` (R189 to R192). -/
theorem absorbLane_continuation {cap idx : Word} {p : Packet} {c : Nat} {l : Lane} {r : Result} {w : Work}
    (he : l.EventTaken) (ht : l.ch.Takes p) (hc : p.IsContinuation) (hs : l.ch.InSequence p.cc)
    (h : continuePes cap c p p.geometry { lane := l.withCh (l.ch.trackCc p.cc), fl := 0, pes := none } = .ok (r, w)) :
    absorbLane cap idx p c l = .ok ((w.finish r).recorded (p.event c idx r w.fl w.pes)) := by
  have hl : l.ch.ccLost (hdrDecode p).cc = false := (Channel.ccLost_eq_false p.cc l.ch).2 hs
  obtain ⟨h1, h2, h3⟩ := hc
  have h2' : (hdrDecode p).pusi = false := h2
  refine absorbLane_taken he ht ?_
  rw [processPacket_eq, if_neg (by simp [h1]), if_neg (by simp [hl]), if_neg (by omega), if_neg (by simp [h2']), hl]
  exact h

/-! ## A start packet's header -/

theorem PesDecode.bounded_eq (d : PesDecode) : d.bounded = decide (d.len ≠ 0) := by
  unfold PesDecode.bounded
  generalize d.len = x
  by_cases h : x = 0
  · rw [h]; rfl
  · rw [decide_eq_true h]; exact bne_iff_ne.2 h

theorem PesDecode.expected_eq (d : PesDecode) : d.expected = if d.len = 0 then 0 else d.len.toNat + 6 - d.hs := by
  rw [PesDecode.expected, PesDecode.bounded_eq]
  by_cases h : d.len = 0
  · rw [if_pos h, if_neg (by simp [h])]
  · rw [if_neg h, if_pos (by simpa using h)]

/-- Idle: nothing of a PES in progress stands before the new one (R184). -/
theorem startPes_idle {cap : Word} {p : Packet} {c : Nat} {g : Geometry} {lost : Bool} {w : Work}
    (h : w.lane.ch.state = .idle) : startPes cap c p g lost w = beginPes cap c p g lost w := by
  simp [startPes, settlePrevious, h]

/-- Everything an accepted header does (R186, R187, R188): its first fragment overflows, completes the PES, or begins it. -/
theorem beginPes_accepted {cap : Word} {p : Packet} {c : Nat} {lost : Bool} {w : Work} (hp : 0 < p.geometry.plen)
    (hcap : 65535 ≤ cap.toNat) (ha : p.pes.Accepted w.lane.ch.malformedPolicy) :
    beginPes cap c p p.geometry lost w =
      let w' : Work := { w with pes := some p.pes.triple, fl := w.fl ||| flagVec p.pes.acceptFlags }
      if p.pes.len ≠ 0 ∧ p.pes.len.toNat + 6 < p.geometry.plen then .ok (.streamPacketLost, w'.flag .cap)
      else
        let w'' := (w'.withCh (({ w.lane.ch with acc := w.lane.ch.acc.write 0 p.elementary } : Channel).openPes
          p.pes p.elementary)).flag .start
        if p.pes.len ≠ 0 ∧ p.pes.len.toNat + 6 = p.geometry.plen then
          w''.flushAs c (if lost then .streamPacketLost else .assemblingFinished)
        else .ok (if lost then .streamPacketLost else .assemblingStarted, w'') := by
  have hacc : (pesCheck p.pes w.lane.ch.malformedPolicy).accept = true := (pesCheck_accept _ _).2 ha
  have hcomp : p.pes.decoded = true ∧ 6 ≤ p.pes.hs ∧ p.pes.hs ≤ p.geometry.plen := pesDecode_complete ha.1
  have hfl := pesCheck_acceptFlags ha hcomp.1
  have hel := Packet.elementary_length hp
  have hpl := Packet.payload_length hp
  have hw : w.lane.ch.accWrite cap c 0 p.elementary =
      .ok { w.lane.ch with acc := w.lane.ch.acc.write 0 p.elementary } := by
    unfold Channel.accWrite; rw [if_pos (by omega)]
  have hlen := ha.2.1
  have hroom : p.geometry.plen - p.pes.hs > p.pes.room cap ↔
      p.pes.len ≠ 0 ∧ p.pes.len.toNat + 6 < p.geometry.plen := by
    rw [PesDecode.room, PesDecode.bounded_eq, PesDecode.expected_eq]
    by_cases h : p.pes.len = 0
    · simp only [h, ne_eq, not_true, decide_false, Bool.false_eq_true, if_false, false_and, iff_false]; omega
    · have := hlen h
      simp only [h, ne_eq, not_false_iff, decide_true, if_true, if_false, true_and]; omega
  have hcm : (p.pes.bounded && (p.geometry.plen - p.pes.hs == p.pes.expected)) = true ↔
      p.pes.len ≠ 0 ∧ p.pes.len.toNat + 6 = p.geometry.plen := by
    rw [PesDecode.bounded_eq, PesDecode.expected_eq]
    by_cases h : p.pes.len = 0
    · simp [h]
    · have := hlen h
      simp only [h, ne_eq, not_false_iff, decide_true, if_false, true_and, Bool.true_and, beq_iff_eq]; omega
  unfold beginPes
  simp only [show pesDecode p p.geometry.off p.geometry.plen = p.pes from rfl,
    show p.slice (p.geometry.off + p.pes.hs) 188 = p.elementary from rfl]
  simp only [hacc, if_true, hcomp.1, hfl]
  by_cases hr : p.pes.len ≠ 0 ∧ p.pes.len.toNat + 6 < p.geometry.plen
  · rw [if_pos (hroom.2 hr), if_pos hr]
  · rw [if_neg (fun h => hr (hroom.1 h)), if_neg hr, hw]
    by_cases hc : p.pes.len ≠ 0 ∧ p.pes.len.toNat + 6 = p.geometry.plen
    · simp only [hcm.2 hc]; rw [if_pos hc]; simp only [if_true]
    · rw [if_neg hc]; dsimp only; rw [if_neg (fun h => hc (hcm.1 h))]

/-- The set-up of R187 in the words of Safety.lean. -/
theorem Channel.started_eq (p : Packet) (ch : Channel) (r : Result) (fl : BitVec 12) (acc : Memory)
    (hp : 0 < p.geometry.plen) : ch.started p r fl acc =
    { ch with
      state := .assembling, bounded := p.pes.bounded, expected := BitVec.ofNat 32 p.pes.expected
      woff := BitVec.ofNat 32 p.elementary.length, ccValid := true, lastCc := p.cc, pesSid := p.pes.sid
      pesLen := p.pes.len, pesHdl := p.pes.hdl, lastResult := r, lastFlags := fl, acc := acc } := by
  simp only [Channel.started, Packet.elementary_length hp, PesDecode.bounded_eq, PesDecode.expected_eq]

end Sys2Proof.Machine
end

