-- ==== Sys2Proof/Laws/PerInstr.lean ====
section
/-! SUPPORT. The per-instruction family OpcodeRow: the transaction of every well-formed instruction shows the bits its row of
spec/opcode_table.json fixes (spec/30_encoding.md R75, R79, R80). -/

namespace Sys2Proof.Laws.OpcodeRow

/-- The bits a row fixes. -/
inductive RowBits where
  /-- a CMD row: OP -/
  | op (code : BitVec 4)
  /-- a TS_HEADER row: AFC, and S where the row fixes it -/
  | header (afc : BitVec 2) (pusi : Option Bool)
  /-- a PES_STREAM_ID row: the byte at offset 3 of the PES header that begins at packet offset `off` -/
  | streamId (off : Nat) (sid : Byte)
  deriving DecidableEq, Repr

/-- The row of each instruction; SID_EXTENDED fixes no bit, and its stream-id is its operand. -/
def rowBits : Instr → RowBits
  | .nop => .op 0x0
  | .absorb _ => .op 0x1
  | .wrreg _ _ => .op 0x2
  | .rdreg _ => .op 0x3
  | .eos _ => .op 0x4
  | .reserved5 => .op 0x5
  | .reserved6 => .op 0x6
  | .reserved7 => .op 0x7
  | .reserved8 => .op 0x8
  | .reserved9 => .op 0x9
  | .reservedA => .op 0xA
  | .reservedB => .op 0xB
  | .reservedC => .op 0xC
  | .reservedD => .op 0xD
  | .reservedE => .op 0xE
  | .reservedF => .op 0xF
  | .tsAfcReserved _ _ _ => .header 0 none
  | .tsPayloadStart _ _ => .header 1 (some true)
  | .tsPayloadCont _ _ => .header 1 (some false)
  | .tsAfOnly _ _ _ => .header 2 none
  | .tsAfPayloadStart _ _ => .header 3 (some true)
  | .tsAfPayloadCont _ _ => .header 3 (some false)
  | .sidExclBC q => .streamId (4 + q.afSize) 0xBC
  | .sidExclBE q => .streamId (4 + q.afSize) 0xBE
  | .sidExclBF q => .streamId (4 + q.afSize) 0xBF
  | .sidExclF0 q => .streamId (4 + q.afSize) 0xF0
  | .sidExclF1 q => .streamId (4 + q.afSize) 0xF1
  | .sidExclF2 q => .streamId (4 + q.afSize) 0xF2
  | .sidExclF8 q => .streamId (4 + q.afSize) 0xF8
  | .sidExclFF q => .streamId (4 + q.afSize) 0xFF
  | .sidExtended sid q => .streamId (4 + q.afSize) sid

/-- The transaction shows these bits. -/
def Shows (t : Txn) : RowBits → Prop
  | .op code => opField t.word = code
  | .header afc pusi => ∃ p, t.packet? = some p ∧ p.afc = afc ∧ ∀ u, pusi = some u → p.pusi = u
  | .streamId off sid => ∃ p, t.packet? = some p ∧ p.pusi = true ∧ p.byte (off + 3) = sid

/-- The family's statement. -/
def Statement (i : Instr) : Prop := i.wellFormed = true → Shows (encode i) (rowBits i)

theorem shows_header (f : TsFields) (u : Bool) (a : BitVec 2) (b : Body) (s : Option Bool)
    (h : ∀ v, s = some v → u = v) : Shows (absorbTxn (f.packet u a b)) (.header a s) :=
  ⟨_, absorbTxn_packet? _, TsFields.packet_afc .., fun v hv => (TsFields.packet_pusi ..).trans (h v hv)⟩

theorem shows_streamId {q : PesStart} (h : q.fits = true) (sid : Byte) :
    Shows (absorbTxn (q.packet sid)) (.streamId (4 + q.afSize) sid) := by
  refine ⟨_, absorbTxn_packet? _, ?_, by rw [PesStart.packet_byte h]; rfl⟩
  have h1 : (q.packet sid).byte 1 =
      BitVec.ofBool q.ts.tei ++ BitVec.ofBool true ++ BitVec.ofBool q.ts.tp ++ q.ts.pid.extractLsb' 8 5 := by
    rw [Packet.byte, PesStart.packet_val h]; rfl
  rw [Packet.pusi, h1]; exact (byte1_fields ..).2.1

theorem nop : Statement .nop := fun _ => opField_commandWord ..
theorem absorb (p : Packet) : Statement (.absorb p) := fun _ => opField_commandWord ..
theorem wrreg (index : BitVec 8) (v : Word) : Statement (.wrreg index v) := fun _ => opField_commandWord ..
theorem rdreg (index : BitVec 8) : Statement (.rdreg index) := fun _ => opField_commandWord ..
theorem eos (ch : BitVec 4) : Statement (.eos ch) := fun _ => opField_commandWord ..
theorem reserved5 : Statement .reserved5 := fun _ => opField_commandWord ..
theorem reserved6 : Statement .reserved6 := fun _ => opField_commandWord ..
theorem reserved7 : Statement .reserved7 := fun _ => opField_commandWord ..
theorem reserved8 : Statement .reserved8 := fun _ => opField_commandWord ..
theorem reserved9 : Statement .reserved9 := fun _ => opField_commandWord ..
theorem reservedA : Statement .reservedA := fun _ => opField_commandWord ..
theorem reservedB : Statement .reservedB := fun _ => opField_commandWord ..
theorem reservedC : Statement .reservedC := fun _ => opField_commandWord ..
theorem reservedD : Statement .reservedD := fun _ => opField_commandWord ..
theorem reservedE : Statement .reservedE := fun _ => opField_commandWord ..
theorem reservedF : Statement .reservedF := fun _ => opField_commandWord ..

theorem tsAfcReserved (u : Bool) (f : TsFields) (b : Body) : Statement (.tsAfcReserved u f b) :=
  fun _ => shows_header _ _ _ _ _ (fun _ h => nomatch h)
theorem tsPayloadStart (f : TsFields) (b : Body) : Statement (.tsPayloadStart f b) :=
  fun _ => shows_header _ _ _ _ _ (fun _ h => Option.some.inj h)
theorem tsPayloadCont (f : TsFields) (b : Body) : Statement (.tsPayloadCont f b) :=
  fun _ => shows_header _ _ _ _ _ (fun _ h => Option.some.inj h)
theorem tsAfOnly (u : Bool) (f : TsFields) (b : Body) : Statement (.tsAfOnly u f b) :=
  fun _ => shows_header _ _ _ _ _ (fun _ h => nomatch h)
theorem tsAfPayloadStart (f : TsFields) (b : Body) : Statement (.tsAfPayloadStart f b) :=
  fun _ => shows_header _ _ _ _ _ (fun _ h => Option.some.inj h)
theorem tsAfPayloadCont (f : TsFields) (b : Body) : Statement (.tsAfPayloadCont f b) :=
  fun _ => shows_header _ _ _ _ _ (fun _ h => Option.some.inj h)

theorem sidExclBC (q : PesStart) : Statement (.sidExclBC q) := fun h => shows_streamId h _
theorem sidExclBE (q : PesStart) : Statement (.sidExclBE q) := fun h => shows_streamId h _
theorem sidExclBF (q : PesStart) : Statement (.sidExclBF q) := fun h => shows_streamId h _
theorem sidExclF0 (q : PesStart) : Statement (.sidExclF0 q) := fun h => shows_streamId h _
theorem sidExclF1 (q : PesStart) : Statement (.sidExclF1 q) := fun h => shows_streamId h _
theorem sidExclF2 (q : PesStart) : Statement (.sidExclF2 q) := fun h => shows_streamId h _
theorem sidExclF8 (q : PesStart) : Statement (.sidExclF8 q) := fun h => shows_streamId h _
theorem sidExclFF (q : PesStart) : Statement (.sidExclFF q) := fun h => shows_streamId h _
theorem sidExtended (sid : Byte) (q : PesStart) : Statement (.sidExtended sid q) := fun h =>
  shows_streamId (Bool.and_eq_true_iff.1 h).1 _

end Sys2Proof.Laws.OpcodeRow
end

