-- ==== Sys2Proof/Machine/PseudoCommands.lean ====
section
/-! DEFINITION. The pseudo-commands of the textual form (spec/30_encoding.md R90): shorthands for the commands they expand to. No
step reads them. -/

namespace Sys2Proof.Machine

/-- The index of the register at offset `off` of channel `c`'s group (10_state.md R30). -/
def channelIndex (c : BitVec 4) (off : Nat) : BitVec 8 := BitVec.ofNat 8 (0x10 + 8 * c.toNat + off)

/-- `CFG c, pid=p, en=e, mp=m, sp=s` (R90). -/
def cfgCommand (c : BitVec 4) (pid : BitVec 13) (en mp sp : Bool) : Instr :=
  .wrreg (channelIndex c 0)
    ((0 : BitVec 13) ++ BitVec.ofBool sp ++ BitVec.ofBool mp ++ BitVec.ofBool en ++ (0 : BitVec 3) ++ pid)

/-- `RDSTATUS c` (R90). -/
def rdStatusCommand (c : BitVec 4) : Instr := .rdreg (channelIndex c 1)

/-- `PKT pid=p, s=u, afc=a, cc=n, tei=t, tp=r, tsc=z : <bytes>`; refused unless there are exactly 184 bytes (R90). The sync byte is
0x47 whatever `f` holds. -/
def pktCommand (f : TsFields) (pusi : Bool) (afc : BitVec 2) (bytes : List Byte) : Option Instr :=
  if h : bytes.length = 184 then some (.absorb ({ f with sync := 0x47 }.packet pusi afc ⟨bytes, h⟩)) else none

end Sys2Proof.Machine
end

