-- ==== Sys2Proof/Tests/Slice0.lean ====
section
/-! SUPPORT. The model's own tests. Expected values come from the spec: the encodings of spec/30_encoding.md written out bit by
bit, the vectors of 95_test_vectors.md, or a hand calculation from the rule named. The last part shows, for each statement
with hypotheses, a state and operands that meet them. -/

namespace Sys2Proof.Tests

open Sys2Proof.Machine

-- one theorem after another: each check in a thread of its own asks for more memory than the whole file needs
set_option Elab.async false

/-! ## Helpers -/

/-- The packet "start, unbounded" of 95_test_vectors.md, with its continuity counter. -/
def start (cc : BitVec 4) : Packet :=
  Packet.ofList [0x47, 0x41, 0x00, (1 : BitVec 4) ++ cc, 0x00, 0x00, 0x01, 0xE0, 0x00, 0x00, 0x80, 0x00, 0x00]

/-- A start packet of PID 0x100 without an adaptation field: counter, start code's last byte, PES-packet-length, HDL. -/
def startOf (cc : BitVec 4) (code : Byte) (lenHi lenLo hdl : Byte) : Packet :=
  Packet.ofList [0x47, 0x41, 0x00, (1 : BitVec 4) ++ cc, 0x00, 0x00, code, 0xE0, lenHi, lenLo, 0x80, 0x00, hdl]

/-- A continuation of PID 0x100, 184 zero bytes. -/
def cont (cc : BitVec 4) : Packet := Packet.ofList [0x47, 0x01, 0x00, (1 : BitVec 4) ++ cc]

/-- A packet of PID 0x100 with an adaptation field of length `l`: S and AFC in the header bytes, then `rest` behind the field. -/
def afPacket (b1 b3 l : Byte) (rest : List Byte) : Packet :=
  Packet.ofList ([0x47, b1, 0x00, b3, l] ++ List.replicate l.toNat 0 ++ rest)

/-- V8's packet: a PES of 9 bytes that ends in its start packet (95_test_vectors.md 2.4). -/
def v8 : Packet := afPacket 0x41 0x30 0xAE [0x00, 0x00, 0x01, 0xE0, 0x00, 0x03, 0x80, 0x00, 0x00]

/-- V20's elementary bytes, 00 to 0F. -/
def v20Bytes : List Byte := [0, 1, 2, 3, 4, 5, 6, 7, 8, 9, 10, 11, 12, 13, 14, 15]

/-- V20's packet: a padding-stream PES of 22 bytes that ends in its start packet. -/
def v20 : Packet := afPacket 0x41 0x30 0xA1 ([0x00, 0x00, 0x01, 0xBE, 0x00, 0x10] ++ v20Bytes)

/-- Channel 0 of the vectors: PID 0x100, enabled, both policies 0. -/
def channel : Channel := { Channel.reset with en := true, targetPid := 0x100 }

/-- A lane whose sink answers `ok` to its next three calls. -/
def laneOf (ch : Channel) : Lane := { Lane.reset with ch := ch, replies := [some .ok, some .ok, some .ok] }

/-- The same with a sink that answers `err` to its next call, `got` reaching it. -/
def failing (l : Lane) (got : List SinkItem) : Lane := { l with replies := [some (.err got)] }

/-- A machine of one channel with the smallest buffer. -/
def machine (l : Lane) : State := { State.resetWith 1 65535 with lanes := [l] }

/-- A machine of `n` channels, each like the lane. -/
def machines (n : Nat) (l : Lane) : State := { State.resetWith n 65535 with lanes := List.replicate n l }

/-- The lane after a packet. -/
def after (p : Packet) (l : Lane) : Lane :=
  match absorbLane 65535 0 p 0 l with
  | .ok l' => l'
  | .error _ => l

/-- Whether a step answered a next state. -/
def isNext (o : Host.Outcome State Fault Refusal) : Bool :=
  match o with
  | .next _ => true
  | _ => false

/-- The next state of a step, where it answered one. -/
def nextOf (o : Host.Outcome State Fault Refusal) : State :=
  match o with
  | .next s => s
  | _ => State.reset

theorem next_eq {o : Host.Outcome State Fault Refusal} (h : isNext o = true) : o = .next (nextOf o) := by
  cases o <;> first | rfl | cases h

/-- One transaction on a machine of one channel. -/
def sent (t : Txn) (l : Lane) : State := nextOf (step { machine l with hostIn := [.txn t] })

/-- One instruction on a machine of one channel. -/
def did (i : Instr) (l : Lane) : State := nextOf (exec i (machine l))

/-- A field of channel 0's lane. -/
def lane0 (s : State) : Lane := s.lanes.headD Lane.reset

/-- The channel's lane after its last packet: W3, W2 and W4 of the event, STATUS, WOFF. -/
def shows (l : Lane) : List Word :=
  match l.events.getLast? with
  | some e => [e.w3, e.w2, e.w4, l.ch.statusWord, l.ch.woff]
  | none => []

/-- Idle and enabled; the lane before a PES. -/
def idle : Lane := laneOf channel

/-- An unbounded PES with 175 bytes in ACC and counter 0. -/
def open0 : Lane := after (start 0) idle

/-- A bounded PES of 200 elementary bytes, 175 of them in ACC, counter 0 (V4's first packet). -/
def bounded0 : Lane := after (startOf 0 0x01 0x00 0xCB 0x00) idle

/-! ## Decoding: words written out from the encodings -/

theorem test_decode_commands :
    decodeCommand ⟨0b00000000000000000000000000000000, .nothing⟩ = .ok .nop ∧
    decodeCommand ⟨0b00000000000000000000000000000001, .packet (start 0).val⟩ = .ok (.absorb (start 0)) ∧
    decodeCommand ⟨0b00000000000000000001000000000010, .word 0x00010100⟩ = .ok (.wrreg 0x10 0x00010100) ∧
    decodeCommand ⟨0b00000000000000000001000100000011, .nothing⟩ = .ok (.rdreg 0x11) ∧
    decodeCommand ⟨0b00000000000000000000000011110100, .nothing⟩ = .ok (.eos 15) := by decide +kernel

theorem test_decode_reserved :
    decodeCommand ⟨0b0101, .nothing⟩ = .ok .reserved5 ∧ decodeCommand ⟨0b0110, .nothing⟩ = .ok .reserved6 ∧
    decodeCommand ⟨0b0111, .nothing⟩ = .ok .reserved7 ∧ decodeCommand ⟨0b1000, .nothing⟩ = .ok .reserved8 ∧
    decodeCommand ⟨0b1001, .nothing⟩ = .ok .reserved9 ∧ decodeCommand ⟨0b1010, .nothing⟩ = .ok .reservedA ∧
    decodeCommand ⟨0b1011, .nothing⟩ = .ok .reservedB ∧ decodeCommand ⟨0b1100, .nothing⟩ = .ok .reservedC ∧
    decodeCommand ⟨0b1101, .nothing⟩ = .ok .reservedD ∧ decodeCommand ⟨0b1110, .nothing⟩ = .ok .reservedE ∧
    decodeCommand ⟨0b1111, .nothing⟩ = .ok .reservedF := by decide +kernel

theorem test_decode_wrong_data :
    decodeCommand ⟨1, .packet (List.replicate 187 0)⟩ = .error .packetNot188 ∧
    decodeCommand ⟨1, .packet (List.replicate 189 0)⟩ = .error .packetNot188 ∧
    decodeCommand ⟨2, .nothing⟩ = .error .dataWordMissing ∧ decodeCommand ⟨0, .word 0⟩ = .error .unexpectedData := by
  decide +kernel

/-- The body of a packet whose bytes behind the TS header are zero. -/
def zeroBody : Body := ⟨List.replicate 184 0, by rfl⟩

/-- R70's fields bit by bit: sync, TEI, S, TP, PID, TSC, AFC, CC. -/
theorem test_decode_packet_classes :
    decodePacket (headerPacket 0b01000111_1_1_0_0000000000001_01_00_0011) =
      .tsAfcReserved true ⟨0x47, true, false, 1, 1, 3⟩ zeroBody ∧
    decodePacket (headerPacket 0b01000111_0_1_0_0000010001000_00_01_0000) =
      .tsPayloadStart ⟨0x47, false, false, 136, 0, 0⟩ zeroBody ∧
    decodePacket (headerPacket 0b01000111_0_0_1_1000000000000_10_01_1000) =
      .tsPayloadCont ⟨0x47, false, true, 4096, 2, 8⟩ zeroBody ∧
    decodePacket (headerPacket 0b01000111_1_0_1_0000100000000_00_10_1111) =
      .tsAfOnly false ⟨0x47, true, true, 256, 0, 15⟩ zeroBody ∧
    decodePacket (headerPacket 0b11111111_1_1_1_1111111111111_11_11_1111) =
      .tsAfPayloadStart ⟨0xFF, true, true, 8191, 3, 15⟩ zeroBody ∧
    decodePacket (headerPacket 0b01000111_0_0_0_1111111111111_11_11_1111) =
      .tsAfPayloadCont ⟨0x47, false, false, 8191, 3, 15⟩ zeroBody := by decide +kernel

/-- The start packet of the stream-id tests: bytes 00 00 01 sid 00 B2, then 178 zero bytes. -/
def sidPacket (sid : Byte) : Packet := Packet.ofList [0x47, 0x41, 0x00, 0x10, 0x00, 0x00, 0x01, sid, 0x00, 0xB2]

/-- Its operands: everything but the stream-id. -/
def sidStart : PesStart where
  ts := ⟨0x47, false, false, 0x100, 0, 0⟩
  af := none
  startCode := 1
  len := 178
  tail := List.replicate 178 0

theorem test_decode_stream_ids :
    decodeStreamId (sidPacket 0b10111100) = .ok (.sidExclBC sidStart) ∧
    decodeStreamId (sidPacket 0b10111110) = .ok (.sidExclBE sidStart) ∧
    decodeStreamId (sidPacket 0b10111111) = .ok (.sidExclBF sidStart) ∧
    decodeStreamId (sidPacket 0b11110000) = .ok (.sidExclF0 sidStart) ∧
    decodeStreamId (sidPacket 0b11110001) = .ok (.sidExclF1 sidStart) ∧
    decodeStreamId (sidPacket 0b11110010) = .ok (.sidExclF2 sidStart) ∧
    decodeStreamId (sidPacket 0b11111000) = .ok (.sidExclF8 sidStart) ∧
    decodeStreamId (sidPacket 0b11111111) = .ok (.sidExclFF sidStart) ∧
    decodeStreamId (sidPacket 0b11100000) = .ok (.sidExtended 0xE0 sidStart) := by decide +kernel

/-- A stream-id is there when six payload bytes are: adaptation-field length 177, not 178 (R74). -/
theorem test_decode_stream_id_boundary :
    decodeStreamId (afPacket 0x41 0x30 177 [0x00, 0x00, 0x01, 0xE0, 0x12, 0x34]) =
      .ok (.sidExtended 0xE0 ⟨⟨0x47, false, false, 0x100, 0, 0⟩, some (List.replicate 177 0), 1, 0x1234, []⟩) ∧
    decodeStreamId (afPacket 0x41 0x30 178 []) = .error .noStreamId ∧
    decodeStreamId (cont 0) = .error .noStreamId := by decide +kernel

/-- The table's match words, in the host's numbering. -/
theorem test_table_words :
    decodeTableWord 8 0x04 = some (.eos 0) ∧ decodeTableWord 24 0x400010 = some (.tsPayloadStart ⟨0, false, false, 0, 0, 0⟩ zeroBody) ∧
    decodeTableWord 8 0x20 = some (.tsAfOnly false ⟨0, false, false, 0, 0, 0⟩ zeroBody) ∧
    decodeTableWord 8 0xBC = some (.sidExclBC zeroPesStart) ∧
    decodeTableWord 8 0xE0 = some (.sidExtended 0xE0 zeroPesStart) := by decide +kernel

/-- R90, with the words of program 4's first two lines and program 2's second: each expands to its command. -/
theorem test_pseudo_commands :
    cfgCommand 0 0x42 true true false = .wrreg 0x10 0x00030042 ∧ cfgCommand 1 0x42 true false true = .wrreg 0x18 0x00050042 ∧
    rdStatusCommand 15 = .rdreg 0x89 ∧
    pktCommand ⟨0, false, false, 0x1E1, 0, 10⟩ true 1 (List.replicate 184 0) =
      some (.absorb (Packet.ofList [0x47, 0x41, 0xE1, 0x1A])) ∧
    pktCommand ⟨0, false, false, 0x1E1, 0, 10⟩ true 1 (List.replicate 183 0) = none := by decide +kernel

/-- A table word of each format placed at reset is taken by the next step. -/
theorem test_fetch_runs_the_word :
    isNext (step (State.reset.withFetchWord 8 0x0)) = true ∧
    (nextOf (step (State.reset.withFetchWord 24 0x400010))).pktIndex = 1 ∧
    (nextOf (step (State.reset.withFetchWord 8 0xBC))).pktIndex = 1 := by decide +kernel

/-! ## Ill-formed terms -/

/-- A start packet one byte short, and one byte long, is refused; a complete one is not. -/
theorem test_ill_formed_length :
    (Instr.sidExclBC { sidStart with tail := List.replicate 177 0 }).wellFormed = false ∧
    (Instr.sidExtended 0xE0 { sidStart with tail := List.replicate 179 0 }).wellFormed = false ∧
    (Instr.sidExtended 0xE0 { sidStart with af := some [0] }).wellFormed = false ∧
    (Instr.sidExtended 0xE0 { sidStart with af := some [0], tail := List.replicate 176 0 }).wellFormed = true := by
  decide +kernel

/-- The row SID_EXTENDED holds no stream-id that has a row of its own. -/
theorem test_ill_formed_stream_id :
    (Instr.sidExtended 0xBC sidStart).wellFormed = false ∧ (Instr.sidExtended 0xFF sidStart).wellFormed = false ∧
    (Instr.sidExclFF sidStart).wellFormed = true := by decide +kernel

/-! ## Steps: host commands (95_test_vectors.md 2.5) -/

/-- H2. -/
theorem test_nop : sent ⟨0x0000FFF0, .nothing⟩ open0 = { machine open0 with responses := [⟨0, none⟩] } := by decide +kernel

/-- H3, H4 and the other reserved commands: ILLEGAL. -/
theorem test_reserved :
    [5, 6, 7, 8, 9, 10, 11, 12, 13, 14, 0xFFFF000F].map (fun w => (sent ⟨w, .nothing⟩ open0).responses) =
      List.replicate 11 [⟨1, none⟩] := by decide +kernel

/-- H10: CTRL reads 0x00071FFF, STATUS 0, and the sink gets nothing. -/
theorem test_wrreg_ctrl :
    (sent ⟨0x00001002, .word 0xFFFFFFFF⟩ open0).readReg 0x10 = 0x00071FFF ∧
    (sent ⟨0x00001002, .word 0xFFFFFFFF⟩ open0).readReg 0x11 = 0 ∧
    (lane0 (sent ⟨0x00001002, .word 0xFFFFFFFF⟩ open0)).sink = [] := by decide +kernel

/-- H8, H11: a write to a read-only register does nothing. -/
theorem test_wrreg_read_only :
    sent ⟨0x00001102, .word 0x12345678⟩ open0 = { machine open0 with responses := [⟨0, none⟩] } ∧
    (sent ⟨0x00000102, .word 0⟩ open0).pktIndex = 0 := by decide +kernel

/-- H5, H6, H7, H9. -/
theorem test_rdreg_global :
    [0x00000003, 0x00000203, 0x00000103, 0x00000503].map (fun w => (sent ⟨w, .nothing⟩ idle).responses) =
      [[⟨0, some 1⟩], [⟨0, some 0xFFFF⟩], [⟨0, some 0⟩], [⟨0, some 0⟩]] := by decide +kernel

/-- The five registers of a channel with a bounded PES of stream-id 0xE0 in progress (R33 to R37). -/
theorem test_rdreg_channel :
    [0x00001003, 0x00001103, 0x00001203, 0x00001303, 0x00001403].map (fun w => (sent ⟨w, .nothing⟩ bounded0).responses) =
      [[⟨0, some 0x00010100⟩], [⟨0, some 0x00400207⟩], [⟨0, some 175⟩], [⟨0, some 200⟩], [⟨0, some 0x0000CBE0⟩]] := by
  decide +kernel

/-- H13, H14: Idle, only Close; an unbounded PES in progress, its burst, the marker and Close. -/
theorem test_eos :
    (lane0 (sent ⟨4, .nothing⟩ { idle with ch := { channel with ccValid := true } })).sink = [.close] ∧
    (lane0 (sent ⟨4, .nothing⟩ open0)).sink = [.bytes (List.replicate 175 0), .endOfPes, .close] ∧
    (lane0 (sent ⟨4, .nothing⟩ open0)).ch.ccValid = false := by decide +kernel

/-- H12, V28: a channel that does not exist, and a sink that answers err to the flush. -/
theorem test_eos_illegal_and_error :
    (sent ⟨0x34, .nothing⟩ idle).responses = [⟨1, none⟩] ∧
    (sent ⟨4, .nothing⟩ (failing open0 [])).responses = [⟨2, none⟩] ∧
    (lane0 (sent ⟨4, .nothing⟩ (failing open0 []))).ch.statusWord = 0x00400208 := by decide +kernel

/-! ## Steps: packets (95_test_vectors.md 2.4) -/

/-- V1 and V14, as ABSORB transactions. -/
theorem test_absorb :
    shows (lane0 (sent (absorbTxn (cont 0)) (after (start 15) idle))) = [0x000, 0x00180000, 0, 0x00000305, 359] ∧
    shows (lane0 (sent (absorbTxn (start 7)) (after (start 4) idle))) =
      [0xC01, 0x000C0000, 0x000000E0, 0x00C01175, 175] := by decide +kernel

/-- V23: another PID; V24 and V25: a sink error, and a packet behind it. -/
theorem test_absorb_gates :
    shows (after (Packet.ofList [0x47, 0x00, 0x00, 0x20, 0xB7, 0x10]) idle) = [0x000, 0x000310B7, 0, 0, 0] ∧
    shows (after (start 1) (failing open0 [])) = [0x200, 0x00280000, 0, 0x0020051C, 0] ∧
    shows (after (cont 2) (after (start 1) (failing open0 []))) = [0, 0x00280000, 0, 0x0020051C, 0] := by decide +kernel

/-- V11, AFC 00 with S = 1 on an Idle channel. -/
theorem test_tsAfcReserved :
    shows (lane0 (did (.tsAfcReserved true ⟨0x47, false, false, 0x100, 0, 0⟩ (start 0).body) idle)) =
      [0x004, 0x00180000, 0, 0x00004304, 0] := by decide +kernel

/-- V3 and V9. -/
theorem test_tsPayloadStart :
    shows (lane0 (did (.tsPayloadStart ⟨0x47, false, false, 0x100, 0, 0⟩ (startOf 0 1 0 0x83 0).body) idle)) =
      [0x010, 0x000C0000, 0x000083E0, 0x00010104, 0] ∧
    shows (lane0 (did (.tsPayloadStart ⟨0x47, false, false, 0x100, 0, 1⟩ (start 1).body) bounded0)) =
      [0xD00, 0x00140000, 0x000000E0, 0x00D00215, 175] := by decide +kernel

/-- V4 and V13. -/
theorem test_tsPayloadCont :
    shows (lane0 (did (.tsPayloadCont ⟨0x47, false, false, 0x100, 0, 1⟩ zeroBody) bounded0)) =
      [0x810, 0x00080000, 0, 0x00810114, 0] ∧
    shows (lane0 (did (.tsPayloadCont ⟨0x47, false, false, 0x100, 0, 0⟩ zeroBody) idle)) =
      [0x008, 0x00080000, 0, 0x00008104, 0] := by decide +kernel

/-- V12 and V17. -/
theorem test_tsAfOnly :
    shows (lane0 (did (.tsAfOnly true ⟨0x47, false, false, 0x100, 0, 1⟩ (Packet.ofList [0, 0, 0, 0, 0xB7, 0x10]).body) open0)) =
      [0x004, 0x001B10B7, 0, 0x00004315, 175] ∧
    shows (lane0 (did (.tsAfOnly false ⟨0x47, false, false, 0x100, 0, 2⟩ (Packet.ofList [0, 0, 0, 0, 0xFF]).body) idle)) =
      [0x002, 0x000B00FF, 0, 0x00002124, 0] := by decide +kernel

/-- V8 and V18. -/
theorem test_tsAfPayloadStart :
    shows (lane0 (did (.tsAfPayloadStart ⟨0x47, false, false, 0x100, 0, 0⟩ v8.body) idle)) =
      [0x600, 0x002700AE, 0x000003E0, 0x00600404, 0] ∧
    shows (lane0 (did (.tsAfPayloadStart ⟨0x47, false, false, 0x100, 0, 1⟩ (afPacket 0 0 0xB4 [0, 0, 1]).body) open0)) =
      [0x240, 0x000B00B4, 0, 0x00240114, 0] := by decide +kernel

/-- V16, and program 1's second packet: L 158, 25 bytes that complete the PES. -/
theorem test_tsAfPayloadCont :
    shows (lane0 (did (.tsAfPayloadCont ⟨0x47, false, false, 0x100, 0, 9⟩ (Packet.ofList [0, 0, 0, 0, 1, 0x80]).body)
      (after (start 3) idle))) = [0x801, 0x000B8001, 0, 0x00801194, 0] ∧
    shows (lane0 (did (.tsAfPayloadCont ⟨0x47, false, false, 0x100, 0, 1⟩ (afPacket 0 0 0x9E []).body) bounded0)) =
      [0x200, 0x0027009E, 0x0000CBE0, 0x00200414, 0] := by decide +kernel

/-- A start packet of four payload bytes behind the six of its PES header. -/
def sidShort : PesStart :=
  { sidStart with af := some (List.replicate 173 0), len := 4, tail := [1, 2, 3, 4] }

/-- R143, R146, R147, R188: under an excluded stream-id the header has 6 bytes, so PES-packet-length 4 is the 4 bytes behind it and
the PES is complete at once. The row's stream-id reaches PESHDR (R37, R187). -/
theorem test_sidExcl :
    [Instr.sidExclBC sidShort, .sidExclBE sidShort, .sidExclBF sidShort, .sidExclF0 sidShort, .sidExclF1 sidShort,
      .sidExclF2 sidShort, .sidExclF8 sidShort, .sidExclFF sidShort].map (fun i =>
        ((lane0 (did i idle)).sink, (did i idle).readReg 0x14)) =
      [0x000004BC, 0x000004BE, 0x000004BF, 0x000004F0, 0x000004F1, 0x000004F2, 0x000004F8, 0x000004FF].map (fun w =>
        ([.bytes [1, 2, 3, 4], .endOfPes], w)) := by decide +kernel

/-- R144, R146, R188: an extended stream-id with HDL 5 skips 14 bytes, so 170 elementary bytes complete the PES of 178. -/
theorem test_sidExtended :
    (lane0 (did (.sidExtended 0xE0 { sidStart with tail := [0x80, 0x80, 5] ++ List.replicate 175 0xAA }) idle)).sink =
      [.bytes (List.replicate 170 0xAA), .endOfPes] ∧
    (did (.sidExtended 0xE0 { sidStart with tail := [0x80, 0x80, 5] ++ List.replicate 175 0xAA }) idle).readReg 0x14 =
      0x0500B2E0 := by decide +kernel

/-- V20, from its bytes. -/
theorem test_v20 :
    shows (after v20 idle) = [0x600, 0x002700A1, 0x000010BE, 0x00600404, 0] ∧
    (after v20 idle).sink = [.bytes v20Bytes, .endOfPes] := by decide +kernel

/-- R290, R40: a reset between transactions leaves the reset registers, and the streams empty. -/
theorem test_reset :
    (let t := nextOf (step { machine open0 with responses := [{ status := 0, data := none }], hostIn := [.reset] })
     open0.events.length = 1 ∧ t.responses = [] ∧ (lane0 t).sink = [] ∧ (lane0 t).events = []) ∧
    (nextOf (step { machine open0 with pktIndex := 7, hostIn := [.reset] })).readReg 0x11 = 0 ∧
    (nextOf (step { machine open0 with pktIndex := 7, hostIn := [.reset] })).readReg 0x01 = 0 := by decide +kernel

/-- R291: a reset in the flush of V14's kind may leave the burst without its marker. -/
theorem test_reset_during :
    (lane0 (nextOf (step { machine open0 with hostIn := [.resetDuring (absorbTxn (start 1)) [⟨1, 0, 1⟩] 0] }))).sink =
      [.bytes (List.replicate 175 0)] ∧
    (lane0 (nextOf (step { machine open0 with hostIn := [.resetDuring (absorbTxn (start 1)) [⟨1, 0, 1⟩] 0] }))).ch =
      Channel.reset := by decide +kernel

/-- R297: a sink that never answers is where the machine is stuck. -/
theorem test_silent_sink :
    isNext (step { machine { open0 with replies := [none] } with hostIn := [.txn ⟨4, .nothing⟩] }) = false := by
  decide +kernel

/-! ## Witnesses: for each statement with hypotheses, a state and operands that meet them, clause by clause -/

theorem witness_UnusedCommandBitsAreIgnored :
    ((0x0000FFF0 : Word).extractLsb' 0 4 = (0xABCD0000 : Word).extractLsb' 0 4) ∧
    ((0xFFFF05F3 : Word).extractLsb' 0 4 = (0x00000503 : Word).extractLsb' 0 4 ∧
      ((0xFFFF05F3 : Word).extractLsb' 0 4).toNat = 3 ∧
      (0xFFFF05F3 : Word).extractLsb' 8 8 = (0x00000503 : Word).extractLsb' 8 8) ∧
    ((0xFFFFFF34 : Word).extractLsb' 0 4 = (0x00000034 : Word).extractLsb' 0 4 ∧
      ((0xFFFFFF34 : Word).extractLsb' 0 4).toNat = 4 ∧
      (0xFFFFFF34 : Word).extractLsb' 4 4 = (0x00000034 : Word).extractLsb' 4 4) := by decide +kernel

theorem witness_DecodeOfEncodeIsTheInstruction :
    [Instr.nop, .absorb (start 0), .wrreg 0xFF 0xFFFFFFFF, .rdreg 0xFF, .eos 15, .reservedF, .tsAfOnly true ⟨0, true, true, 8191, 3, 15⟩ zeroBody,
      .sidExclBC sidStart, .sidExtended 0xE0 { sidStart with af := some (List.replicate 177 0), tail := [] }].all
      Instr.wellFormed = true := by decide +kernel

/-- Each class of R79, with L at 183 and at 184 where it is read. -/
theorem witness_PacketClassFixesThePayloadLength :
    ((hdrDecode (headerPacket 0x47400100)).word &&& 0x00000030 = 0x00000000) ∧
    ((hdrDecode (start 0)).word &&& 0x00400030 = 0x00400010) ∧
    ((hdrDecode (cont 0)).word &&& 0x00400030 = 0x00000010) ∧
    ((hdrDecode (afPacket 0x41 0x20 183 [])).word &&& 0x00000030 = 0x00000020) ∧
    ((hdrDecode (afPacket 0x41 0x30 183 [])).word &&& 0x00400030 = 0x00400030) ∧
    ((hdrDecode (afPacket 0x01 0x30 184 [])).word &&& 0x00400030 = 0x00000030) := by decide +kernel

theorem witness_AdaptationFieldIsDecoded :
    ((hdrDecode (headerPacket 0x47010000)).afc = 0 ∧ (hdrDecode (cont 0)).afc = 1) ∧
    ((hdrDecode (afPacket 0x01 0x20 0 [])).afc = 2 ∧ (afPacket 0x01 0x20 0 []).byte 4 = 0) ∧
    ((hdrDecode (afPacket 0x01 0x30 1 [])).afc = 3 ∧ (afPacket 0x01 0x30 1 []).byte 4 ≠ 0) := by decide +kernel

theorem witness_GeometryFollowsTheTable :
    (headerPacket 0x47010000).afc = 0 ∧ (cont 0).afc = 1 ∧
    ((afPacket 0x01 0x20 183 []).afc = 2 ∧ ((afPacket 0x01 0x20 183 []).byte 4).toNat = 183) ∧
    ((afPacket 0x01 0x20 184 []).afc = 2 ∧ ((afPacket 0x01 0x20 184 []).byte 4).toNat = 184) ∧
    ((afPacket 0x01 0x30 182 []).afc = 3 ∧ ((afPacket 0x01 0x30 182 []).byte 4).toNat = 182) ∧
    ((afPacket 0x01 0x30 183 []).afc = 3 ∧ ((afPacket 0x01 0x30 183 []).byte 4).toNat = 183) ∧
    ((afPacket 0x01 0x30 184 []).afc = 3 ∧ ((afPacket 0x01 0x30 184 []).byte 4).toNat = 184) := by decide +kernel

/-- Payload lengths 5, 6, 8 and 9 under an extended stream-id, 6 under an excluded one. -/
theorem witness_PesHeaderIsDecoded :
    (afPacket 0x41 0x30 178 []).geometry.plen = 5 ∧
    ((afPacket 0x41 0x30 177 [0, 0, 1, 0xBC]).geometry = ⟨182, 6, false⟩ ∧
      (pesDecode (afPacket 0x41 0x30 177 [0, 0, 1, 0xBC]) 182 6).sid ∈ exclSids) ∧
    ((afPacket 0x41 0x30 175 [0, 0, 1, 0xE0]).geometry = ⟨180, 8, false⟩ ∧
      (pesDecode (afPacket 0x41 0x30 175 [0, 0, 1, 0xE0]) 180 8).sid ∉ exclSids) ∧
    (v8.geometry = ⟨179, 9, false⟩ ∧ (pesDecode v8 179 9).sid ∉ exclSids) := by decide +kernel

/-- The rows of 95_test_vectors.md 2.3: truncated, too short a length, a bad start code under each policy, accepted. -/
theorem witness_PesCheckGivesTheVerdict :
    (pesDecode (start 0) 4 5).trunc = true ∧
    ((pesDecode (startOf 0 1 0 2 0) 4 184).trunc = false ∧ (pesDecode (startOf 0 1 0 2 0) 4 184).len ≠ 0 ∧
      (pesDecode (startOf 0 1 0 2 0) 4 184).len.toNat + 6 < (pesDecode (startOf 0 1 0 2 0) 4 184).hs) ∧
    ((pesDecode (startOf 0 2 0 0 0) 4 184).trunc = false ∧ (pesDecode (startOf 0 2 0 0 0) 4 184).len = 0 ∧
      (pesDecode (startOf 0 2 0 0 0) 4 184).startCode ≠ 1) ∧
    ((pesDecode (startOf 0 1 0 3 0) 4 184).trunc = false ∧
      (pesDecode (startOf 0 1 0 3 0) 4 184).hs = (pesDecode (startOf 0 1 0 3 0) 4 184).len.toNat + 6 ∧
      (pesDecode (startOf 0 1 0 3 0) 4 184).startCode = 1) := by decide +kernel

theorem witness_StreamIdRowFixesTheHeaderSize :
    sidStart.fits = true ∧
    ({ sidStart with af := some (List.replicate 174 0), tail := [0x80, 0, 0] } : PesStart).fits = true ∧
    (0xE0 : Byte) ∉ ([0xBC, 0xBE, 0xBF, 0xF0, 0xF1, 0xF2, 0xF8, 0xFF] : List Byte) := by decide +kernel

theorem witness_StepRunsTheDecodedCommand :
    ({ machine open0 with hostIn := [.txn ⟨0x00001103, .nothing⟩] } : State).hostIn = .txn ⟨0x00001103, .nothing⟩ :: [] ∧
    decodeCommand ⟨0x00001103, .nothing⟩ = .ok (.rdreg 0x11) := by decide +kernel

theorem witness_StepWithoutACommand :
    State.reset.hostIn = [] ∧
    ({ machine idle with hostIn := [.txn ⟨2, .nothing⟩] } : State).hostIn = .txn ⟨2, .nothing⟩ :: [] ∧
    decodeCommand ⟨2, .nothing⟩ = .error .dataWordMissing := by decide +kernel

theorem witness_ResetLeavesTheStatedValues : Lane.reset ∈ (State.resetWith 16 65535).lanes := by decide +kernel

/-- A reset between transactions, one during a transaction that is no command, and one during a flush that has sent its burst and
the status word of its response. -/
theorem witness_ResetDuringRun :
    ({ machine open0 with hostIn := [.reset] } : State).hostIn = .reset :: [] ∧
    decodeCommand ⟨2, .nothing⟩ = .error .dataWordMissing ∧
    (let s : State := { machine open0 with hostIn := [.resetDuring (absorbTxn (start 1)) [⟨1, 0, 1⟩] 1] }
     let u := nextOf (exec (.absorb (start 1)) { s with hostIn := [], lanes := s.lanes.map Lane.answering })
     s.lanes[0]? = some open0 ∧ decodeCommand (absorbTxn (start 1)) = .ok (.absorb (start 1)) ∧
     isNext (exec (.absorb (start 1)) { s with hostIn := [], lanes := s.lanes.map Lane.answering }) = true ∧
     u.lanes[0]? = some (lane0 u) ∧ (nextOf (step s)).lanes[0]? = some (lane0 (nextOf (step s))) ∧
     (lane0 (nextOf (step s))).sink = [.bytes (List.replicate 175 0)] ∧
     (nextOf (step s)).responses = [{ status := 0, data := none }]) := by
  decide +kernel

theorem witness_CtrlWriteRecreatesTheChannel :
    ((machine open0).lanes[0]? = some open0 ∧ (0x10 : BitVec 8).toNat = 0x10 + 8 * 0) ∧
    ((machines 16 open0).lanes[15]? = some open0 ∧ (0x88 : BitVec 8).toNat = 0x10 + 8 * 15) := by decide +kernel

/-- STATUS(0), an index of no register, and the CTRL index of the first channel that does not exist. -/
theorem witness_OtherRegisterWritesChangeNothing :
    (∀ c < (machine idle).lanes.length, (0x11 : BitVec 8).toNat ≠ 0x10 + 8 * c) ∧
    (∀ c < (machine idle).lanes.length, (0x00 : BitVec 8).toNat ≠ 0x10 + 8 * c) ∧
    (∀ c < (machines 15 idle).lanes.length, (0x88 : BitVec 8).toNat ≠ 0x10 + 8 * c) := by decide +kernel

/-- The smallest and the largest machine, and both ends of each range of reserved indices. -/
theorem witness_GlobalAndReservedRegistersRead :
    (machine idle).Legal ∧ (machines 16 idle).Legal ∧
    (∀ i ∈ [0x03, 0x0F], 3 ≤ i ∧ i < 0x10) ∧
    (∀ i ∈ [0x18, 0xFF], 0x10 + 8 * (machine idle).lanes.length ≤ i ∧ i < 256) ∧
    (0x10 + 8 * (machines 16 idle).lanes.length ≤ 0x90) ∧
    (∀ i ∈ [0x15, 0x17, 0x8D, 0x8F], 0x10 ≤ i ∧ 5 ≤ (i - 0x10) % 8) := by decide +kernel

theorem witness_ChannelRegistersRead :
    ((machine bounded0).Legal ∧ (machine bounded0).lanes[0]? = some bounded0) ∧
    ((machines 16 open0).Legal ∧ (machines 16 open0).lanes[15]? = some open0 ∧
      (0x8C : BitVec 8).toNat = 0x10 + 8 * 15 + 4) := by decide +kernel

theorem witness_CtrlReadsBackWhatWasWritten :
    15 < (machines 16 open0).lanes.length ∧ (0x88 : BitVec 8).toNat = 0x10 + 8 * 15 ∧
    isNext (exec (.wrreg 0x88 0xFFFFFFFF) (machines 16 open0)) = true := by decide +kernel

theorem witness_EosTurnedAwayOnlyAnswers :
    (machine idle).lanes.length ≤ (1 : BitVec 4).toNat ∧
    (machine { idle with ch := { channel with fatal := true } }).lanes[(0 : BitVec 4).toNat]? =
      some { idle with ch := { channel with fatal := true } } := by decide +kernel

theorem witness_EosFlushesAndCloses :
    ((machine open0).lanes[(0 : BitVec 4).toNat]? = some open0 ∧ open0.ch.fatal = false ∧ open0.nextReply 0 = some .ok ∧
      open0.ch.state = .assembling ∧ open0.ch.shutdownPolicy = .flush ∧
      open0.ch.acc.readRange? 0 open0.ch.woff.toNat = some (List.replicate 175 0) ∧
      (open0.sinkGot []).nextReply 0 = some .ok) ∧
    (idle.ch.fatal = false ∧ idle.nextReply 0 = some .ok ∧ idle.ch.state = .idle) ∧
    ((open0.withCh { open0.ch with shutdownPolicy := .discard }).ch.shutdownPolicy = .discard) := by decide +kernel

theorem witness_EosSinkErrorIsFatal :
    ((machine (failing open0 [.close])).lanes[(0 : BitVec 4).toNat]? = some (failing open0 [.close]) ∧
      (failing open0 [.close]).ch.fatal = false ∧ (failing open0 [.close]).nextReply 0 = some (.err [.close]) ∧
      (failing open0 [.close]).ch.acc.readRange? 0 175 = some (List.replicate 175 0)) ∧
    (let l : Lane := { open0 with replies := [some .ok, some (.err [])] }
     l.nextReply 0 = some .ok ∧ (l.sinkGot []).nextReply 0 = some (.err []) ∧ l.ch.state = .assembling ∧
     l.ch.shutdownPolicy = .flush ∧ l.ch.acc.readRange? 0 l.ch.woff.toNat = some (List.replicate 175 0)) := by
  decide +kernel

/-- The states of the statements about ABSORB, EOS and the rows: the invariant holds and the ports answer. -/
theorem witness_states :
    ((machine idle).Inv ∧ (machine idle).PortsAnswer) ∧ ((machine open0).Inv ∧ (machine open0).PortsAnswer) ∧
    ((machine bounded0).Inv ∧ (machine bounded0).PortsAnswer) ∧ ((machines 16 idle).Inv ∧ (machines 16 idle).PortsAnswer) := 
  ⟨by decide +kernel, by decide +kernel, by decide +kernel, by decide +kernel⟩

theorem witness_EosCompletesAndTouchesOneChannel :
    (machine open0).Inv ∧ (machine open0).PortsAnswer ∧
    (machine open0).lanes[(0 : BitVec 4).toNat]? = some open0 := by decide +kernel

theorem witness_AbsorbPresentsThePacketToEveryChannel :
    (machine open0).Inv ∧ (machine open0).PortsAnswer := by decide +kernel

/-- A body with adaptation-field length 183. -/
def body183 : Body := (Packet.ofList [0, 0, 0, 0, 183]).body

theorem witness_ZeroPayloadRowsKeepThePes :
    (machine open0).Inv ∧ (machine open0).PortsAnswer ∧ (machine open0).lanes[0]? = some open0 ∧
    open0.ch.InSequence 1 ∧ open0.ch.Takes ((⟨0x47, false, false, 0x100, 0, 1⟩ : TsFields).packet true 0 zeroBody) ∧
    open0.ch.Takes ((⟨0x47, false, false, 0x100, 0, 1⟩ : TsFields).packet true 2 body183) ∧
    (body183.val.getD 0 0).toNat ≤ 183 := by decide +kernel

/-- Unbounded without an adaptation field; bounded with one, the fragment one byte short of the PES. -/
theorem witness_StartRowsBeginAPes :
    (let p := (⟨0x47, false, false, 0x100, 0, 0⟩ : TsFields).packet true 1 (start 0).body
     (machine idle).Inv ∧ (machine idle).PortsAnswer ∧ (machine idle).lanes[0]? = some idle ∧ idle.ch.Takes p ∧
     idle.ch.InSequence 0 ∧ idle.ch.state = .idle ∧ p.IsStart ∧ p.pes.Accepted .discard ∧ p.pes.len = 0) ∧
    (let p := (⟨0x47, false, false, 0x100, 0, 0⟩ : TsFields).packet true 3
       (afPacket 0 0 0xAE [0x00, 0x00, 0x01, 0xE0, 0x00, 0x04, 0x80, 0x00, 0x00]).body
     idle.ch.Takes p ∧ p.IsStart ∧ p.pes.Accepted .discard ∧ p.pes.len ≠ 0 ∧
     p.geometry.plen + 1 = p.pes.len.toNat + 6) := by decide +kernel

/-- A PES one byte longer than the second packet brings it: 175 + 184 = 359, EXPECTED 360. -/
def bounded360 : Lane := after (startOf 0 0x01 0x01 0x6B 0x00) idle

theorem witness_ContinuationRowsAppend :
    (let p := (⟨0x47, false, false, 0x100, 0, 1⟩ : TsFields).packet false 1 zeroBody
     (machine open0).Inv ∧ (machine open0).PortsAnswer ∧ (machine open0).lanes[0]? = some open0 ∧ open0.ch.Takes p ∧
     open0.ch.InSequence 1 ∧ open0.ch.state = .assembling ∧ p.IsContinuation ∧ open0.ch.bounded = false ∧
     open0.ch.woff.toNat + p.geometry.plen ≤ 65535) ∧
    (let p := (⟨0x47, false, false, 0x100, 0, 1⟩ : TsFields).packet false 1 zeroBody
     (machine bounded360).Inv ∧ bounded360.ch.Takes p ∧ bounded360.ch.bounded = true ∧
     bounded360.ch.woff.toNat + p.geometry.plen + 1 = bounded360.ch.expected.toNat) ∧
    (let p := (⟨0x47, false, false, 0x100, 0, 1⟩ : TsFields).packet false 3 (Packet.ofList [0, 0, 0, 0, 182]).body
     open0.ch.Takes p ∧ p.IsContinuation ∧ p.geometry.plen = 1) :=
  ⟨by decide +kernel, by decide +kernel, by decide +kernel⟩

/-- `sidStart` with a PES one byte longer than the packet. -/
def longSid : PesStart := { sidStart with len := 179 }

theorem witness_StreamIdRowsBeginAPes :
    [((0xBC : Byte), Instr.sidExclBC longSid), (0xBE, .sidExclBE longSid), (0xBF, .sidExclBF longSid),
      (0xF0, .sidExclF0 longSid), (0xF1, .sidExclF1 longSid), (0xF2, .sidExclF2 longSid), (0xF8, .sidExclF8 longSid),
      (0xFF, .sidExclFF longSid), (0xE0, .sidExtended 0xE0 longSid)].all (fun x =>
        x.2.wellFormed && decide (idle.ch.Takes (longSid.packet x.1) ∧ idle.ch.InSequence longSid.ts.cc ∧
          (longSid.packet x.1).pes.Accepted idle.ch.malformedPolicy ∧
          (longSid.packet x.1).geometry.plen + 1 = longSid.len.toNat + 6)) = true ∧
    (machine idle).Inv ∧ (machine idle).PortsAnswer ∧ (machine idle).lanes[0]? = some idle ∧
    idle.ch.state = .idle := by decide +kernel

theorem witness_GatedPacketsLeaveTheChannel :
    idle.EventTaken ∧ Channel.reset.en = false ∧ (headerPacket 0x47010110).pid ≠ idle.ch.targetPid ∧
    (channel.en = true ∧ (start 0).pid = channel.targetPid ∧ ({ channel with fatal := true } : Channel).fatal = true) := by
  decide +kernel

theorem witness_GeometryErrorDiscards :
    open0.EventTaken ∧ open0.ch.Takes (afPacket 0x41 0x30 184 []) ∧ (afPacket 0x41 0x30 184 []).geometry.err = true ∧
    idle.ch.Takes (afPacket 0x01 0x20 255 []) ∧ (afPacket 0x01 0x20 255 []).geometry.err = true := by decide +kernel

theorem witness_LossWithoutStartDiscards :
    open0.EventTaken ∧ open0.ch.Takes (cont 0) ∧ (cont 0).geometry.err = false ∧ ¬ open0.ch.InSequence (cont 0).cc ∧
    ¬ (cont 0).IsStart ∧ ¬ (afPacket 0x41 0x30 183 []).IsStart := by decide +kernel

theorem witness_ZeroPayloadPacketKeepsThePes :
    open0.EventTaken ∧ open0.ch.Takes (afPacket 0x41 0x31 183 []) ∧ (afPacket 0x41 0x31 183 []).geometry.err = false ∧
    (afPacket 0x41 0x31 183 []).geometry.plen = 0 ∧ open0.ch.InSequence (afPacket 0x41 0x31 183 []).cc := by
  decide +kernel

theorem witness_ContinuationWhileIdleIsLost :
    idle.EventTaken ∧ idle.ch.Takes (cont 3) ∧ (cont 3).IsContinuation ∧ idle.ch.InSequence (cont 3).cc ∧
    idle.ch.state = .idle ∧ (after (cont 15) idle).ch.InSequence 0 ∧ (after (cont 15) idle).ch.state = .idle := by
  decide +kernel

/-- One byte too many: for a bounded PES, and at the top of the buffer. -/
theorem witness_ContinuationOverflowDiscards :
    (let l := open0.withCh { open0.ch with bounded := true, expected := 358 }
     l.EventTaken ∧ l.ch.Takes (cont 1) ∧ (cont 1).IsContinuation ∧ l.ch.InSequence (cont 1).cc ∧
     l.ch.state = .assembling ∧ l.ch.expected.toNat + 1 = l.ch.woff.toNat + (cont 1).geometry.plen) ∧
    (let l := open0.withCh { open0.ch with woff := 65352 }
     l.ch.bounded = false ∧ (65535 : Word).toNat + 1 = l.ch.woff.toNat + (cont 1).geometry.plen) := by decide +kernel

/-- Exactly up to the top of the buffer; a bounded PES one byte short of complete. -/
theorem witness_ContinuationAppendsAtTheWriteOffset :
    (let l := open0.withCh { open0.ch with woff := 65351 }
     l.EventTaken ∧ l.ch.Takes (cont 1) ∧ (cont 1).IsContinuation ∧ l.ch.InSequence (cont 1).cc ∧
     l.ch.state = .assembling ∧ l.ch.bounded = false ∧ l.ch.woff.toNat + (cont 1).geometry.plen = (65535 : Word).toNat) ∧
    (bounded360.ch.Takes (cont 1) ∧ bounded360.ch.bounded = true ∧
      bounded360.ch.woff.toNat + (cont 1).geometry.plen + 1 = bounded360.ch.expected.toNat) := by decide +kernel

/-- A PES that the second packet completes: EXPECTED 359. -/
def bounded359 : Lane := after (startOf 0 0x01 0x01 0x6A 0x00) idle

theorem witness_CompletingContinuationFlushes :
    bounded359.EventTaken ∧ bounded359.ch.Takes (cont 1) ∧ (cont 1).IsContinuation ∧ bounded359.ch.InSequence (cont 1).cc ∧
    bounded359.ch.Inv 65535 ∧ bounded359.ch.state = .assembling ∧ bounded359.ch.bounded = true ∧
    bounded359.ch.woff.toNat + (cont 1).geometry.plen = bounded359.ch.expected.toNat ∧
    bounded359.nextReply 0 = some .ok := by decide +kernel

theorem witness_SinkErrorInAFlushIsFatal :
    (failing bounded359 [.endOfPes]).nextReply 0 = some (.err [.endOfPes]) ∧
    (failing bounded359 [.endOfPes]).EventTaken ∧ (failing bounded359 [.endOfPes]).ch = bounded359.ch := by decide +kernel

/-- R87 (b) and (c): the event of a completing continuation carries the stored header when the flush answers `ok`, none when it
answers `err`. W3 is F_FLUSH; W2 carries channel 0 and RESULT 4 with PES_VALID, or RESULT 5 without. -/
theorem test_header_of_a_completing_continuation :
    (shows (after (cont 1) bounded359)).take 3 = [0x200, 0x00240000, 0x00016AE0] ∧
    (shows (after (cont 1) (failing bounded359 []))).take 3 = [0x200, 0x00280000, 0] := by decide +kernel

/-- Unbounded, and bounded one byte short of complete. -/
theorem witness_StartFromIdleSetsThePesUp :
    (idle.EventTaken ∧ idle.ch.Takes (start 9) ∧ (start 9).IsStart ∧ idle.ch.InSequence (start 9).cc ∧
      idle.ch.state = .idle ∧ (start 9).pes.Accepted idle.ch.malformedPolicy ∧ (start 9).pes.len = 0) ∧
    (let p := startOf 0 0x01 0x00 0xB3 0x00
     idle.ch.Takes p ∧ p.IsStart ∧ p.pes.Accepted idle.ch.malformedPolicy ∧ p.pes.len ≠ 0 ∧
     p.geometry.plen + 1 = p.pes.len.toNat + 6) ∧
    (let p := startOf 0 0x02 0x00 0x00 0x00
     idle.ch.Takes p ∧ p.IsStart ∧ p.pes.Accepted .propagate) := by decide +kernel

/-- With 175 elementary bytes, both answers of the sink, and with none (V8). -/
theorem witness_StartThatCompletesFlushesAtOnce :
    (let p := startOf 0 0x01 0x00 0xB2 0x00
     idle.EventTaken ∧ idle.ch.Takes p ∧ p.IsStart ∧ idle.ch.InSequence p.cc ∧ idle.ch.state = .idle ∧
     p.pes.Accepted idle.ch.malformedPolicy ∧ p.pes.len ≠ 0 ∧ p.geometry.plen = p.pes.len.toNat + 6 ∧
     idle.nextReply 0 = some .ok ∧
     (failing idle [.bytes [1]]).nextReply 0 = some (.err [.bytes [1]]) ∧ (failing idle [.bytes [1]]).ch = idle.ch ∧
     (failing idle [.bytes [1]]).EventTaken) ∧
    (idle.ch.Takes v8 ∧ v8.IsStart ∧ idle.ch.InSequence v8.cc ∧ v8.pes.Accepted idle.ch.malformedPolicy ∧
      v8.geometry.plen = v8.pes.len.toNat + 6) := by decide +kernel

/-- A truncated header, too short a length, and a bad start code. -/
theorem witness_RejectedStartIsLost :
    [afPacket 0x41 0x30 178 [], startOf 0 1 0 2 0, startOf 0 2 0 0 0].all (fun p =>
      decide (idle.EventTaken ∧ idle.ch.Takes p ∧ p.IsStart ∧ idle.ch.InSequence p.cc ∧ idle.ch.state = .idle ∧
        ¬ p.pes.Accepted idle.ch.malformedPolicy)) = true := by decide +kernel

/-- One elementary byte too many. -/
theorem witness_FirstFragmentOverflowIsLost :
    let p := startOf 0 0x01 0x00 0xB1 0x00
    idle.EventTaken ∧ idle.ch.Takes p ∧ p.IsStart ∧ idle.ch.InSequence p.cc ∧ idle.ch.state = .idle ∧
    p.pes.Accepted idle.ch.malformedPolicy ∧ p.pes.len ≠ 0 ∧ p.pes.len.toNat + 6 + 1 = p.geometry.plen := by
  decide +kernel

theorem witness_StartOverAPesInProgress :
    (let l1 := (open0.sinkGot [.bytes (List.replicate 175 0), .endOfPes]).withCh open0.ch.toIdle
     open0.EventTaken ∧ open0.ch.Takes (start 1) ∧ (start 1).IsStart ∧ open0.ch.InSequence (start 1).cc ∧
     open0.ch.Inv 65535 ∧ open0.ch.state = .assembling ∧ open0.ch.bounded = false ∧ open0.nextReply 0 = some .ok ∧
     open0.ch.acc.readRange? 0 open0.ch.woff.toNat = some (List.replicate 175 0) ∧
     absorbLane 65535 0 (start 1) 0 l1 = .ok (after (start 1) l1)) ∧
    (let l1 := bounded0.withCh bounded0.ch.toIdle
     bounded0.ch.Takes (start 1) ∧ bounded0.ch.Inv 65535 ∧ bounded0.ch.state = .assembling ∧ bounded0.ch.bounded = true ∧
     bounded0.ch.InSequence (start 1).cc ∧ absorbLane 65535 0 (start 1) 0 l1 = .ok (after (start 1) l1)) :=
  ⟨by decide +kernel, by decide +kernel⟩

theorem witness_SinkErrorBeforeAStartEndsIt :
    let l := failing open0 [.bytes [1]]
    l.EventTaken ∧ l.ch.Takes (start 1) ∧ (start 1).IsStart ∧ l.ch.InSequence (start 1).cc ∧ l.ch.Inv 65535 ∧
    l.ch.state = .assembling ∧ l.ch.bounded = false ∧ l.nextReply 0 = some (.err [.bytes [1]]) := by decide +kernel

/-- The five ways a start out of sequence can go, over a PES in progress: rejected for its start code, one byte too many, begun
(unbounded), and complete at once with both answers of the sink. Last, a bounded one begun on an Idle channel with a counter. -/
theorem witness_LossWithStartResynchronises :
    (open0.EventTaken ∧ [startOf 7 2 0 0 0, startOf 7 1 0 0xB1 0, start 7, startOf 7 1 0 0xB2 0].all (fun p =>
      decide (open0.ch.Takes p ∧ p.IsStart ∧ ¬ open0.ch.InSequence p.cc)) = true) ∧
    (¬ (startOf 7 2 0 0 0).pes.Accepted open0.ch.malformedPolicy) ∧
    (let p := startOf 7 1 0 0xB1 0
     p.pes.Accepted open0.ch.malformedPolicy ∧ p.pes.len ≠ 0 ∧ p.pes.len.toNat + 6 + 1 = p.geometry.plen) ∧
    ((start 7).pes.Accepted open0.ch.malformedPolicy ∧ (start 7).pes.len = 0) ∧
    (let p := startOf 7 1 0 0xB2 0
     let l := failing open0 [.bytes [1]]
     p.pes.Accepted open0.ch.malformedPolicy ∧ p.pes.len ≠ 0 ∧ p.geometry.plen = p.pes.len.toNat + 6 ∧
     open0.nextReply 0 = some .ok ∧
     l.nextReply 0 = some (.err [.bytes [1]]) ∧ l.ch = open0.ch ∧ l.EventTaken) ∧
    (let l := after (cont 4) idle
     let p := startOf 7 0x01 0x00 0xB3 0x00
     l.EventTaken ∧ l.ch.Takes p ∧ p.IsStart ∧ ¬ l.ch.InSequence p.cc ∧ l.ch.state = .idle ∧
     p.pes.Accepted l.ch.malformedPolicy ∧ p.pes.len ≠ 0 ∧ p.geometry.plen + 1 = p.pes.len.toNat + 6) := by decide +kernel

theorem witness_EventRecordLayout :
    15 < 16 ∧ (start 0).event 15 7 .assemblingStarted 0x400 (some ⟨0xE0, 0, 0⟩) =
      ⟨7, 0x47410010, 0x0F140000, 0x400, 0x000000E0⟩ := by decide +kernel

theorem witness_InvariantHoldsAtReset :
    (1 ≤ 1 ∧ 1 ≤ 16 ∧ 65535 ≤ (65535 : Word).toNat) ∧ (1 ≤ 16 ∧ 16 ≤ 16 ∧ 65535 ≤ (0xFFFFFFFF : Word).toNat) := by
  decide +kernel

theorem witness_EveryStepKeepsTheInvariant :
    let s : State := { machine open0 with hostIn := [.txn (absorbTxn (start 1))] }
    s.Inv ∧ step s = .next (nextOf (step s)) :=
  ⟨by decide +kernel, next_eq (by decide +kernel)⟩

theorem witness_NoStepLeavesTheBuffer : (machine open0).Inv ∧ State.reset.Inv := by decide +kernel

/-- Two machines whose other channel differs. -/
theorem witness_ChannelsDoNotInfluenceEachOther :
    let s : State := { machines 2 open0 with lanes := [open0, idle] }
    let s' : State := { machines 2 open0 with lanes := [open0, bounded0] }
    s.lanes.length = s'.lanes.length ∧ s.lanes[0]? = s'.lanes[0]? ∧ s.lanes ≠ s'.lanes ∧
    isNext (exec (.absorb (start 1)) s) = true ∧ isNext (exec (.absorb (start 1)) s') = true := by decide +kernel

/-- A packet and the same with another sync byte, TEI, TP and TSC set. -/
theorem witness_OnlyHeaderGeometryAndPayloadMatter :
    let p := start 1
    let p' := Packet.ofList [0xFF, 0xE1, 0x00, 0xD1, 0x00, 0x00, 0x01, 0xE0, 0x00, 0x00, 0x80, 0x00, 0x00]
    p ≠ p' ∧ p.pid = p'.pid ∧ p.pusi = p'.pusi ∧ p.cc = p'.cc ∧ p.geometry = p'.geometry ∧ p.payload = p'.payload ∧
    absorbLane 65535 0 p 0 open0 = .ok (after p open0) ∧ absorbLane 65535 0 p' 0 open0 = .ok (after p' open0) := by
  decide +kernel

theorem witness_ConfigurationChangesOnlyByCtrlWrite :
    isNext (exec (.wrreg 0x11 0) (machine open0)) = true ∧ (machine open0).lanes[0]? = some open0 ∧
    (nextOf (exec (.wrreg 0x11 0) (machine open0))).lanes[0]? = some open0 ∧ (0x11 : BitVec 8).toNat ≠ 0x10 + 8 * 0 := by
  decide +kernel

theorem witness_FatalClearsOnlyByCtrlWrite :
    let l := after (start 1) (failing open0 [])
    l.ch.fatal = true ∧ isNext (exec (.absorb (cont 2)) (machine l)) = true ∧ (machine l).lanes[0]? = some l ∧
    (nextOf (exec (.absorb (cont 2)) (machine l))).lanes[0]? = some (after (cont 2) l) := by decide +kernel

theorem witness_OnlyPacketsAreCountedAndReported :
    isNext (exec (.absorb (start 1)) (machine open0)) = true ∧ (encode (.absorb (start 1))).data = .packet (start 1).val ∧
    isNext (exec .nop (machine open0)) = true ∧ (encode .nop).data = .nothing := by decide +kernel

theorem witness_StreamsAreAppendOnly :
    let s : State := { machine open0 with hostIn := [.txn (absorbTxn (start 1))] }
    (∀ input, s.hostIn.head? = some input → ∃ x, input = .txn x) ∧
    step s = .next (nextOf (step s)) ∧ s.lanes[0]? = some open0 :=
  ⟨fun _ h => ⟨_, (Option.some.inj h).symm⟩, next_eq (by decide +kernel), by decide +kernel⟩

/-- Program 1's shape: 175 bytes in the start packet, 184 in the continuation. -/
theorem witness_BoundedPesRoundTrip :
    let p0 := startOf 0 0x01 0x01 0x6A 0x00
    (idle.ch.Inv 65535 ∧ idle.ch.state = .idle ∧ idle.eventRoom = none ∧ idle.nextReply 0 = some .ok ∧
      idle.ch.Takes p0 ∧ idle.ch.InSequence p0.cc ∧ p0.IsStart ∧ p0.pes.Accepted idle.ch.malformedPolicy ∧
      p0.pes.len ≠ 0) ∧
    (∀ p ∈ [cont 1], p.IsContinuation ∧ p.pid = idle.ch.targetPid) ∧ ccChain p0.cc [cont 1] ∧
    (p0.elementary ++ [cont 1].flatMap Packet.payload).length = p0.pes.len.toNat + 6 - p0.pes.hs :=
  ⟨by decide +kernel, by decide +kernel, ⟨by decide +kernel, trivial⟩, by decide +kernel⟩

/-- An unbounded PES of 175 and 184 bytes, its next start (unbounded, and one that completes in its packet), and EOS under FLUSH. -/
theorem witness_UnboundedPesRoundTrip :
    (idle.ch.Inv 65535 ∧ idle.ch.state = .idle ∧ idle.eventRoom = none ∧ idle.nextReply 0 = some .ok ∧
      idle.ch.Takes (start 0) ∧ idle.ch.InSequence (start 0).cc ∧ (start 0).IsStart ∧
      (start 0).pes.Accepted idle.ch.malformedPolicy ∧ (start 0).pes.len = 0) ∧
    ((∀ p ∈ [cont 1], p.IsContinuation ∧ p.pid = idle.ch.targetPid) ∧
      ((start 0).elementary ++ [cont 1].flatMap Packet.payload).length ≤ (65535 : Word).toNat) ∧
    (idle.SinkAnswers ∧ [start 2, startOf 2 1 0 0xB2 0].all (fun p =>
      decide (p.IsStart ∧ p.pid = idle.ch.targetPid ∧ p.cc = 2)) = true ∧ (start 2).pes.len = 0) ∧
    (ccChain (start 0).cc [cont 1, start 2] ∧ ccChain (start 0).cc [cont 1, startOf 2 1 0 0xB2 0]) ∧
    (let l1 := after (cont 1) open0
     (0 : BitVec 4).toNat = 0 ∧ (machine l1).lanes[0]? = some l1 ∧ idle.ch.shutdownPolicy = .flush ∧
     (idle.sinkGot []).nextReply 0 = some .ok) :=
  ⟨by decide +kernel, by decide +kernel, by decide +kernel,
    ⟨⟨by decide +kernel, by decide +kernel, trivial⟩, ⟨by decide +kernel, by decide +kernel, trivial⟩⟩, by decide +kernel⟩

end Sys2Proof.Tests
end

section
/-! SUPPORT. The invariant of R24 over the whole machine (spec/10_state.md R10, R22, R24, R27): it holds at reset, every command
keeps it, and a reset establishes it again, also one that cuts a command off. -/

namespace Sys2Proof.Machine

/-! ## Channels that meet the invariant whatever came before -/

theorem Channel.inv_reset (cap : Word) : Channel.reset.Inv cap :=
  Channel.inv_congr (Channel.inv_toIdle Channel.reset) rfl rfl rfl rfl rfl fun _ => rfl

theorem Channel.inv_ctrlWrite (cap v : Word) : (ctrlWrite v).Inv cap :=
  Channel.inv_congr (Channel.inv_reset cap) rfl rfl rfl rfl rfl fun _ => rfl

theorem Channel.inv_afterEos (cap : Word) (failed : Bool) (ch : Channel) : (ch.afterEos failed).Inv cap :=
  Channel.inv_congr (Channel.inv_toIdle ch) rfl rfl rfl rfl rfl fun _ => rfl

/-! ## From the channels to the machine -/

/-- The parameters are those of `s`, so only the channels are left to look at. -/
theorem State.inv_of_lanes {s t : State} (hs : s.Inv) (hcap : t.accCapacity = s.accCapacity)
    (hlen : t.lanes.length = s.lanes.length) (hl : ∀ l ∈ t.lanes, l.ch.Inv s.accCapacity) : t.Inv := by
  obtain ⟨⟨h1, h16, hmin⟩, -⟩ := hs
  exact ⟨⟨hlen ▸ h1, hlen ▸ h16, hcap ▸ hmin⟩, fun l h => hcap ▸ hl l h⟩

theorem State.inv_respond {s : State} (hs : s.Inv) (st : StatusCode) (d : Option Word) : (s.respond st d).Inv := hs

theorem State.inv_setLane {s : State} {c : Nat} {l : Lane} (hs : s.Inv) (hl : l.ch.Inv s.accCapacity) :
    (s.setLane c l).Inv := by
  refine State.inv_of_lanes hs rfl (by simp) fun l' h' => ?_
  rcases List.mem_or_eq_of_mem_set h' with hold | rfl
  · exact hs.2 l' hold
  · exact hl

/-! ## Every command keeps it -/

theorem AbsorbsTo.inv {s t : State} {p : Packet} (hs : s.Inv) (h : AbsorbsTo s p t) : t.Inv := by
  obtain ⟨hcap, -, -, -, hlen, hlanes⟩ := h
  refine State.inv_of_lanes hs hcap hlen fun l' hl' => ?_
  obtain ⟨c, hc, rfl⟩ := List.mem_iff_getElem.1 hl'
  have hcs : c < s.lanes.length := hlen ▸ hc
  obtain ⟨l1, hl1, habs, -⟩ := hlanes c s.lanes[c] (List.getElem?_eq_getElem hcs)
  obtain rfl : t.lanes[c] = l1 := by simpa [hc] using hl1
  exact absorbLane_inv (hs.2 _ (List.getElem_mem hcs)) habs

theorem State.inv_writeReg {s : State} (hs : s.Inv) (index : BitVec 8) (v : Word) : (s.writeReg index v).Inv := by
  rcases s.writeReg_cases index v with ⟨c, l, -, -, h⟩ | ⟨-, h⟩ <;> rw [h]
  · exact State.inv_setLane hs (Channel.inv_ctrlWrite _ v)
  · exact hs

theorem eosLane_inv {cap : Word} {c : Nat} {l l' : Lane} {st : StatusCode} (hi : l.ch.Inv cap)
    (h : eosLane c l = .ok (st, l')) : l'.ch.Inv cap := by
  rcases eosLane_eq_ok h with ⟨-, -, rfl⟩ | ⟨-, failed, hch, -⟩
  · exact hi
  · exact hch ▸ Channel.inv_afterEos cap failed l.ch

theorem execEos_inv {ch : BitVec 4} {s t : State} (hs : s.Inv) (h : execEos ch s = .next t) : t.Inv := by
  rcases execEos_eq_next h with ⟨-, rfl⟩ | ⟨l, st, l', hl, he, rfl⟩
  · exact State.inv_respond hs _ _
  · exact State.inv_respond (State.inv_setLane hs (eosLane_inv (hs.2 l (List.mem_of_getElem? hl)) he)) _ _

theorem exec_inv {i : Instr} {s t : State} (hs : s.Inv) (h : exec i s = .next t) : t.Inv := by
  rcases exec_shape i with ⟨p, -, hp⟩ | ⟨ch, rfl⟩ | ⟨index, v, rfl⟩ | ⟨-, hr⟩
  · exact (absorbPacket_eq_next (hp s ▸ h)).inv hs
  · exact execEos_inv hs h
  · cases h; exact State.inv_respond (State.inv_writeReg hs index v) _ _
  · obtain ⟨st, d, he⟩ := hr s
    rw [he] at h; cases h; exact State.inv_respond hs st d

/-! ## A reset establishes it -/

theorem map_applyReset_ch (lanes : List Lane) :
    (lanes.map Lane.applyReset).map Lane.ch = lanes.map fun _ => Channel.reset := List.map_map

/-- Whatever of a command's outputs a reset lets out, every channel that is left is a reset one (R291). -/
theorem keepLanes_ch {lanes full : List Lane} {cuts : List Cut} :
    (keepLanes lanes full cuts).map Lane.ch = lanes.map fun _ => Channel.reset := by
  induction lanes, full, cuts using keepLanes.induct with
  | case1 l ls f fs cut rest ih => simp [keepLanes, ih]
  | case2 full cuts ls hne => rw [keepLanes.eq_2 _ _ _ hne]; exact map_applyReset_ch ls

/-- Every channel of `t` is a reset one, under the parameters of `s` (R40). -/
structure State.ResetOf (s t : State) : Prop where
  accCapacity : t.accCapacity = s.accCapacity
  channels : t.lanes.map Lane.ch = s.lanes.map fun _ => Channel.reset

theorem State.applyReset_resetOf (s : State) : s.ResetOf s.applyReset := ⟨rfl, map_applyReset_ch s.lanes⟩

theorem State.cutOff_resetOf (s : State) (t : Txn) (cuts : List Cut) (words : Nat) :
    s.ResetOf (s.cutOff t cuts words) := by
  unfold State.cutOff
  split
  · exact s.applyReset_resetOf
  · split
    · exact ⟨rfl, keepLanes_ch⟩
    · exact s.applyReset_resetOf
    · exact s.applyReset_resetOf

theorem State.ResetOf.inv {s t : State} (h : s.ResetOf t) (hs : s.Inv) : t.Inv := by
  refine State.inv_of_lanes hs h.accCapacity (by simpa using congrArg List.length h.channels) fun l hl => ?_
  have hch : l.ch ∈ s.lanes.map fun _ => Channel.reset := h.channels ▸ List.mem_map_of_mem hl
  obtain ⟨-, -, hreset⟩ := List.mem_map.1 hch
  exact hreset ▸ Channel.inv_reset _

/-! ## Every step keeps it -/

theorem runTxn_inv {x : Txn} {s t : State} (hs : s.Inv) (h : runTxn x s = .next t) : t.Inv := by
  unfold runTxn at h
  split at h
  · exact exec_inv hs h
  · cases h

theorem runInput_inv {input : HostInput} {s t : State} (hs : s.Inv) (h : runInput input s = .next t) : t.Inv := by
  cases input with
  | txn x => exact runTxn_inv hs h
  | reset => cases h; exact s.applyReset_resetOf.inv hs
  | resetDuring x cuts words => cases h; exact (s.cutOff_resetOf x cuts words).inv hs

theorem step_inv {s t : State} (hs : s.Inv) (h : step s = .next t) : t.Inv := by
  unfold step runNext at h
  split at h
  · cases h; exact hs
  · rename_i input rest _
    exact runInput_inv (s := { s with hostIn := rest }) hs h

theorem State.inv_resetWith {n : Nat} {cap : Word} (h1 : 1 ≤ n) (h16 : n ≤ 16) (hcap : 65535 ≤ cap.toNat) :
    (State.resetWith n cap).Inv := by
  refine ⟨⟨?_, ?_, hcap⟩, fun l hl => ?_⟩
  · simpa [State.resetWith] using h1
  · simpa [State.resetWith] using h16
  · rw [(List.mem_replicate.1 hl).2]; exact Channel.inv_reset cap

/-- Settles O51: each input of the host is a command, which keeps the invariant, or a reset, which establishes it. -/
theorem everyStepKeepsTheInvariant : Obligations.EveryStepKeepsTheInvariant :=
  fun _ _ hs h => step_inv hs h

/-- Settles O50: every channel is a reset one, and the build's parameters are legal. -/
theorem invariantHoldsAtReset : Obligations.InvariantHoldsAtReset :=
  fun _ _ h1 h16 hcap => State.inv_resetWith h1 h16 hcap

end Sys2Proof.Machine
end

section
/-! SUPPORT. What a command does to the machine and to each of its lanes, said once (spec/43_assembler.md R171, 44_host_commands.md
R231 to R239), and from it: a lane depends on itself, PKT_INDEX and the parameters only, the configuration belongs to CTRL(c), records
are emitted by packets only, and the streams only grow. -/

namespace Sys2Proof.Machine

/-! ## One lane under one command -/

/-- What command `i` makes of channel `c`'s lane `l`, given ACC_CAPACITY and PKT_INDEX: a packet is absorbed, EOS ends the channel
it names, a write to CTRL(c) re-creates the channel, and every other command leaves the lane alone. -/
inductive LaneEffect (cap idx : Word) (i : Instr) (c : Nat) (l : Lane) : Lane → Prop where
  | absorbed {p : Packet} {l' : Lane} (hp : (encode i).data = .packet p.val)
      (ha : absorbLane cap idx p c l = .ok l') : LaneEffect cap idx i c l l'
  | ended {ch : BitVec 4} {st : StatusCode} {l' : Lane} (hi : i = .eos ch) (hc : ch.toNat = c)
      (he : eosLane c l = .ok (st, l')) : LaneEffect cap idx i c l l'
  | configured {index : BitVec 8} {v : Word} (hi : i = .wrreg index v) (hc : index.toNat = 0x10 + 8 * c) :
      LaneEffect cap idx i c l (l.withCh (ctrlWrite v))
  | kept (hp : ∀ bytes, (encode i).data ≠ .packet bytes) (he : ∀ ch, i = .eos ch → ch.toNat ≠ c)
      (hw : ∀ index v, i = .wrreg index v → index.toNat ≠ 0x10 + 8 * c) : LaneEffect cap idx i c l l

/-- The lane a command leaves is fixed by the lane it found, PKT_INDEX and ACC_CAPACITY. -/
theorem LaneEffect.unique {cap idx : Word} {i : Instr} {c : Nat} {l l1 l2 : Lane}
    (h1 : LaneEffect cap idx i c l l1) (h2 : LaneEffect cap idx i c l l2) : l1 = l2 := by
  cases h1 with
  | absorbed hp1 ha1 =>
    cases h2 with
    | absorbed hp2 ha2 =>
      obtain rfl := Subtype.ext (HostData.packet.inj (hp1.symm.trans hp2))
      exact Except.ok.inj (ha1.symm.trans ha2)
    | ended hi => subst hi; cases hp1
    | configured hi => subst hi; cases hp1
    | kept hp => exact absurd hp1 (hp _)
  | ended hi hc he1 =>
    subst hi
    cases h2 with
    | absorbed hp => cases hp
    | ended _ _ he2 => exact congrArg Prod.snd (Except.ok.inj (he1.symm.trans he2))
    | configured hi => cases hi
    | kept _ hne => exact absurd hc (hne _ rfl)
  | configured hi hc =>
    subst hi
    cases h2 with
    | absorbed hp => cases hp
    | ended hi => cases hi
    | configured hi => cases hi; rfl
    | kept _ _ hne => exact absurd hc (hne _ _ rfl)
  | kept hp he hw =>
    cases h2 with
    | absorbed hp2 => exact absurd hp2 (hp _)
    | ended hi hc => exact absurd hc (he _ hi)
    | configured hi hc => exact absurd hc (hw _ _ hi)
    | kept => rfl

/-- Only a write to CTRL(c) changes channel `c`'s configuration (spec/10_state.md R39). -/
theorem LaneEffect.configuration {cap idx : Word} {i : Instr} {c : Nat} {l l' : Lane} (h : LaneEffect cap idx i c l l')
    (hw : ∀ index v, i = .wrreg index v → index.toNat ≠ 0x10 + 8 * c) :
    l'.ch.targetPid = l.ch.targetPid ∧ l'.ch.en = l.ch.en ∧ l'.ch.malformedPolicy = l.ch.malformedPolicy ∧
      l'.ch.shutdownPolicy = l.ch.shutdownPolicy := by
  cases h with
  | absorbed hp ha =>
    obtain ⟨hpid, hen, hmal, hshut, -⟩ := absorbLane_frame ha
    exact ⟨hpid, hen, hmal, hshut⟩
  | ended hi hc he =>
    rcases eosLane_eq_ok he with ⟨-, -, rfl⟩ | ⟨-, failed, hch, -⟩
    · exact ⟨rfl, rfl, rfl, rfl⟩
    · rw [hch]; exact ⟨rfl, rfl, rfl, rfl⟩
  | configured hi hc => exact absurd hc (hw _ _ hi)
  | kept => exact ⟨rfl, rfl, rfl, rfl⟩

/-- A command that presents a packet emits one record (spec/20_memory.md R56). -/
theorem LaneEffect.events_of_packet {cap idx : Word} {i : Instr} {c : Nat} {l l' : Lane} {bytes : List Byte}
    (h : LaneEffect cap idx i c l l') (hp : (encode i).data = .packet bytes) : ∃ ev, l'.events = l.events ++ [ev] := by
  cases h with
  | absorbed _ ha =>
    obtain ⟨-, -, -, -, -, hev, -⟩ := absorbLane_frame ha
    exact hev
  | ended hi => subst hi; cases hp
  | configured hi => subst hi; cases hp
  | kept hne => exact absurd hp (hne _)

/-- A command that presents no packet emits no record. -/
theorem LaneEffect.events_of_no_packet {cap idx : Word} {i : Instr} {c : Nat} {l l' : Lane}
    (h : LaneEffect cap idx i c l l') (hp : ∀ bytes, (encode i).data ≠ .packet bytes) : l'.events = l.events := by
  cases h with
  | absorbed hp' => exact absurd hp' (hp _)
  | ended _ _ he =>
    rcases eosLane_eq_ok he with ⟨-, -, rfl⟩ | ⟨-, _, -, -, hev, -⟩
    · rfl
    · exact hev
  | configured => rfl
  | kept => rfl

theorem LaneEffect.sink_grows {cap idx : Word} {i : Instr} {c : Nat} {l l' : Lane}
    (h : LaneEffect cap idx i c l l') : l.sink <+: l'.sink := by
  cases h with
  | absorbed _ ha =>
    obtain ⟨-, -, -, -, hsink, -⟩ := absorbLane_frame ha
    exact hsink
  | ended _ _ he =>
    rcases eosLane_eq_ok he with ⟨-, -, rfl⟩ | ⟨-, _, -, hsink, -⟩
    · exact List.prefix_refl _
    · exact hsink
  | configured => exact List.prefix_refl _
  | kept => exact List.prefix_refl _

theorem LaneEffect.events_grow {cap idx : Word} {i : Instr} {c : Nat} {l l' : Lane}
    (h : LaneEffect cap idx i c l l') : l.events <+: l'.events := by
  by_cases hp : ∃ bytes, (encode i).data = .packet bytes
  · obtain ⟨bytes, hp⟩ := hp
    obtain ⟨ev, hev⟩ := h.events_of_packet hp
    exact ⟨[ev], hev.symm⟩
  · exact h.events_of_no_packet (fun bytes hb => hp ⟨bytes, hb⟩) ▸ List.prefix_refl _

/-! ## The machine under one command -/

/-- What a completed command `i` makes of the machine. -/
structure CommandEffect (i : Instr) (s t : State) : Prop where
  accCapacity : t.accCapacity = s.accCapacity
  hostIn : t.hostIn = s.hostIn
  answered : ∃ r, t.responses = s.responses ++ [r]
  counted : (∃ bytes, (encode i).data = .packet bytes) → t.pktIndex = s.pktIndex + 1
  notCounted : (∀ bytes, (encode i).data ≠ .packet bytes) → t.pktIndex = s.pktIndex
  lanesLength : t.lanes.length = s.lanes.length
  lane : ∀ (c : Nat) (l : Lane), s.lanes[c]? = some l →
    ∃ l', t.lanes[c]? = some l' ∧ LaneEffect s.accCapacity s.pktIndex i c l l'

theorem AbsorbsTo.effect {i : Instr} {p : Packet} {s t : State} (hp : (encode i).data = .packet p.val)
    (h : AbsorbsTo s p t) : CommandEffect i s t := by
  obtain ⟨hcap, hhost, hidx, hresp, hlen, hlanes⟩ := h
  refine ⟨hcap, hhost, ⟨_, hresp⟩, fun _ => hidx, fun hn => absurd hp (hn _), hlen, fun c l hl => ?_⟩
  obtain ⟨l', hl', ha, -⟩ := hlanes c l hl
  exact ⟨l', hl', .absorbed hp ha⟩

/-- A command that presents no packet and only answers, but for what it does to its lanes. -/
theorem CommandEffect.of_respond {i : Instr} {s s' : State} {st : StatusCode} {d : Option Word} {lanes : List Lane}
    (hp : ∀ bytes, (encode i).data ≠ .packet bytes) (hs : s' = { s with lanes := lanes })
    (hlen : lanes.length = s.lanes.length) (hl : ∀ (c : Nat) (l : Lane), s.lanes[c]? = some l →
      ∃ l', lanes[c]? = some l' ∧ LaneEffect s.accCapacity s.pktIndex i c l l') :
    CommandEffect i s (s'.respond st d) := by
  subst hs
  exact ⟨rfl, rfl, ⟨_, rfl⟩, fun ⟨bytes, hb⟩ => absurd hb (hp bytes), fun _ => rfl, hlen, hl⟩

/-- The lanes after one of them was replaced: the effect of a command that touches channel `k` alone. -/
theorem laneEffect_set {cap idx : Word} {i : Instr} {k : Nat} {lk lk' : Lane} {lanes : List Lane}
    (hk : lanes[k]? = some lk) (hat : LaneEffect cap idx i k lk lk')
    (helse : ∀ c l, c ≠ k → LaneEffect cap idx i c l l) (c : Nat) (l : Lane) (hl : lanes[c]? = some l) :
    ∃ l', (lanes.set k lk')[c]? = some l' ∧ LaneEffect cap idx i c l l' := by
  by_cases hck : c = k
  · subst hck
    obtain rfl := Option.some.inj (hk.symm.trans hl)
    exact ⟨lk', by simp [(List.getElem?_eq_some_iff.1 hl).1], hat⟩
  · exact ⟨l, by rw [List.getElem?_set_ne (Ne.symm hck), hl], helse c l hck⟩

theorem execEos_effect {ch : BitVec 4} {s t : State} (h : execEos ch s = .next t) : CommandEffect (.eos ch) s t := by
  have hp : ∀ bytes, (encode (.eos ch)).data ≠ .packet bytes := fun _ h => HostData.noConfusion h
  have hkept : ∀ c l, ch.toNat ≠ c → LaneEffect s.accCapacity s.pktIndex (.eos ch) c l l := fun c l hne =>
    .kept hp (fun _ he => Instr.eos.inj he ▸ hne) (fun _ _ he => Instr.noConfusion he)
  rcases execEos_eq_next h with ⟨hnone, rfl⟩ | ⟨l, st, l', hl, he, rfl⟩
  · refine .of_respond hp rfl rfl fun c l hl => ⟨l, hl, hkept c l ?_⟩
    rintro rfl
    rw [hnone] at hl; cases hl
  · exact .of_respond hp rfl List.length_set (laneEffect_set hl (.ended rfl rfl he) fun c l hne => hkept c l hne.symm)

theorem execWrreg_effect {index : BitVec 8} {v : Word} {s t : State} (h : execWrreg index v s = .next t) :
    CommandEffect (.wrreg index v) s t := by
  have hp : ∀ bytes, (encode (.wrreg index v)).data ≠ .packet bytes := fun _ h => HostData.noConfusion h
  have hkept : ∀ c l, index.toNat ≠ 0x10 + 8 * c → LaneEffect s.accCapacity s.pktIndex (.wrreg index v) c l l :=
    fun c l hne => .kept hp (fun _ he => Instr.noConfusion he) (fun _ _ he => (Instr.wrreg.inj he).1 ▸ hne)
  cases h
  rcases s.writeReg_cases index v with ⟨k, l, hl, hk, hw⟩ | ⟨hnone, hw⟩ <;> rw [hw]
  · exact .of_respond hp rfl List.length_set (laneEffect_set hl (.configured rfl hk) fun c l hne => hkept c l (by omega))
  · exact .of_respond hp rfl rfl fun c l hl => ⟨l, hl, hkept c l (hnone c (List.getElem?_eq_some_iff.1 hl).1)⟩

/-- Everything a command does when it completes. -/
theorem exec_effect {i : Instr} {s t : State} (h : exec i s = .next t) : CommandEffect i s t := by
  by_cases hneos : ∃ ch, i = .eos ch
  · obtain ⟨ch, rfl⟩ := hneos
    exact execEos_effect h
  by_cases hnwrreg : ∃ index v, i = .wrreg index v
  · obtain ⟨index, v, rfl⟩ := hnwrreg
    exact execWrreg_effect h
  rcases exec_shape i with ⟨p, hp, hx⟩ | heos | hwrreg | ⟨hp, hx⟩
  · exact (absorbPacket_eq_next (hx s ▸ h)).effect hp
  · exact absurd heos hneos
  · exact absurd hwrreg hnwrreg
  · obtain ⟨st, d, he⟩ := hx s
    rw [he] at h
    cases h
    exact .of_respond hp rfl rfl fun c l hl => ⟨l, hl, .kept hp (fun ch hi => absurd ⟨ch, hi⟩ hneos)
      (fun index v hi => absurd ⟨index, v, hi⟩ hnwrreg)⟩

/-- The lane a completed command leaves is an effect on the lane it found. -/
theorem CommandEffect.laneEffect {i : Instr} {s t : State} {c : Nat} {l l' : Lane} (h : CommandEffect i s t)
    (hl : s.lanes[c]? = some l) (hl' : t.lanes[c]? = some l') : LaneEffect s.accCapacity s.pktIndex i c l l' := by
  obtain ⟨l1, hl1, he⟩ := h.lane c l hl
  obtain rfl := Option.some.inj (hl1.symm.trans hl')
  exact he

/-! ## Which faults a command can raise -/

theorem execEos_eq_fault {ch : BitVec 4} {s : State} {f : Fault} (h : execEos ch s = .fault f) :
    ∃ l, s.lanes[ch.toNat]? = some l ∧ eosLane ch.toNat l = .error f := by
  unfold execEos at h
  split at h
  · cases h
  · rename_i l hl
    split at h
    · rename_i f' he; cases h; exact ⟨l, hl, he⟩
    · cases h

/-- Under the invariant only a port that does not answer stops a command (spec/70_reset_and_hazards.md R297, R298). -/
theorem exec_fault {i : Instr} {s : State} {f : Fault} (hs : s.Inv) (h : exec i s = .fault f) :
    ∃ c, f = .sinkSilent c ∨ f = .eventSilent c := by
  obtain ⟨⟨-, -, hcap⟩, hlanes⟩ := hs
  rcases exec_shape i with ⟨p, -, hx⟩ | ⟨ch, rfl⟩ | ⟨index, v, rfl⟩ | ⟨-, hx⟩
  · obtain ⟨c, l, hl, he⟩ := absorbPacket_eq_fault (hx s ▸ h)
    rcases absorbLane_error (hlanes l (List.mem_of_getElem? hl)) hcap he with ⟨hf, -⟩ | ⟨hf, -⟩
    · exact ⟨c, .inl hf⟩
    · exact ⟨c, .inr hf⟩
  · obtain ⟨l, hl, he⟩ := execEos_eq_fault h
    exact ⟨_, .inl (eosLane_error (hlanes l (List.mem_of_getElem? hl)) he).1⟩
  · cases h
  · obtain ⟨st, d, he⟩ := hx s
    rw [he] at h; cases h

theorem runTxn_fault {x : Txn} {s : State} {f : Fault} (hs : s.Inv) (h : runTxn x s = .fault f) :
    ∃ c, f = .sinkSilent c ∨ f = .eventSilent c := by
  unfold runTxn at h
  split at h
  · exact exec_fault hs h
  · cases h

theorem runInput_fault {input : HostInput} {s : State} {f : Fault} (hs : s.Inv) (h : runInput input s = .fault f) :
    ∃ c, f = .sinkSilent c ∨ f = .eventSilent c := by
  cases input with
  | txn x => exact runTxn_fault hs h
  | reset => cases h
  | resetDuring x cuts words => cases h

theorem step_fault {s : State} {f : Fault} (hs : s.Inv) (h : step s = .fault f) :
    ∃ c, f = .sinkSilent c ∨ f = .eventSilent c := by
  unfold step runNext at h
  split at h
  · cases h
  · rename_i input rest _
    exact runInput_fault (s := { s with hostIn := rest }) hs h

/-! ## The statements -/

/-- Settles O53: a lane that both machines share meets the same effect in both, and an effect fixes the lane it leaves. -/
theorem channelsDoNotInfluenceEachOther : Obligations.ChannelsDoNotInfluenceEachOther := by
  intro i s s' t t' c hcap hidx hlen hlane h h'
  have he := exec_effect h
  have he' := exec_effect h'
  cases hl : s.lanes[c]? with
  | none =>
    have hout : s.lanes.length ≤ c := List.getElem?_eq_none_iff.1 hl
    rw [List.getElem?_eq_none (by rw [he.lanesLength]; exact hout),
      List.getElem?_eq_none (by rw [he'.lanesLength, ← hlen]; exact hout)]
  | some l =>
    obtain ⟨l1, hl1, e1⟩ := he.lane c l hl
    obtain ⟨l2, hl2, e2⟩ := he'.lane c l (hlane ▸ hl)
    rw [← hcap, ← hidx] at e2
    rw [hl1, hl2, e1.unique e2]

/-- Settles O55: of all effects on a lane only the write to its CTRL register touches the configuration. -/
theorem configurationChangesOnlyByCtrlWrite : Obligations.ConfigurationChangesOnlyByCtrlWrite :=
  fun _ _ _ _ _ _ h hl hl' hw => ((exec_effect h).laneEffect hl hl').configuration hw

/-- Settles O57: the parts of a command's effect on the machine, and the records of its effect on each lane. -/
theorem onlyPacketsAreCountedAndReported : Obligations.OnlyPacketsAreCountedAndReported := by
  intro i s t h
  have he := exec_effect h
  refine ⟨he.accCapacity, he.lanesLength, he.hostIn, he.answered, fun hp => ⟨he.counted hp, ?_⟩,
    fun hp => ⟨he.notCounted hp, ?_⟩⟩
  · obtain ⟨bytes, hb⟩ := hp
    exact fun c l l' hl hl' => (he.laneEffect hl hl').events_of_packet hb
  · exact fun c l l' hl hl' => (he.laneEffect hl hl').events_of_no_packet hp

/-- Settles O52: the faults a step can raise under the invariant are those of a port that does not answer. -/
theorem noStepLeavesTheBuffer : Obligations.NoStepLeavesTheBuffer := by
  intro s c hs
  constructor
  · intro h
    obtain ⟨k, hf | hf⟩ := step_fault hs h <;> cases hf
  · intro h
    obtain ⟨k, hf | hf⟩ := step_fault hs h <;> cases hf

end Sys2Proof.Machine
end

section
/-! SUPPORT. The registers read the fields of spec/10_state.md R31 to R37 at the indices of R30. -/

namespace Sys2Proof.Machine

/-! ## The index map (R30) -/

theorem regAt_channelReg {n c off : Nat} {index : BitVec 8} (hc : c < n) (hoff : off < 8)
    (hi : index.toNat = 0x10 + 8 * c + off) : regAt n index = channelReg c off := by
  have hchan : (index.toNat - 0x10) / 8 = c := by omega
  have hrest : (index.toNat - 0x10) % 8 = off := by omega
  unfold regAt
  simp only [hchan, hrest, hc, if_true]
  rw [if_neg (by omega), if_neg (by omega), if_neg (by omega), if_neg (by omega)]

theorem channelReg_reserved {c off : Nat} (h : 5 ≤ off) : channelReg c off = .reserved := by
  obtain ⟨k, rfl⟩ := Nat.exists_eq_add_of_le' h
  rfl

theorem regAt_reserved {n : Nat} {index : BitVec 8} (h : (3 ≤ index.toNat ∧ index.toNat < 0x10) ∨
    0x10 + 8 * n ≤ index.toNat ∨ (0x10 ≤ index.toNat ∧ 5 ≤ (index.toNat - 0x10) % 8)) :
    regAt n index = .reserved := by
  by_cases hc : 0x10 ≤ index.toNat ∧ (index.toNat - 0x10) / 8 < n
  · rw [regAt_channelReg (off := (index.toNat - 0x10) % 8) hc.2 (Nat.mod_lt _ (by decide)) (by omega)]
    exact channelReg_reserved (by omega)
  · unfold regAt
    dsimp only
    rw [if_neg (by omega), if_neg (by omega), if_neg (by omega)]
    split
    · rfl
    · rw [if_neg (by omega)]

theorem State.readReg_channel {s : State} {c off : Nat} {l : Lane} {index : BitVec 8} (hl : s.lanes[c]? = some l)
    (hoff : off < 8) (hi : index.toNat = 0x10 + 8 * c + off) : s.readReg index = s.regWord (channelReg c off) := by
  rw [State.readReg, regAt_channelReg (List.getElem?_eq_some_iff.1 hl).1 hoff hi]

theorem State.channelWord_of_lane {s : State} {c : Nat} {l : Lane} (hl : s.lanes[c]? = some l) (f : Channel → Word) :
    s.channelWord c f = f l.ch := by
  simp [State.channelWord, hl]

theorem State.readReg_ctrl {s : State} {c : Nat} {l : Lane} {index : BitVec 8} (hl : s.lanes[c]? = some l)
    (hi : index.toNat = 0x10 + 8 * c) : s.readReg index = l.ch.ctrlWord :=
  (State.readReg_channel (off := 0) hl (by decide) hi).trans (State.channelWord_of_lane hl _)

theorem State.readReg_status {s : State} {c : Nat} {l : Lane} {index : BitVec 8} (hl : s.lanes[c]? = some l)
    (hi : index.toNat = 0x10 + 8 * c + 1) : s.readReg index = l.ch.statusWord :=
  (State.readReg_channel hl (by decide) hi).trans (State.channelWord_of_lane hl _)

theorem State.readReg_woff {s : State} {c : Nat} {l : Lane} {index : BitVec 8} (hl : s.lanes[c]? = some l)
    (hi : index.toNat = 0x10 + 8 * c + 2) : s.readReg index = l.ch.woff :=
  (State.readReg_channel hl (by decide) hi).trans (State.channelWord_of_lane hl _)

theorem State.readReg_expected {s : State} {c : Nat} {l : Lane} {index : BitVec 8} (hl : s.lanes[c]? = some l)
    (hi : index.toNat = 0x10 + 8 * c + 3) : s.readReg index = l.ch.expected :=
  (State.readReg_channel hl (by decide) hi).trans (State.channelWord_of_lane hl _)

theorem State.readReg_pesHdr {s : State} {c : Nat} {l : Lane} {index : BitVec 8} (hl : s.lanes[c]? = some l)
    (hi : index.toNat = 0x10 + 8 * c + 4) : s.readReg index = l.ch.pesHdrWord :=
  (State.readReg_channel hl (by decide) hi).trans (State.channelWord_of_lane hl _)

/-! ## The words of a channel, bit by bit (R33, R34, R37) -/

/-- A field of a word is its bits. -/
theorem extractLsb'_eq_iff {w : Word} {start n : Nat} {x : BitVec n} :
    w.extractLsb' start n = x ↔ ∀ i < n, w.getLsbD (start + i) = x.getLsbD i := by
  constructor
  · rintro rfl i hi
    simp [hi]
  · intro h
    ext i hi
    rw [BitVec.getElem_extractLsb', h i hi, BitVec.getLsbD_eq_getElem hi]

theorem Channel.ctrlWord_getLsbD (ch : Channel) (i : Nat) : ch.ctrlWord.getLsbD i =
    if i < 13 then ch.targetPid.getLsbD i
    else if i = 16 then ch.en
    else if i = 17 then ch.malformedPolicy.bit
    else if i = 18 then ch.shutdownPolicy.bit
    else false := by
  unfold Channel.ctrlWord
  repeat rw [BitVec.getLsbD_append]
  simp only [BitVec.getLsbD_ofBool]
  grind

theorem Channel.statusWord_getLsbD (ch : Channel) (i : Nat) : ch.statusWord.getLsbD i =
    if i = 0 then ch.state.bit
    else if i = 1 then ch.bounded
    else if i = 2 then ch.ccValid
    else if i = 3 then ch.fatal
    else if i < 8 then ch.lastCc.getLsbD (i - 4)
    else if i < 11 then ch.lastResult.code.getLsbD (i - 8)
    else if i = 11 then false
    else if i < 24 then ch.lastFlags.getLsbD (i - 12)
    else false := by
  unfold Channel.statusWord
  repeat rw [BitVec.getLsbD_append]
  rcases Nat.lt_or_ge i 4 with hbit | hfield
  · interval_cases i <;> simp
  · obtain ⟨k, rfl⟩ := Nat.exists_eq_add_of_le' hfield
    grind

theorem Channel.pesHdrWord_getLsbD (ch : Channel) (i : Nat) : ch.pesHdrWord.getLsbD i =
    if i < 8 then ch.pesSid.getLsbD i
    else if i < 24 then ch.pesLen.getLsbD (i - 8)
    else ch.pesHdl.getLsbD (i - 24) := by
  unfold Channel.pesHdrWord
  repeat rw [BitVec.getLsbD_append]
  grind

theorem MalformedPolicy.bit_eq (m : MalformedPolicy) : m.bit = (m == .propagate) := by cases m <;> rfl

theorem ShutdownPolicy.bit_eq (m : ShutdownPolicy) : m.bit = (m == .discard) := by cases m <;> rfl

theorem Lifecycle.bit_eq (m : Lifecycle) : m.bit = (m == .assembling) := by cases m <;> rfl

theorem Channel.ctrlWord_fields (ch : Channel) :
    ch.ctrlWord.extractLsb' 0 13 = ch.targetPid ∧ ch.ctrlWord.extractLsb' 13 3 = 0 ∧
    ch.ctrlWord.getLsbD 16 = ch.en ∧ ch.ctrlWord.getLsbD 17 = (ch.malformedPolicy == .propagate) ∧
    ch.ctrlWord.getLsbD 18 = (ch.shutdownPolicy == .discard) ∧ ch.ctrlWord.extractLsb' 19 13 = 0 := by
  rw [← MalformedPolicy.bit_eq, ← ShutdownPolicy.bit_eq]
  simp only [extractLsb'_eq_iff, Channel.ctrlWord_getLsbD]
  grind

theorem Channel.statusWord_fields (ch : Channel) :
    ch.statusWord.getLsbD 0 = (ch.state == .assembling) ∧ ch.statusWord.getLsbD 1 = ch.bounded ∧
    ch.statusWord.getLsbD 2 = ch.ccValid ∧ ch.statusWord.getLsbD 3 = ch.fatal ∧
    ch.statusWord.extractLsb' 4 4 = ch.lastCc ∧ ch.statusWord.extractLsb' 8 3 = ch.lastResult.code ∧
    ch.statusWord.getLsbD 11 = false ∧ ch.statusWord.extractLsb' 12 12 = ch.lastFlags ∧
    ch.statusWord.extractLsb' 24 8 = 0 := by
  rw [← Lifecycle.bit_eq]
  simp only [extractLsb'_eq_iff, Channel.statusWord_getLsbD]
  grind

theorem Channel.pesHdrWord_fields (ch : Channel) :
    ch.pesHdrWord.extractLsb' 0 8 = ch.pesSid ∧ ch.pesHdrWord.extractLsb' 8 16 = ch.pesLen ∧
    ch.pesHdrWord.extractLsb' 24 8 = ch.pesHdl := by
  simp only [extractLsb'_eq_iff, Channel.pesHdrWord_getLsbD]
  grind

/-! ## CTRL reads back (R33) -/

theorem malformedPolicyOf_bit (b : Bool) : (malformedPolicyOf b).bit = b := by cases b <;> rfl

theorem shutdownPolicyOf_bit (b : Bool) : (shutdownPolicyOf b).bit = b := by cases b <;> rfl

/-- The bits of CTRL's four fields. -/
theorem ctrlMask_getLsbD : ∀ i < 32, (0x00071FFF : Word).getLsbD i = (decide (i < 13) || i == 16 || i == 17 || i == 18) := by
  decide

theorem ctrlWord_ctrlWrite (v : Word) : (ctrlWrite v).ctrlWord = v &&& 0x00071FFF := by
  refine BitVec.eq_of_getLsbD_eq fun i hi => ?_
  rw [BitVec.getLsbD_and, ctrlMask_getLsbD i hi, Channel.ctrlWord_getLsbD]
  simp only [ctrlWrite, malformedPolicyOf_bit, shutdownPolicyOf_bit, BitVec.getLsbD_extractLsb', Nat.zero_add]
  grind

/-! ## The statements -/

/-- Settles O21: the three global registers are indices of their own, and every other index R30 leaves out is reserved. -/
theorem globalAndReservedRegistersRead : Obligations.GlobalAndReservedRegistersRead := by
  intro s hs
  obtain ⟨-, hmax, -⟩ := hs
  refine ⟨?_, rfl, rfl, fun index hi => ?_⟩
  · show (BitVec.ofNat 24 0 ++ BitVec.ofNat 8 s.lanes.length).toNat = s.lanes.length
    rw [BitVec.toNat_append, BitVec.toNat_ofNat, BitVec.toNat_ofNat]
    simp; omega
  · rw [State.readReg, regAt_reserved hi]; rfl

/-- Settles O22: each index reads its word, and each word shows its fields. -/
theorem channelRegistersRead : Obligations.ChannelRegistersRead := by
  intro s c l i0 i1 i2 i3 i4 _ hl h0 h1 h2 h3 h4
  rw [State.readReg_ctrl hl h0, State.readReg_status hl h1, State.readReg_woff hl h2, State.readReg_expected hl h3,
    State.readReg_pesHdr hl h4]
  exact ⟨l.ch.ctrlWord_fields, l.ch.statusWord_fields, rfl, rfl, l.ch.pesHdrWord_fields⟩

/-- Settles O23: the write leaves the channel that `ctrlWrite` makes, and its CTRL word is the masked data word. -/
theorem ctrlReadsBackWhatWasWritten : Obligations.CtrlReadsBackWhatWasWritten := by
  intro s t index v c hc hi h
  have hlane : t.lanes[c]? = some (s.lanes[c].withCh (ctrlWrite v)) := by
    obtain ⟨l', hl', he⟩ := (exec_effect h).lane c s.lanes[c] (List.getElem?_eq_getElem hc)
    rw [hl', he.unique (.configured rfl hi)]
  rw [State.readReg_ctrl hlane hi, Lane.withCh_ch, ctrlWord_ctrlWrite]

end Sys2Proof.Machine
end

section
/-! SUPPORT. What a reset leaves (spec/10_state.md R40, 70_reset_and_hazards.md R290, R291): the reset channels, and of a command it
cuts off a beginning of what the command would have sent. -/

namespace Sys2Proof.Machine

/-! ## One lane -/

/-- A list, followed by a beginning of what continues it, is still a beginning of the whole. -/
theorem isPrefix_append_take_drop {α : Type} {xs ys : List α} (n : Nat) (h : xs <+: ys) :
    xs ++ (ys.drop xs.length).take n <+: ys := by
  obtain ⟨zs, rfl⟩ := h
  rw [List.drop_left]
  exact (List.prefix_append_right_inj xs).2 (List.take_prefix n zs)

/-- The lane a cut-off command leaves: reset, or reset with a part of what the command would have sent. -/
theorem keepLanes_getElem? {lanes full : List Lane} {cuts : List Cut} {c : Nat} {l l' : Lane} (hl : lanes[c]? = some l)
    (hl' : (keepLanes lanes full cuts)[c]? = some l') :
    l' = l.applyReset ∨ ∃ f cut, full[c]? = some f ∧ l' = Lane.keep f cut l := by
  induction lanes, full, cuts using keepLanes.induct generalizing c with
  | case1 l0 ls f0 fs cut rest ih =>
    cases c with
    | zero =>
      obtain rfl : l0 = l := by simpa using hl
      exact .inr ⟨f0, cut, rfl, by simpa [keepLanes] using hl'.symm⟩
    | succ c =>
      simp only [keepLanes, List.getElem?_cons_succ] at hl hl' ⊢
      exact ih hl hl'
  | case2 full cuts ls hne =>
    rw [keepLanes.eq_2 _ _ _ hne, List.getElem?_map, hl] at hl'
    exact .inl (Option.some.inj hl').symm

/-- What a cut-off command leaves in a lane's streams is a beginning of what it would have added. -/
theorem keepLanes_streams {lanes full : List Lane} {cuts : List Cut} {c : Nat} {l l' lu : Lane} (hl : lanes[c]? = some l)
    (hl' : (keepLanes lanes full cuts)[c]? = some l') (hlu : full[c]? = some lu) (hsink : l.sink <+: lu.sink)
    (hev : l.events <+: lu.events) : l.sink ++ l'.sink <+: lu.sink ∧ l.events ++ l'.events <+: lu.events := by
  rcases keepLanes_getElem? hl hl' with rfl | ⟨f, cut, hf, rfl⟩
  · simpa using ⟨hsink, hev⟩
  · obtain rfl := Option.some.inj (hf.symm.trans hlu)
    exact ⟨isPrefix_append_take_drop cut.items hsink, isPrefix_append_take_drop cut.records hev⟩

/-- Of one response the first words: none, the status word, or all of it. -/
theorem keepResponse_cases (words : Nat) (r : Response) : keepResponse words [r] = [] ∨
    keepResponse words [r] = [{ status := r.status, data := none }] ∨ keepResponse words [r] = [r] := by
  match words with
  | 0 => exact .inl rfl
  | 1 => exact .inr (.inl rfl)
  | _ + 2 => exact .inr (.inr rfl)

/-! ## The machine -/

theorem State.applyReset_lanes_eq (s : State) : s.applyReset.lanes =
    s.lanes.map (fun l => { l with ch := Channel.reset, sink := [], events := [] }) := rfl

theorem step_of_hostIn {s : State} {input : HostInput} {rest : List HostInput} (h : s.hostIn = input :: rest) :
    step s = runInput input { s with hostIn := rest } := by
  simp [step, runNext, h]

theorem State.cutOff_of_error {x : Txn} {e : DecodeError} (h : decodeCommand x = .error e) (s : State) (cuts : List Cut)
    (words : Nat) : s.cutOff x cuts words = s.applyReset := by
  simp [State.cutOff, h]

theorem State.cutOff_of_next {x : Txn} {i : Instr} {s u : State} (h : decodeCommand x = .ok i)
    (hu : exec i s.answering = .next u) (cuts : List Cut) (words : Nat) :
    s.cutOff x cuts words = { s.applyReset with
      lanes := keepLanes s.lanes u.lanes cuts
      responses := keepResponse words (u.responses.drop s.responses.length) } := by
  simp [State.cutOff, h, hu]

/-- A reset during a transaction is a plain reset, or the transaction is a command that completes when every port answers. -/
theorem State.cutOff_cases (s : State) (x : Txn) (cuts : List Cut) (words : Nat) :
    s.cutOff x cuts words = s.applyReset ∨
    ∃ i u, decodeCommand x = .ok i ∧ exec i s.answering = .next u := by
  unfold State.cutOff
  split
  · exact .inl rfl
  · rename_i i hi
    split
    · rename_i u hu; exact .inr ⟨i, u, hi, hu⟩
    · exact .inl rfl
    · exact .inl rfl

/-- The response of a cut-off command: a beginning of the one the command would have given. -/
theorem State.cutOff_responses {x : Txn} {i : Instr} {s u : State} (h : decodeCommand x = .ok i)
    (hu : exec i s.answering = .next u) (cuts : List Cut) (words : Nat) :
    ∃ r, u.responses = s.responses ++ [r] ∧ ((s.cutOff x cuts words).responses = [] ∨
      (s.cutOff x cuts words).responses = [{ status := r.status, data := none }] ∨
      (s.cutOff x cuts words).responses = [r]) := by
  obtain ⟨r, (hr : u.responses = s.responses ++ [r])⟩ := (exec_effect hu).answered
  refine ⟨r, hr, ?_⟩
  rw [State.cutOff_of_next h hu, hr, List.drop_left]
  exact keepResponse_cases words r

/-- A lane's streams after a cut-off command: beginnings of what the command would have added. -/
theorem State.cutOff_streams {x : Txn} {i : Instr} {s u : State} {cuts : List Cut} {words c : Nat} {l l' lu : Lane}
    (h : decodeCommand x = .ok i) (hu : exec i s.answering = .next u) (hl : s.lanes[c]? = some l)
    (hl' : (s.cutOff x cuts words).lanes[c]? = some l') (hlu : u.lanes[c]? = some lu) :
    l.sink ++ l'.sink <+: lu.sink ∧ l.events ++ l'.events <+: lu.events := by
  have hans : s.answering.lanes[c]? = some l.answering := by simp [State.answering, hl]
  have he := (exec_effect hu).laneEffect hans hlu
  rw [State.cutOff_of_next h hu] at hl'
  exact keepLanes_streams hl hl' hlu he.sink_grows he.events_grow

theorem State.cutOff_pktIndex_hostIn (s : State) (x : Txn) (cuts : List Cut) (words : Nat) :
    (s.cutOff x cuts words).pktIndex = 0 ∧ (s.cutOff x cuts words).hostIn = s.hostIn := by
  rcases s.cutOff_cases x cuts words with h | ⟨i, u, hi, hu⟩
  · rw [h]; exact ⟨rfl, rfl⟩
  · rw [State.cutOff_of_next hi hu]; exact ⟨rfl, rfl⟩

theorem State.cutOff_one_response (s : State) (x : Txn) (cuts : List Cut) (words : Nat) :
    (s.cutOff x cuts words).responses = [] ∨ ∃ r, (s.cutOff x cuts words).responses = [r] := by
  rcases s.cutOff_cases x cuts words with h | ⟨i, u, hi, hu⟩
  · rw [h]; exact .inl rfl
  · obtain ⟨r, -, hnone | hstatus | hall⟩ := State.cutOff_responses hi hu cuts words
    · exact .inl hnone
    · exact .inr ⟨_, hstatus⟩
    · exact .inr ⟨r, hall⟩

theorem State.ResetOf.length {s t : State} (h : s.ResetOf t) : t.lanes.length = s.lanes.length := by
  simpa using congrArg List.length h.channels

theorem State.ResetOf.ch {s t : State} (h : s.ResetOf t) {l : Lane} (hl : l ∈ t.lanes) : l.ch = Channel.reset := by
  have hch : l.ch ∈ s.lanes.map fun _ => Channel.reset := h.channels ▸ List.mem_map_of_mem hl
  obtain ⟨-, -, hreset⟩ := List.mem_map.1 hch
  exact hreset.symm

/-! ## The statements -/

/-- Settles O14: every lane of the machine after reset is `Lane.reset`. -/
theorem resetLeavesTheStatedValues : Obligations.ResetLeavesTheStatedValues := by
  intro n cap
  refine ⟨rfl, rfl, List.length_replicate, fun l hl => ?_⟩
  obtain rfl : l = Lane.reset := (List.mem_replicate.1 hl).2
  decide

/-- Settles O15: a reset is `State.applyReset`; one during a command is `State.cutOff`, whose outputs are beginnings of those of the
command, because a command's streams continue the ones it found. -/
theorem resetDuringRun : Obligations.ResetDuringRun := by
  refine ⟨fun s rest h => ⟨_, step_of_hostIn h, rfl, rfl, rfl, rfl, State.applyReset_lanes_eq _⟩, ?_⟩
  intro s x cuts words rest h
  have hreset := State.cutOff_resetOf { s with hostIn := rest } x cuts words
  obtain ⟨hidx, hhost⟩ := State.cutOff_pktIndex_hostIn { s with hostIn := rest } x cuts words
  refine ⟨_, step_of_hostIn h, hreset.accCapacity, hidx, hhost, hreset.length, State.cutOff_one_response _ x cuts words,
    fun l hl => hreset.ch hl, ?_, ?_⟩
  · intro e he
    rw [State.cutOff_of_error he]
    exact ⟨rfl, State.applyReset_lanes_eq _⟩
  · intro i u hi hu
    have hcut := State.cutOff_responses (s := { s with hostIn := rest }) hi hu cuts words
    exact ⟨hcut, fun c l l' lu hl hl' hlu => State.cutOff_streams (s := { s with hostIn := rest }) hi hu hl hl' hlu⟩

end Sys2Proof.Machine
end

section
/-! SUPPORT. A step's command and the streams it extends (spec/20_memory.md R50, R61, R66), EOS by its two sink calls
(44_host_commands.md R238), and a flush that ends a packet (43_assembler.md R188, R192, R193) for both answers of the sink. -/

namespace Sys2Proof.Machine

/-! ## A step that runs a command, or none -/

theorem step_of_no_input {s : State} (h : s.hostIn = []) : step s = .next s := by
  simp [step, runNext, h]

theorem runTxn_of_decode {x : Txn} {i : Instr} (h : decodeCommand x = .ok i) (s : State) : runTxn x s = exec i s := by
  simp [runTxn, h]

theorem runTxn_eq_next {x : Txn} {s t : State} (h : runTxn x s = .next t) :
    ∃ i, decodeCommand x = .ok i ∧ exec i s = .next t := by
  unfold runTxn at h
  split at h
  · rename_i i hi; exact ⟨i, hi, h⟩
  · cases h

/-- Everything a step can do when the host's next input is no reset: it holds the state, or it runs a command. -/
theorem step_cases_of_txn {s t : State} (hin : ∀ input, s.hostIn.head? = some input → ∃ x, input = .txn x)
    (h : step s = .next t) : t = s ∨ ∃ i rest, exec i { s with hostIn := rest } = .next t := by
  cases hhost : s.hostIn with
  | nil => exact .inl (Host.Outcome.next.inj ((step_of_no_input hhost).symm.trans h)).symm
  | cons input rest =>
    obtain ⟨x, rfl⟩ := hin input (by rw [hhost]; rfl)
    rw [step_of_hostIn hhost] at h
    obtain ⟨i, -, hi⟩ := runTxn_eq_next h
    exact .inr ⟨i, rest, hi⟩

/-- Settles O12: the step takes the transaction off the queue, and a transaction that decodes is run as its command. -/
theorem stepRunsTheDecodedCommand : Obligations.StepRunsTheDecodedCommand :=
  fun _ _ _ _ hhost hi => (step_of_hostIn hhost).trans (runTxn_of_decode hi _)

/-- Settles O58: a step that is no reset holds the state or runs a command, which adds one response and on each lane only extends
the streams. -/
theorem streamsAreAppendOnly : Obligations.StreamsAreAppendOnly := by
  intro s t hin h
  rcases step_cases_of_txn hin h with rfl | ⟨i, rest, hi⟩
  · refine ⟨List.prefix_refl _, rfl, fun c l l' hl hl' => ?_⟩
    obtain rfl := Option.some.inj (hl.symm.trans hl')
    exact ⟨List.prefix_refl _, List.prefix_refl _⟩
  · have he := exec_effect hi
    obtain ⟨r, hr⟩ := he.answered
    refine ⟨⟨[r], hr.symm⟩, he.lanesLength, fun c l l' hl hl' => ?_⟩
    have hlane := he.laneEffect hl hl'
    exact ⟨hlane.sink_grows, hlane.events_grow⟩

/-! ## EOS by its two sink calls (R238) -/

theorem eosFlush_emits {c : Nat} {l : Lane} (hs : l.ch.state = .assembling) (hp : l.ch.shutdownPolicy = .flush) :
    eosFlush c l = emitAcc c l := if_pos ⟨hs, hp⟩

theorem eosFlush_skips {c : Nat} {l : Lane} (h : ¬ (l.ch.state = .assembling ∧ l.ch.shutdownPolicy = .flush)) :
    eosFlush c l = .ok (true, l) := if_neg h

/-- EOS on a channel without FATAL, from what its flush and its Close answer. -/
theorem eosLane_of_calls {c : Nat} {l l1 l2 : Lane} {flushed closed : Bool} (hf : l.ch.fatal = false)
    (h1 : eosFlush c l = .ok (flushed, l1)) (h2 : eosClose c flushed l1 = .ok (closed, l2)) :
    eosLane c l = .ok (if closed then .ok else .sinkError, l2.withCh (l2.ch.afterEos !closed)) := by
  simp [eosLane, hf, h1, h2]

/-- An error at the first call of EOS: the flush, which no Close follows, or Close where nothing is flushed. -/
theorem eosLane_first_call_err {c : Nat} {l : Lane} {reached : List SinkItem} (hf : l.ch.fatal = false)
    (hr : l.nextReply c = some (.err reached))
    (hb : l.ch.state = .assembling → l.ch.shutdownPolicy = .flush →
      ∃ burst, l.ch.acc.readRange? 0 l.ch.woff.toNat = some burst) :
    eosLane c l = .ok (.sinkError, (l.sinkGot reached).withCh (l.ch.afterEos true)) := by
  by_cases hflush : l.ch.state = .assembling ∧ l.ch.shutdownPolicy = .flush
  · obtain ⟨hs, hp⟩ := hflush
    obtain ⟨burst, hburst⟩ := hb hs hp
    have h1 : eosFlush c l = .ok (false, l.sinkGot reached) := by
      rw [eosFlush_emits hs hp, emitAcc_of_read hburst, sinkCall_err hr]
    exact eosLane_of_calls hf h1 rfl
  · have h2 : eosClose c true l = .ok (false, l.sinkGot reached) := sinkCall_err hr
    exact eosLane_of_calls hf (eosFlush_skips hflush) h2

theorem Lane.sinkGot_sinkGot (l : Lane) (got got' : List SinkItem) : (l.sinkGot got).sinkGot got' =
    { l with sink := l.sink ++ got ++ got', replies := l.replies.drop 2, calls := l.calls + 2 } := by
  simp [Lane.sinkGot, ← List.tail_drop]

/-- An error of Close after a flush that went well. -/
theorem eosLane_close_err {c : Nat} {l : Lane} {burst : List Byte} {reached : List SinkItem} (hf : l.ch.fatal = false)
    (hs : l.ch.state = .assembling) (hp : l.ch.shutdownPolicy = .flush)
    (hb : l.ch.acc.readRange? 0 l.ch.woff.toNat = some burst) (hok : l.nextReply c = some .ok)
    (hr : (l.sinkGot [.bytes burst, .endOfPes]).nextReply c = some (.err reached)) :
    eosLane c l = .ok (.sinkError,
      ((l.sinkGot [.bytes burst, .endOfPes]).sinkGot reached).withCh (l.ch.afterEos true)) := by
  have h1 : eosFlush c l = .ok (true, l.sinkGot [.bytes burst, .endOfPes]) := by
    rw [eosFlush_emits hs hp, emitAcc_of_read hb, sinkCall_ok hok]
  have h2 : eosClose c true (l.sinkGot [.bytes burst, .endOfPes]) =
      .ok (false, (l.sinkGot [.bytes burst, .endOfPes]).sinkGot reached) := sinkCall_err hr
  exact eosLane_of_calls hf h1 h2

theorem exec_eos_of_lane {s : State} {ch : BitVec 4} {l l' : Lane} {st : StatusCode}
    (hl : s.lanes[ch.toNat]? = some l) (h : eosLane ch.toNat l = .ok (st, l')) :
    exec (.eos ch) s = .next ((s.setLane ch.toNat l').respond st none) := by
  show execEos ch s = _
  simp [execEos, hl, h]

/-- What a sink error at EOS leaves of a channel (R238). -/
theorem Channel.afterEos_failed (ch : Channel) : ch.afterEos true =
    { ch with state := .idle, bounded := false, expected := 0, woff := 0, acc := [], ccValid := false, lastCc := 0,
              fatal := true } := by
  simp [Channel.afterEos, Channel.toIdle]

/-- Settles O26: the answer and the lane of EOS for an error at its first call, and for an error of Close after the flush. -/
theorem eosSinkErrorIsFatal : Obligations.EosSinkErrorIsFatal := by
  intro s ch l reached hl hf
  refine ⟨fun hr hb => ?_, fun burst hok hr hs hp hb => ?_⟩
  · rw [exec_eos_of_lane hl (eosLane_first_call_err hf hr hb), Channel.afterEos_failed]
    rfl
  · rw [exec_eos_of_lane hl (eosLane_close_err hf hs hp hb hok hr), Channel.afterEos_failed,
      Lane.sinkGot_sinkGot]
    rfl

/-! ## A flush that ends a packet, for both answers of the sink -/

/-- The record of a flush by which `got` reached the sink, its channel left as `ch` (R182). -/
def Work.flushed (got : List SinkItem) (ch : Channel) (w : Work) : Work :=
  { w with fl := setFlag w.fl .flush, lane := (w.lane.sinkGot got).withCh ch }

theorem Work.flushAs_of_ok {c : Nat} {r : Result} {w : Work} {burst : List Byte}
    (hb : w.lane.ch.acc.readRange? 0 w.lane.ch.woff.toNat = some burst) (hr : w.lane.nextReply c = some .ok) :
    w.flushAs c r = .ok (r, w.flushed [.bytes burst, .endOfPes] w.lane.ch.toIdle) := by
  simp [Work.flushAs, Work.flush_ok hb hr, Work.flushed]

/-- SINKFAIL finds the channel Idle after its flush, so it sets FATAL and adds no flag (R193). -/
theorem Work.flushAs_of_err {c : Nat} {r : Result} {w : Work} {burst : List Byte} {reached : List SinkItem}
    (hb : w.lane.ch.acc.readRange? 0 w.lane.ch.woff.toNat = some burst)
    (hr : w.lane.nextReply c = some (.err reached)) :
    w.flushAs c r = .ok (.sinkError, w.flushed reached { w.lane.ch.toIdle with fatal := true }) := by
  simp only [Work.flushAs, Work.flush_err hb hr]
  rfl

/-! ## A continuation that completes its PES (R192) -/

/-- The channel after a continuation's payload was appended at the write offset (R191). -/
def Channel.appended (p : Packet) (ch : Channel) : Channel :=
  { ch with acc := ch.acc.write ch.woff.toNat p.payload
            woff := BitVec.ofNat 32 (ch.woff.toNat + p.geometry.plen) }

/-- The appended buffer holds what it held, then the payload. -/
theorem Channel.readRange?_appended {p : Packet} {ch : Channel} {burst : List Byte} (hp : 0 < p.geometry.plen)
    (hfit : ch.woff.toNat + p.geometry.plen < 2 ^ 32) (hb : ch.acc.readRange? 0 ch.woff.toNat = some burst) :
    (ch.appended p).acc.readRange? 0 (ch.appended p).woff.toNat = some (burst ++ p.payload) := by
  have hwoff : (ch.appended p).woff.toNat = ch.woff.toNat + p.payload.length := by
    rw [(Packet.payload_length hp).1]
    exact Nat.mod_eq_of_lt hfit
  rw [hwoff]
  exact Memory.readRange?_write ch.acc _ burst p.payload hb

/-- A continuation that completes a bounded PES appends its payload and flushes (R191, R192). -/
theorem continuePes_completes {cap : Word} {c : Nat} {p : Packet} {w w' : Work} {r : Result} (hp : 0 < p.geometry.plen)
    (hs : w.lane.ch.state = .assembling) (hb : w.lane.ch.bounded = true)
    (he : w.lane.ch.woff.toNat + p.geometry.plen = w.lane.ch.expected.toNat)
    (hcap : w.lane.ch.expected.toNat ≤ cap.toNat)
    (h : (w.withCh (w.lane.ch.appended p)).flushAs c .assemblingFinished = .ok (r, w')) :
    continuePes cap c p p.geometry w = .ok (r, w'.reportStored w.lane.ch.storedPes r) := by
  have hlen := (Packet.payload_length hp).1
  have hw : w.lane.ch.accWrite cap c w.lane.ch.woff.toNat (p.slice p.geometry.off 188) =
      .ok { w.lane.ch with acc := w.lane.ch.acc.write w.lane.ch.woff.toNat p.payload } :=
    if_pos (show w.lane.ch.woff.toNat + p.payload.length ≤ cap.toNat by omega)
  have hroom : w.lane.ch.room cap = w.lane.ch.expected.toNat := if_pos hb
  have h' : (w.withCh { w.lane.ch with
      acc := w.lane.ch.acc.write w.lane.ch.woff.toNat p.payload
      woff := BitVec.ofNat 32 (w.lane.ch.woff.toNat + p.geometry.plen) }).flushAs c .assemblingFinished = .ok (r, w') := h
  unfold continuePes
  dsimp only
  rw [if_neg (by simp [hs]), if_neg (by omega), hw]
  dsimp only
  rw [if_pos (by simp [hb, he]), h']

/-- Settles O41: the completing continuation's flush fails, so R87 (c) reports no header. -/
theorem sinkErrorInAFlushIsFatal : Obligations.SinkErrorInAFlushIsFatal := by
  intro cap idx p c l reached hev ht hc hseq hi hcap hs hb he hr
  have ⟨_, _, hp⟩ := hc
  obtain ⟨hkeys, -, hexp, -⟩ := hi
  obtain ⟨burst, hburst⟩ := Memory.readRange?_of_keys _ _ hkeys
  have hread := Channel.readRange?_appended (ch := l.ch.trackCc p.cc) hp (by simp; omega) hburst
  have hflush := Work.flushAs_of_err (c := c) (r := .assemblingFinished)
    (w := { lane := l.withCh ((l.ch.trackCc p.cc).appended p), fl := 0, pes := none }) hread hr
  have hcont := continuePes_completes (cap := cap)
    (w := { lane := l.withCh (l.ch.trackCc p.cc), fl := 0, pes := none }) hp hs hb he (hexp.trans hcap) hflush
  exact ⟨_, absorbLane_continuation hev ht hc hseq hcont, rfl, rfl, rfl⟩

/-! ## A start that completes its PES (R188) -/

/-- The channel after an accepted start packet in sequence took the counter and began its PES (R178, R187). -/
def Channel.begun (p : Packet) (ch : Channel) : Channel :=
  ({ ch.trackCc p.cc with acc := ch.acc.write 0 p.elementary } : Channel).openPes p.pes p.elementary

/-- The buffer of a PES just begun holds its elementary bytes. -/
theorem Channel.readRange?_begun (p : Packet) (ch : Channel) :
    (ch.begun p).acc.readRange? 0 (ch.begun p).woff.toNat = some p.elementary := by
  have hlen : p.elementary.length ≤ 188 := by rw [Packet.elementary, Packet.slice_length]; omega
  have hwoff : (ch.begun p).woff.toNat = 0 + p.elementary.length := by
    rw [Nat.zero_add]
    exact Nat.mod_eq_of_lt (by omega)
  rw [hwoff]
  exact Memory.readRange?_write ch.acc 0 [] p.elementary rfl

/-- The record of a start packet when its PES has begun (R187): the header kept for the event, F_START set. -/
def Work.begun (p : Packet) (l : Lane) : Work where
  lane := l.withCh (l.ch.begun p)
  fl := setFlag (flagVec p.pes.acceptFlags) .start
  pes := some p.pes.triple

/-- An accepted start packet in sequence on an Idle channel whose PES it completes leaves what the flush leaves (R188). -/
theorem absorbLane_start_completes {cap idx : Word} {c : Nat} {p : Packet} {l : Lane} {r : Result} {w : Work}
    (hev : l.EventTaken) (ht : l.ch.Takes p) (hst : p.IsStart) (hseq : l.ch.InSequence p.cc) (hcap : 65535 ≤ cap.toNat)
    (hidle : l.ch.state = .idle) (ha : p.pes.Accepted l.ch.malformedPolicy) (hlen : p.pes.len ≠ 0)
    (he : p.geometry.plen = p.pes.len.toNat + 6)
    (h : (Work.begun p l).flushAs c .assemblingFinished = .ok (r, w)) :
    absorbLane cap idx p c l = .ok ((w.finish r).recorded (p.event c idx r w.fl w.pes)) := by
  have ⟨_, _, hp⟩ := hst
  refine absorbLane_start hev ht hst ?_
  rw [(Channel.ccLost_eq_false p.cc l.ch).2 hseq, startPes_idle hidle, beginPes_accepted hp hcap ha]
  dsimp only
  rw [if_neg (by omega), if_pos ⟨hlen, he.symm⟩]
  have hbegun : Work.begun p l =
      { Work.begun p l with fl := setFlag (0 ||| flagVec p.pes.acceptFlags) .start } := by simp [Work.begun]
  rw [hbegun] at h
  exact h

theorem setFlag_start_flush (flags : List Flag) :
    setFlag (setFlag (flagVec flags) .start) .flush = flagVec (flags ++ [.start, .flush]) := by
  rw [flagVec, flagVec, List.foldl_append]
  rfl

/-- Settles O43: the PES the packet began is flushed, and either answer leaves the channel Idle with the header stored. -/
theorem startThatCompletesFlushesAtOnce : Obligations.StartThatCompletesFlushesAtOnce := by
  intro cap idx p c l hev ht hst hseq hcap hidle ha hlen he
  have hread : (Work.begun p l).lane.ch.acc.readRange? 0 (Work.begun p l).lane.ch.woff.toNat = some p.elementary :=
    l.ch.readRange?_begun p
  rw [← setFlag_start_flush]
  refine ⟨fun hr => ?_, fun reached hr => ?_⟩
  · exact ⟨_, absorbLane_start_completes hev ht hst hseq hcap hidle ha hlen he (Work.flushAs_of_ok hread hr),
      rfl, rfl, rfl⟩
  · exact ⟨_, absorbLane_start_completes hev ht hst hseq hcap hidle ha hlen he (Work.flushAs_of_err hread hr),
      rfl, rfl, rfl⟩

end Sys2Proof.Machine
end

section
/-! SUPPORT. The three decoders undo the encoder, and the class decoder keeps every bit of a packet (spec/30_encoding.md R70 to R81). -/

namespace Sys2Proof

/-! ## The command word (R80, R81) -/

/-- A command is read back from its word and its data. -/
theorem decodeCommand_encode {i : Instr} (h : i.format = .cmd) : decodeCommand (encode i) = .ok i := by
  cases i
  case nop | reserved5 | reserved6 | reserved7 | reserved8 | reserved9 | reservedA | reservedB | reservedC |
    reservedD | reservedE | reservedF => rfl
  case absorb p => show absorbCommand (.packet p.val) = _; simp [absorbCommand, p.property]
  case wrreg index v => simp [decodeCommand, encode, wrregCommand]
  case rdreg index => simp [decodeCommand, encode, bareCommand]
  case eos ch => simp [decodeCommand, encode, bareCommand]
  all_goals cases h

/-! ## The packet class (R70, R79) -/

theorem decodeAs_tsHeader_absorbTxn (p : Packet) : decodeAs .tsHeader (absorbTxn p) = .ok (decodePacket p) := by
  simp [decodeAs]

/-- A table word of the TS header format is the class of the packet that shows it (log entry 3). -/
theorem decodeTableWord_of_tsHeader {nbits w : Nat} (h : tableFormat nbits w = .tsHeader) :
    decodeTableWord nbits w = some (decodePacket (headerPacket (BitVec.ofNat 32 w))) := by
  simp [decodeTableWord, tableTxn, h, decodeAs_tsHeader_absorbTxn]

/-- A packet class instruction is read back from its packet. -/
theorem decodeAs_encode_of_tsHeader {i : Instr} (h : i.format = .tsHeader) : decodeAs .tsHeader (encode i) = .ok i := by
  cases i
  case tsAfcReserved | tsPayloadStart | tsPayloadCont | tsAfOnly | tsAfPayloadStart | tsAfPayloadCont =>
    simp [encode, decodeAs_tsHeader_absorbTxn, decodePacket]
  all_goals cases h

theorem byte1_rejoin : ∀ b : Byte, BitVec.ofBool (b.getLsbD 7) ++ BitVec.ofBool (b.getLsbD 6) ++
    BitVec.ofBool (b.getLsbD 5) ++ b.extractLsb' 0 5 = b := by decide

theorem byte3_rejoin : ∀ b : Byte, b.extractLsb' 6 2 ++ b.extractLsb' 4 2 ++ b.extractLsb' 0 4 = b := by decide

/-- The header's four bytes and the 184 behind them. -/
theorem Packet.val_eq (p : Packet) : p.val = [p.byte 0, p.byte 1, p.byte 2, p.byte 3] ++ p.body.val := by
  obtain ⟨bytes, h⟩ := p
  match bytes, h with
  | b0 :: b1 :: b2 :: b3 :: rest, _ => rfl

/-- A packet is the one its header fields, S, AFC and body make. -/
theorem Packet.tsFields_packet (p : Packet) : p.tsFields.packet p.pusi p.afc p.body = p := by
  refine Subtype.ext ?_
  rw [p.val_eq]
  simp only [TsFields.packet, TsFields.header, Packet.tsFields, Packet.pid, Packet.pusi, Packet.afc,
    BitVec.extractLsb'_append_eq_left, BitVec.extractLsb'_append_eq_right, byte1_rejoin, byte3_rejoin]

/-- The row of a packet, by AFC and S. -/
theorem Packet.class_cases (p : Packet) :
    (p.afc = 0 ∧ decodePacket p = .tsAfcReserved p.pusi p.tsFields p.body) ∨
    (p.afc = 1 ∧ p.pusi = true ∧ decodePacket p = .tsPayloadStart p.tsFields p.body) ∨
    (p.afc = 1 ∧ p.pusi = false ∧ decodePacket p = .tsPayloadCont p.tsFields p.body) ∨
    (p.afc = 2 ∧ decodePacket p = .tsAfOnly p.pusi p.tsFields p.body) ∨
    (p.afc = 3 ∧ p.pusi = true ∧ decodePacket p = .tsAfPayloadStart p.tsFields p.body) ∨
    (p.afc = 3 ∧ p.pusi = false ∧ decodePacket p = .tsAfPayloadCont p.tsFields p.body) := by
  have hafc : ∀ a : BitVec 2, a = 0 ∨ a = 1 ∨ a = 2 ∨ a = 3 := by decide
  rcases hafc p.afc with ha | ha | ha | ha <;> cases hs : p.pusi <;> simp [decodePacket, ha, hs]

/-! ## The stream-id (R74, R75) -/

theorem decodeAs_pesStreamId_absorbTxn (p : Packet) : decodeAs .pesStreamId (absorbTxn p) = decodeStreamId p := by
  simp [decodeAs]

/-- What a start packet that fits holds behind its TS header. -/
def PesStart.body (q : PesStart) (sid : Byte) (h : q.fits = true) : Body :=
  ⟨q.afBytes ++ q.pesBytes sid ++ q.tail, by
    simp only [PesStart.fits, PesStart.afSize] at h
    unfold PesStart.afBytes
    cases haf : q.af <;> simp [haf, PesStart.pesBytes] at h ⊢ <;> omega⟩

/-- A start packet that fits is a packet of its class. -/
theorem PesStart.packet_eq {q : PesStart} (h : q.fits = true) (sid : Byte) :
    q.packet sid = q.ts.packet true q.afc (q.body sid h) := by
  refine Subtype.ext ?_
  rw [PesStart.packet_val h]
  simp [TsFields.packet, PesStart.body]

section
variable {q : PesStart} (h : q.fits = true) (sid : Byte)
include h

theorem PesStart.packet_pusi : (q.packet sid).pusi = true := by rw [PesStart.packet_eq h, TsFields.packet_pusi]

theorem PesStart.packet_afc : (q.packet sid).afc = q.afc := by rw [PesStart.packet_eq h, TsFields.packet_afc]

theorem PesStart.packet_tsFields : (q.packet sid).tsFields = q.ts := by
  rw [PesStart.packet_eq h, TsFields.packet_tsFields]

theorem PesStart.packet_cc : (q.packet sid).cc = q.ts.cc := by rw [PesStart.packet_eq h, TsFields.packet_cc]

/-- `P[4]` is the length of the adaptation field, which fits. -/
theorem PesStart.packet_byte4 {field : List Byte} (haf : q.af = some field) :
    ((q.packet sid).byte 4).toNat = field.length ∧ field.length ≤ 177 := by
  have hlen : field.length ≤ 177 := by
    simp only [PesStart.fits, PesStart.afSize, haf, decide_eq_true_eq] at h; omega
  have hb : (q.packet sid).byte 4 = BitVec.ofNat 8 field.length := by
    rw [PesStart.packet_eq h]
    simp [Packet.byte, TsFields.packet, TsFields.header, PesStart.body, PesStart.afBytes, haf]
  rw [hb, BitVec.toNat_ofNat]
  exact ⟨Nat.mod_eq_of_lt (by omega), hlen⟩

/-- The adaptation field behind its length byte. -/
theorem PesStart.packet_afSlice {field : List Byte} (haf : q.af = some field) :
    (q.packet sid).slice 5 (5 + field.length) = field := by
  rw [PesStart.packet_eq h]
  simp [Packet.slice, TsFields.packet, TsFields.header, PesStart.body, PesStart.afBytes, haf]

/-- From the payload offset on: the PES header's six bytes and the tail. -/
theorem PesStart.packet_drop : (q.packet sid).val.drop (4 + q.afSize) = q.pesBytes sid ++ q.tail := by
  have hpre : (q.ts.header true q.afc ++ q.afBytes).length = 4 + q.afSize := by
    unfold PesStart.afBytes PesStart.afSize
    cases q.af <;> simp [TsFields.header]; omega
  rw [PesStart.packet_val h, List.append_assoc (_ ++ _), ← hpre, List.drop_left]

theorem PesStart.packet_slice (k : Nat) :
    (q.packet sid).slice (4 + q.afSize + k) 188 = (q.pesBytes sid ++ q.tail).drop k := by
  rw [← PesStart.packet_drop h sid, List.drop_drop]
  refine List.take_of_length_le ?_
  rw [List.length_drop, (q.packet sid).property]

/-- Taking a start packet apart at its payload offset gives its pieces. -/
theorem PesStart.packet_pesStart : (q.packet sid).pesStart q.af (4 + q.afSize) = q := by
  have h0 := PesStart.packet_byte h sid 0
  have hcode : q.startCode.extractLsb' 16 8 ++ q.startCode.extractLsb' 8 8 ++ q.startCode.extractLsb' 0 8 =
      q.startCode := by
    rw [BitVec.extractLsb'_append_extractLsb'_eq_extractLsb' (start₂ := 16) (start₁ := 8) (len₁ := 8) rfl,
      BitVec.extractLsb'_append_extractLsb'_eq_extractLsb' (start₂ := 8) (start₁ := 0) (len₁ := 8) rfl]
    exact BitVec.extractLsb'_eq_self
  have hlen : q.len.extractLsb' 8 8 ++ q.len.extractLsb' 0 8 = q.len := by
    rw [BitVec.extractLsb'_append_extractLsb'_eq_extractLsb' (start₂ := 8) (start₁ := 0) (len₁ := 8) rfl]
    exact BitVec.extractLsb'_eq_self
  simp only [Packet.pesStart, PesStart.packet_tsFields h, PesStart.packet_slice h, PesStart.packet_byte h]
  rw [Nat.add_zero] at h0
  rw [h0]
  simp [PesStart.pesBytes, hcode, hlen]

/-- A start packet that fits is read back with the row of its stream-id. -/
theorem PesStart.decodeStreamId_packet : decodeStreamId (q.packet sid) = .ok (sidRow sid q) := by
  have hq := PesStart.packet_pesStart h sid
  have hsid := PesStart.packet_byte h sid 3
  cases haf : q.af with
  | none =>
    simp only [PesStart.afSize, haf] at hq hsid
    have hsid : (q.packet sid).byte 7 = sid := hsid
    have hafc : (q.packet sid).afc = 1 := by rw [PesStart.packet_afc h, PesStart.afc, haf]
    simp [decodeStreamId, PesStart.packet_pusi h, hafc, hsid, hq]
  | some field =>
    obtain ⟨hl, hmax⟩ := PesStart.packet_byte4 h sid haf
    have hafc : (q.packet sid).afc = 3 := by rw [PesStart.packet_afc h, PesStart.afc, haf]
    have hoff : 4 + (1 + field.length) = 5 + field.length := by omega
    simp only [PesStart.afSize, haf, hoff] at hq hsid
    have hsid : (q.packet sid).byte (5 + field.length + 3) = sid := hsid
    simp [decodeStreamId, PesStart.packet_pusi h, hafc, hl, hmax, hsid, hq, PesStart.packet_afSlice h sid haf]

end

/-- A stream-id without a row of its own has the row SID_EXTENDED. -/
theorem sidRow_extended {sid : Byte} (h : exclRowSids.contains sid = false) (q : PesStart) :
    sidRow sid q = .sidExtended sid q := by
  have hb : sid = BitVec.ofNat 8 sid.toNat := by simp
  unfold sidRow
  split
  case h_9 => rfl
  all_goals
    rename_i hs
    rw [hb, hs] at h
    exact absurd h (by decide)

/-- A stream-id instruction is read back from its packet. -/
theorem decodeAs_encode_of_pesStreamId {i : Instr} (h : i.format = .pesStreamId) (hwf : i.wellFormed = true) :
    decodeAs .pesStreamId (encode i) = .ok i := by
  cases i
  case sidExclBC | sidExclBE | sidExclBF | sidExclF0 | sidExclF1 | sidExclF2 | sidExclF8 | sidExclFF =>
    exact (decodeAs_pesStreamId_absorbTxn _).trans (PesStart.decodeStreamId_packet hwf _)
  case sidExtended sid q =>
    simp only [Instr.wellFormed, Bool.and_eq_true, Bool.not_eq_true'] at hwf
    obtain ⟨hfits, hsid⟩ := hwf
    rw [encode, decodeAs_pesStreamId_absorbTxn, PesStart.decodeStreamId_packet hfits, sidRow_extended hsid]
  all_goals cases h

/-! ## The header word (R70, R100) -/

theorem Packet.headerWord_fields (p : Packet) : let w := (Machine.hdrDecode p).word
    w.extractLsb' 24 8 = p.byte 0 ∧ w.getLsbD 23 = (p.byte 1).getLsbD 7 ∧ w.getLsbD 22 = p.pusi ∧
    w.getLsbD 21 = (p.byte 1).getLsbD 5 ∧ w.extractLsb' 8 13 = p.pid ∧ w.extractLsb' 6 2 = (p.byte 3).extractLsb' 6 2 ∧
    w.extractLsb' 4 2 = p.afc ∧ w.extractLsb' 0 4 = (p.byte 3).extractLsb' 0 4 := by
  simp only [Machine.hdrDecode, Machine.extractLsb'_eq_iff, Packet.pusi, Packet.afc, Packet.pid,
    BitVec.getLsbD_append, BitVec.getLsbD_extractLsb']
  grind

/-! ## The statements -/

open Machine

/-- Settles O3: each of the three decoders reads the instructions of its own format back. -/
theorem decodeOfEncodeIsTheInstruction : Obligations.DecodeOfEncodeIsTheInstruction := by
  intro i hwf
  cases hfmt : i.format with
  | cmd => exact decodeCommand_encode hfmt
  | tsHeader => exact decodeAs_encode_of_tsHeader hfmt
  | pesStreamId => exact decodeAs_encode_of_pesStreamId hfmt hwf

/-- Settles O4: the class instruction keeps the header fields and the body, and its row gives S and AFC. -/
theorem everyPacketIsItsClassInstruction : Obligations.EveryPacketIsItsClassInstruction := by
  intro p
  have hp := p.tsFields_packet
  rcases p.class_cases with ⟨ha, hd⟩ | ⟨ha, hs, hd⟩ | ⟨ha, hs, hd⟩ | ⟨ha, hd⟩ | ⟨ha, hs, hd⟩ | ⟨ha, hs, hd⟩
  · rw [hd, encode, ← ha, hp]; exact ⟨rfl, rfl⟩
  · rw [hd, encode, ← ha, ← hs, hp]; exact ⟨rfl, rfl⟩
  · rw [hd, encode, ← ha, ← hs, hp]; exact ⟨rfl, rfl⟩
  · rw [hd, encode, ← ha, hp]; exact ⟨rfl, rfl⟩
  · rw [hd, encode, ← ha, ← hs, hp]; exact ⟨rfl, rfl⟩
  · rw [hd, encode, ← ha, ← hs, hp]; exact ⟨rfl, rfl⟩

/-- Settles O6: each field's bits in its byte are the word's bits at the byte's place. -/
theorem headerFieldsAreTheWordsBits : Obligations.HeaderFieldsAreTheWordsBits := by
  intro p h
  obtain ⟨hsync, htei, hpusi, htp, hpid, htsc, hafc, hcc⟩ := p.headerWord_fields
  exact ⟨rfl, hsync.symm, htei.symm, hpusi.symm, htp.symm, hpid.symm, htsc.symm, hafc.symm, hcc.symm⟩

/-- Settles O1: each word is read by its fields, and the table word by those of the packet it shows. -/
theorem wordsOfTheSpecDecode : Obligations.WordsOfTheSpecDecode := by
  refine ⟨rfl, rfl, rfl, rfl, rfl, rfl, rfl, decodeTableWord_of_tsHeader rfl⟩

/-- Settles O2: the decoder reads OP, and of a word's other fields those its OP uses. -/
theorem unusedCommandBitsAreIgnored : Obligations.UnusedCommandBitsAreIgnored := by
  intro w w' d hop hreg hch
  have hop' : opField w = opField w' := hop
  have hreg' : (opField w').toNat = 2 ∨ (opField w').toNat = 3 → regField w = regField w' := hop' ▸ hreg
  have hch' : (opField w').toNat = 4 → chField w = chField w' := hop' ▸ hch
  unfold decodeCommand
  rw [hop']
  dsimp only
  split
  case h_3 h2 => rw [hreg' (.inl h2)]
  case h_4 h3 => rw [hreg' (.inr h3)]
  case h_5 h4 => rw [hch' h4]
  all_goals rfl

end Sys2Proof
end

section
/-! SUPPORT. The payload of a packet by its class (spec/30_encoding.md R79, 41_adaptation_field.md R126), and the PES header of a start
packet by its stream-id (30_encoding.md R74 to R76, 42_pes_header.md R140 to R146). -/

namespace Sys2Proof

open Machine

/-! ## The geometry (R126) -/

/-- A packet has an adaptation field by AFC, its flags byte by the field's length (R120, R121). -/
theorem Packet.afDecode_eq (p : Packet) : afDecode p (hdrDecode p) = if p.afc = 2 ∨ p.afc = 3 then
    some { length := p.byte 4, flags := if p.byte 4 = 0 then none else some (p.byte 5) } else none := by
  have haf : (hdrDecode p).hasAdaptationField = decide (p.afc = 2 ∨ p.afc = 3) := by
    rw [Bool.decide_or]; rfl
  simp only [afDecode, haf, decide_eq_true_eq]

theorem Packet.hasPayload_eq (p : Packet) : (hdrDecode p).hasPayload = decide (p.afc = 1 ∨ p.afc = 3) := by
  rw [Bool.decide_or]; rfl

/-- Without an adaptation field the payload, if there is one, begins behind the TS header. -/
theorem Packet.geometry_of_no_af {p : Packet} (h : p.afc = 0 ∨ p.afc = 1) :
    p.geometry = { off := 4, plen := if p.afc = 1 then 184 else 0, err := false } := by
  rcases h with h | h <;>
    simp [Packet.geometry, p.afDecode_eq, Machine.geometry, lengthError, payloadOffset, p.hasPayload_eq, h]

/-- With an adaptation field of length L the payload, if there is one, is what L leaves of 183 bytes. -/
theorem Packet.geometry_of_af {p : Packet} (h : p.afc = 2 ∨ p.afc = 3) :
    p.geometry = { off := 5 + (p.byte 4).toNat, plen := if p.afc = 3 then 183 - (p.byte 4).toNat else 0,
                   err := decide (183 < (p.byte 4).toNat) } := by
  have hoff : 4 + (1 + (p.byte 4).toNat) = 5 + (p.byte 4).toNat := by omega
  rcases h with h | h <;>
    simp [Packet.geometry, p.afDecode_eq, Machine.geometry, lengthError, payloadOffset, Adaptation.total,
      p.hasPayload_eq, h, hoff]
  split <;> omega

/-! ## The class masks on the header word (R79) -/

theorem Packet.afc_of_mask {p : Packet} {m v : Word} (h : (hdrDecode p).word &&& m = v)
    (hm : m.extractLsb' 4 2 = BitVec.allOnes 2) : p.afc = v.extractLsb' 4 2 := by
  obtain ⟨-, -, -, -, -, -, hafc, -⟩ := p.headerWord_fields
  rw [← h, BitVec.extractLsb'_and, hm, BitVec.and_allOnes, hafc]

theorem Packet.pusi_of_mask {p : Packet} {m v : Word} (h : (hdrDecode p).word &&& m = v)
    (hm : m.getLsbD 22 = true) : p.pusi = v.getLsbD 22 := by
  obtain ⟨-, -, hpusi, -⟩ := p.headerWord_fields
  rw [← h, BitVec.getLsbD_and, hm, Bool.and_true, hpusi]

/-! ## The PES header of a start packet (R74, R140) -/

section
variable {q : PesStart} (h : q.fits = true) (sid : Byte)
include h

/-- A start packet's payload is what the adaptation field leaves, at least the six bytes of a PES header. -/
theorem PesStart.packet_geometry :
    (q.packet sid).geometry = { off := 4 + q.afSize, plen := 6 + q.tail.length, err := false } := by
  have hfit : 4 + q.afSize + 6 + q.tail.length = 188 := of_decide_eq_true h
  have hafc := PesStart.packet_afc h sid
  cases haf : q.af with
  | none =>
    simp only [PesStart.afc, haf] at hafc
    simp only [PesStart.afSize, haf] at hfit ⊢
    rw [Packet.geometry_of_no_af (.inr hafc)]
    simp [hafc]; omega
  | some field =>
    obtain ⟨hl, hmax⟩ := PesStart.packet_byte4 h sid haf
    simp only [PesStart.afc, haf] at hafc
    simp only [PesStart.afSize, haf] at hfit ⊢
    rw [Packet.geometry_of_af (.inr hafc), hl]
    simp [hafc]; omega

theorem PesStart.packet_isStart : (q.packet sid).IsStart := by
  rw [Packet.IsStart, PesStart.packet_geometry h, PesStart.packet_pusi h]
  exact ⟨rfl, rfl, Nat.lt_add_right _ (by decide)⟩

theorem PesStart.packet_elementary :
    (q.packet sid).elementary = (q.pesBytes sid ++ q.tail).drop (q.packet sid).pes.hs := by
  rw [Packet.elementary, PesStart.packet_geometry h, PesStart.packet_slice h]

/-- The PES header of a start packet, less what its stream-id decides. -/
theorem PesStart.packet_pesBytes :
    (q.packet sid).byte (4 + q.afSize + 3) = sid ∧
    (q.packet sid).byte (4 + q.afSize + 4) ++ (q.packet sid).byte (4 + q.afSize + 5) = q.len ∧
    (q.packet sid).byte (4 + q.afSize + 8) = q.tail.getD 2 0 := by
  refine ⟨?_, congrArg PesStart.len (PesStart.packet_pesStart h sid), ?_⟩ <;> rw [PesStart.packet_byte h] <;> rfl

/-- Under an excluded stream-id the header is six bytes long (R143, R146). -/
theorem PesStart.packet_pes_excl (hx : sid ∈ exclSids) :
    (q.packet sid).pes.sid = sid ∧ (q.packet sid).pes.len = q.len ∧ (q.packet sid).pes.hdl = 0 ∧
    (q.packet sid).pes.hs = 6 ∧ (q.packet sid).elementary = q.tail := by
  obtain ⟨hsid, hlen, -⟩ := PesStart.packet_pesBytes h sid
  have hext : isExtended ((q.packet sid).byte (4 + q.afSize + 3)) = false := by simp [hsid, isExtended, hx]
  rw [PesStart.packet_elementary h, Packet.pes, PesStart.packet_geometry h, pesDecode_excl (by simp) hext]
  exact ⟨hsid, hlen, rfl, rfl, rfl⟩

/-- Under an extended stream-id it is 9 + HDL bytes long, HDL its ninth byte (R144, R146). -/
theorem PesStart.packet_pes_extended (hx : sid ∉ exclSids) :
    (q.packet sid).pes.sid = sid ∧ (q.packet sid).pes.len = q.len ∧
    (3 ≤ q.tail.length → (q.packet sid).pes.hdl = q.tail.getD 2 0 ∧
      (q.packet sid).pes.hs = 9 + (q.tail.getD 2 0).toNat ∧
      (q.packet sid).elementary = q.tail.drop (3 + (q.tail.getD 2 0).toNat)) ∧
    ((q.packet sid).pes.trunc = false → 3 ≤ q.tail.length) := by
  obtain ⟨hsid, hlen, hhdl⟩ := PesStart.packet_pesBytes h sid
  have hext : isExtended ((q.packet sid).byte (4 + q.afSize + 3)) = true := by simp [hsid, isExtended, hx]
  rw [PesStart.packet_elementary h, Packet.pes, PesStart.packet_geometry h]
  by_cases h3 : 3 ≤ q.tail.length
  · rw [pesDecode_extended (by simp; omega) hext]
    refine ⟨hsid, hlen, fun _ => ⟨hhdl, by rw [hhdl], ?_⟩, fun _ => h3⟩
    rw [hhdl, show 9 + (q.tail.getD 2 0).toNat = 6 + (3 + (q.tail.getD 2 0).toNat) by omega, ← List.drop_drop]
    rfl
  · rw [pesDecode_noHdl (by simp) (by simp; omega) hext]
    exact ⟨hsid, hlen, fun h => absurd h h3, fun h => by cases h⟩

end

/-! ## The statements -/

/-- Settles O11: the stream-id is the fourth byte of the payload, which begins behind the adaptation field. -/
theorem streamIdRowFixesTheHeaderSize : Obligations.StreamIdRowFixesTheHeaderSize := by
  intro q h
  refine ⟨fun sid hx => ?_, fun sid hx => ?_⟩
  · obtain ⟨hsid, -, hhdl, hhs, hel⟩ := PesStart.packet_pes_excl h sid hx
    exact ⟨PesStart.packet_isStart h sid, hsid, hhs, hhdl, hel⟩
  · obtain ⟨hsid, -, htail, -⟩ := PesStart.packet_pes_extended h sid hx
    exact ⟨PesStart.packet_isStart h sid, hsid, htail⟩

/-- Settles O5: the masks give AFC and S, these the class and, with L, the geometry. -/
theorem packetClassFixesThePayloadLength : Obligations.PacketClassFixesThePayloadLength := by
  intro p w l
  refine ⟨fun h => ?_, fun h => ?_, fun h => ?_, fun h => ?_, fun h => ?_, fun h => ?_⟩
  · have hafc : p.afc = 0 := Packet.afc_of_mask h rfl
    simp [decodePacket, hafc, Packet.geometry_of_no_af]
  · have hafc : p.afc = 1 := Packet.afc_of_mask h rfl
    have hpusi : p.pusi = true := Packet.pusi_of_mask h rfl
    simp [decodePacket, hafc, hpusi, Packet.geometry_of_no_af]
  · have hafc : p.afc = 1 := Packet.afc_of_mask h rfl
    have hpusi : p.pusi = false := Packet.pusi_of_mask h rfl
    simp [decodePacket, hafc, hpusi, Packet.geometry_of_no_af]
  · have hafc : p.afc = 2 := Packet.afc_of_mask h rfl
    simp [decodePacket, hafc, Packet.geometry_of_af, l]
  · have hafc : p.afc = 3 := Packet.afc_of_mask h rfl
    have hpusi : p.pusi = true := Packet.pusi_of_mask h rfl
    simp [decodePacket, hafc, hpusi, Packet.geometry_of_af, l]
  · have hafc : p.afc = 3 := Packet.afc_of_mask h rfl
    have hpusi : p.pusi = false := Packet.pusi_of_mask h rfl
    simp [decodePacket, hafc, hpusi, Packet.geometry_of_af, l]

end Sys2Proof
end

section
/-! SUPPORT. The event record's codes, flags and fields (spec/30_encoding.md R84 to R86). -/

namespace Sys2Proof.Machine

/-! ## The flag vector (R85) -/

/-- Every flag has a bit of its own. -/
theorem Flag.mask_getLsbD (k k' : Flag) : k.mask.getLsbD k'.index = decide (k' = k) := by
  cases k <;> cases k' <;> rfl

theorem flagVec_getLsbD (flags : List Flag) (k : Flag) : (flagVec flags).getLsbD k.index = decide (k ∈ flags) := by
  induction flags with
  | nil => simp
  | cons k' flags ih => simp [flagVec_cons, ih, Flag.mask_getLsbD]

theorem flagVec_and_mask (flags : List Flag) (k : Flag) :
    flagVec flags &&& k.mask = if k ∈ flags then k.mask else 0 := by
  rw [Flag.mask, BitVec.and_twoPow, flagVec_getLsbD]
  simp

/-! ## The words of a record (R86) -/

/-- Where the fields of W2 lie. -/
theorem eventW2_layout (ch : BitVec 4) (code : BitVec 3) (pes flagged present : Bool) (flags length : Byte) :
    let w : Word := (0 : BitVec 4) ++ ch ++ (0 : BitVec 2) ++ code ++ BitVec.ofBool pes ++ BitVec.ofBool flagged ++
      BitVec.ofBool present ++ flags ++ length
    w.extractLsb' 0 8 = length ∧ w.extractLsb' 8 8 = flags ∧ w.getLsbD 16 = present ∧ w.getLsbD 17 = flagged ∧
    w.getLsbD 18 = pes ∧ w.extractLsb' 19 3 = code ∧ w.extractLsb' 22 2 = 0 ∧ w.extractLsb' 24 4 = ch ∧
    w.extractLsb' 28 4 = 0 := by
  simp only [extractLsb'_eq_iff, BitVec.getLsbD_append, BitVec.getLsbD_ofBool]
  grind

/-- The fields of W2, from what the record was made of. -/
theorem mkEvent_w2_fields (c : Nat) (idx : Word) (h : Header) (a : Option Adaptation) (r : Result) (fl : BitVec 12)
    (pes : Option PesTriple) : let w := (mkEvent c idx h a r fl pes).w2
    w.extractLsb' 0 8 = (a.map Adaptation.length).getD 0 ∧ w.extractLsb' 8 8 = (a.bind Adaptation.flags).getD 0 ∧
    w.getLsbD 16 = a.isSome ∧ w.getLsbD 17 = (a.bind Adaptation.flags).isSome ∧ w.getLsbD 18 = pes.isSome ∧
    w.extractLsb' 19 3 = r.code ∧ w.extractLsb' 22 2 = 0 ∧ w.extractLsb' 24 4 = BitVec.ofNat 4 c ∧
    w.extractLsb' 28 4 = 0 := by
  cases a <;> exact eventW2_layout ..

theorem mkEvent_w3_fields (c : Nat) (idx : Word) (h : Header) (a : Option Adaptation) (r : Result) (fl : BitVec 12)
    (pes : Option PesTriple) : (mkEvent c idx h a r fl pes).w3.extractLsb' 0 12 = fl ∧
    (mkEvent c idx h a r fl pes).w3.extractLsb' 12 20 = 0 :=
  ⟨BitVec.extractLsb'_append_eq_right, BitVec.extractLsb'_append_eq_left⟩

theorem eventW4_layout (t : PesTriple) : let w : Word := t.hdl ++ t.len ++ t.sid
    w.extractLsb' 0 8 = t.sid ∧ w.extractLsb' 8 16 = t.len ∧ w.extractLsb' 24 8 = t.hdl := by
  simp only [extractLsb'_eq_iff, BitVec.getLsbD_append]
  grind

/-- What a record reports of a packet's adaptation field (R86, R121). -/
theorem afDecode_fields (p : Packet) : let a := afDecode p (hdrDecode p)
    (a.map Adaptation.length).getD 0 = (if p.afc = 2 ∨ p.afc = 3 then p.byte 4 else 0) ∧
    (a.bind Adaptation.flags).getD 0 = (if (p.afc = 2 ∨ p.afc = 3) ∧ p.byte 4 ≠ 0 then p.byte 5 else 0) ∧
    a.isSome = decide (p.afc = 2 ∨ p.afc = 3) ∧
    (a.bind Adaptation.flags).isSome = decide ((p.afc = 2 ∨ p.afc = 3) ∧ p.byte 4 ≠ 0) := by
  rw [p.afDecode_eq]
  by_cases haf : p.afc = 2 ∨ p.afc = 3
  · by_cases h0 : p.byte 4 = 0 <;> simp only [haf, h0, if_true, if_false, ne_eq, true_and, not_true, not_false_iff] <;>
      exact ⟨rfl, rfl, rfl, rfl⟩
  · simp only [haf, if_false, false_and]
    exact ⟨rfl, rfl, rfl, rfl⟩

/-- Settles O49: the codes by cases, a flag vector bit by bit, and each word of a record by its layout. -/
theorem eventRecordLayout : Obligations.EventRecordLayout := by
  refine ⟨fun r => by cases r <;> rfl, fun k => by cases k <;> rfl, flagVec_and_mask, ?_⟩
  intro p c idx r fl pes hc ev
  obtain ⟨hlen, hflags, hpresent, hflagged, hpes, hcode, hres, hch, htop⟩ :=
    mkEvent_w2_fields c idx (hdrDecode p) (afDecode p (hdrDecode p)) r fl pes
  obtain ⟨hfl, hfl0⟩ := mkEvent_w3_fields c idx (hdrDecode p) (afDecode p (hdrDecode p)) r fl pes
  obtain ⟨halen, haflags, hapresent, haflagged⟩ := afDecode_fields p
  have hchan : (BitVec.ofNat 4 c).toNat = c := Nat.mod_eq_of_lt hc
  refine ⟨rfl, rfl, hlen.trans halen, hflags.trans haflags, hpresent.trans hapresent, hflagged.trans haflagged, hpes,
    hcode, hres, (congrArg BitVec.toNat hch).trans hchan, htop, hfl, hfl0, ?_, ?_⟩
  · rintro rfl; rfl
  · rintro t rfl; exact eventW4_layout t

end Sys2Proof.Machine
end

section
/-! SUPPORT. The packet rows of the opcode table as ABSORBs that complete (spec/43_assembler.md R171), and what a channel makes of a
packet in sequence: without a payload (R181), a start (R185, R187) and a continuation (R191, R192). -/

namespace Sys2Proof.Machine

/-! ## An ABSORB completes when the ports answer (R171, R297, R298) -/

theorem absorbPacket_total {s : State} (hs : s.Inv) (hports : s.PortsAnswer) (p : Packet) :
    ∃ t, absorbPacket p s = .next t ∧ AbsorbsTo s p t := by
  obtain ⟨⟨-, -, hcap⟩, hlanes⟩ := hs
  cases h : absorbPacket p s with
  | next t => exact ⟨t, rfl, absorbPacket_eq_next h⟩
  | fault f =>
    obtain ⟨c, l, hl, he⟩ := absorbPacket_eq_fault h
    have hmem := List.mem_of_getElem? hl
    obtain ⟨hsink, hev⟩ := hports l hmem
    obtain ⟨l', hok⟩ := absorbLane_total s.pktIndex p c (hlanes l hmem) hcap hsink hev
    rw [hok] at he; cases he
  | refused r => exact absurd h absorbPacket_not_refused

/-- The lane an ABSORB leaves is what its channel makes of the packet. -/
theorem AbsorbsTo.lane {s t : State} {p : Packet} {c : Nat} {l l' : Lane} (h : AbsorbsTo s p t)
    (hl : s.lanes[c]? = some l) (ha : absorbLane s.accCapacity s.pktIndex p c l = .ok l') : t.lanes[c]? = some l' := by
  obtain ⟨-, -, -, -, -, hlanes⟩ := h
  obtain ⟨l1, hl1, ha1, -⟩ := hlanes c l hl
  rw [hl1, Except.ok.inj (ha.symm.trans ha1)]

/-! ## The buffer after an append -/

/-- A buffer that holds exactly the bytes below `n` reads them, then the appended ones. -/
theorem Memory.read?_append_at_end {m : Memory} {n : Nat} (h : m.map Prod.fst = List.range n) (bytes : List Byte)
    (a : Nat) : (m.write n bytes).read? a = if a < n then m.read? a else bytes[a - n]? := by
  rw [Memory.read?_write]
  by_cases hlt : a < n
  · rw [if_neg (by omega), if_pos hlt]
  · rw [if_neg hlt]
    by_cases hin : a < n + bytes.length
    · rw [if_pos ⟨by omega, hin⟩]
    · have hout : m.read? a = none := by
        rw [← Option.not_isSome_iff_eq_none, Memory.read?_isSome, h, List.mem_range]; exact hlt
      rw [if_neg (by omega), hout, List.getElem?_eq_none (by omega)]

theorem flagVec_snoc (flags : List Flag) (k : Flag) : setFlag (flagVec flags) k = flagVec (flags ++ [k]) := by
  rw [flagVec, flagVec, List.foldl_append]; rfl

/-! ## A packet without a payload (R181) -/

/-- `P[4]` is the first byte behind the TS header. -/
theorem TsFields.packet_byte4 (f : TsFields) (u : Bool) (a : BitVec 2) (b : Body) :
    (f.packet u a b).byte 4 = b.val.getD 0 0 := by
  simp [Packet.byte, TsFields.packet, TsFields.header]

theorem absorbLane_no_payload {cap idx : Word} {p : Packet} {c : Nat} {l : Lane} (hev : l.EventTaken)
    (ht : l.ch.Takes p) (hseq : l.ch.InSequence p.cc) (herr : p.geometry.err = false) (h0 : p.geometry.plen = 0) :
    ∃ l', absorbLane cap idx p c l = .ok l' ∧ l'.sink = l.sink ∧
      l'.ch = l.ch.reported p.cc .assemblingContinue (flagVec [.noPayload]) := by
  have hlost : l.ch.ccLost (hdrDecode p).cc = false := (Channel.ccLost_eq_false p.cc l.ch).2 hseq
  have hproc : processPacket cap c p (hdrDecode p) p.geometry { lane := l, fl := 0, pes := none } =
      .ok (.assemblingContinue, (({ lane := l, fl := 0, pes := none } : Work).tracked p.cc false).flag .noPayload) := by
    rw [processPacket_eq, if_neg (by simp [herr]), if_neg (by simp [hlost]), if_pos h0, hlost]
    rfl
  exact ⟨_, absorbLane_taken hev ht hproc, rfl, rfl⟩

/-! ## A start packet in sequence on an Idle channel (R185, R187) -/

/-- An accepted header whose first fragment neither overflows nor completes the PES begins it. -/
theorem absorbLane_start_begins {cap idx : Word} {p : Packet} {c : Nat} {l : Lane} (hev : l.EventTaken)
    (ht : l.ch.Takes p) (hst : p.IsStart) (hseq : l.ch.InSequence p.cc) (hi : l.ch.Inv cap) (hcap : 65535 ≤ cap.toNat)
    (hidle : l.ch.state = .idle) (ha : p.pes.Accepted l.ch.malformedPolicy)
    (hpart : p.pes.len ≠ 0 → p.geometry.plen < p.pes.len.toNat + 6) :
    ∃ l', absorbLane cap idx p c l = .ok l' ∧ l'.sink = l.sink ∧
      l'.ch = l.ch.started p .assemblingStarted (flagVec (p.pes.acceptFlags ++ [.start])) l'.ch.acc ∧
      ∀ a, l'.ch.acc.read? a = p.elementary[a]? := by
  have ⟨_, _, hp⟩ := hst
  have hbegin : absorbLane cap idx p c l = .ok (((Work.begun p l).finish .assemblingStarted).recorded
      (p.event c idx .assemblingStarted (Work.begun p l).fl (Work.begun p l).pes)) := by
    refine absorbLane_start hev ht hst ?_
    rw [(Channel.ccLost_eq_false p.cc l.ch).2 hseq, startPes_idle hidle, beginPes_accepted hp hcap ha]
    dsimp only
    rw [if_neg (fun h => by have := hpart h.1; omega), if_neg (fun h => by have := hpart h.1; omega)]
    simp [Work.begun, Work.tracked, Work.flag, Work.withCh, Channel.begun, Lane.withCh, setFlagIf]
  have hkeys : l.ch.acc.map Prod.fst = List.range 0 := by
    obtain ⟨hkeys, -, -, hwoff, -⟩ := hi
    rw [hkeys, (hwoff hidle).1]; rfl
  refine ⟨_, hbegin, rfl, ?_, fun a => ?_⟩
  · rw [Channel.started_eq p _ _ _ _ hp, ← flagVec_snoc]; rfl
  · exact Memory.read?_append_at_end hkeys p.elementary a

/-- The first six bytes are all that decoding needs (R140, R145). -/
theorem pesDecode_decoded (p : Packet) (off plen : Nat) : (pesDecode p off plen).decoded = decide (6 ≤ plen) := by
  by_cases h6 : plen < 6
  · rw [pesDecode_short h6]; simp; omega
  · rw [decide_eq_true (Nat.not_lt.1 h6)]
    cases hx : isExtended (p.byte (off + 3))
    · rw [pesDecode_excl (Nat.not_lt.1 h6) hx]
    · by_cases h9 : plen < 9
      · rw [pesDecode_noHdl (Nat.not_lt.1 h6) h9 hx]
      · rw [pesDecode_extended (Nat.not_lt.1 h9) hx]

/-- A rejected header begins no PES: its flags, and the header if it was decoded (R185). -/
theorem beginPes_rejected {cap : Word} {p : Packet} {c : Nat} {lost : Bool} {w : Work}
    (ha : ¬ p.pes.Accepted w.lane.ch.malformedPolicy) :
    beginPes cap c p p.geometry lost w = .ok (.streamPacketLost,
      { w with pes := if 6 ≤ p.geometry.plen then some p.pes.triple else w.pes
               fl := w.fl ||| (pesCheck p.pes w.lane.ch.malformedPolicy).fl }) := by
  have hrej : (pesCheck p.pes w.lane.ch.malformedPolicy).accept = false := by
    rw [← Bool.not_eq_true, pesCheck_accept]; exact ha
  have hdec : p.pes.decoded = decide (6 ≤ p.geometry.plen) := pesDecode_decoded ..
  unfold beginPes
  simp only [show pesDecode p p.geometry.off p.geometry.plen = p.pes from rfl, hrej, hdec, decide_eq_true_eq,
    Bool.false_eq_true, if_false]

/-! ## A continuation in sequence (R191, R192) -/

theorem continuePes_appends {cap : Word} {c : Nat} {p : Packet} {w : Work} (hp : 0 < p.geometry.plen)
    (hs : w.lane.ch.state = .assembling) (hcap : w.lane.ch.expected.toNat ≤ cap.toNat)
    (hfit : if w.lane.ch.bounded then w.lane.ch.woff.toNat + p.geometry.plen < w.lane.ch.expected.toNat
      else w.lane.ch.woff.toNat + p.geometry.plen ≤ cap.toNat) :
    continuePes cap c p p.geometry w = .ok (.assemblingContinue, w.withCh (w.lane.ch.appended p)) := by
  have hlen := (Packet.payload_length hp).1
  have hle : w.lane.ch.woff.toNat + p.geometry.plen ≤ cap.toNat := by split at hfit <;> omega
  have hroom : w.lane.ch.woff.toNat + p.geometry.plen ≤ w.lane.ch.room cap := by
    unfold Channel.room
    split at hfit
    · rw [if_pos ‹_›]; omega
    · rw [if_neg ‹_›]; exact hfit
  have hpart : ¬ (w.lane.ch.bounded && w.lane.ch.woff.toNat + p.geometry.plen == w.lane.ch.expected.toNat) = true := by
    rw [Bool.and_eq_true, beq_iff_eq]
    rintro ⟨hb, he⟩
    rw [if_pos hb] at hfit
    omega
  have hw : w.lane.ch.accWrite cap c w.lane.ch.woff.toNat (p.slice p.geometry.off 188) =
      .ok { w.lane.ch with acc := w.lane.ch.acc.write w.lane.ch.woff.toNat p.payload } :=
    if_pos (show w.lane.ch.woff.toNat + p.payload.length ≤ cap.toNat by omega)
  unfold continuePes
  dsimp only
  rw [if_neg (by simp [hs]), if_neg (by omega), hw]
  dsimp only
  rw [if_neg hpart]
  rfl

theorem absorbLane_appends {cap idx : Word} {p : Packet} {c : Nat} {l : Lane} (hev : l.EventTaken)
    (ht : l.ch.Takes p) (hc : p.IsContinuation) (hseq : l.ch.InSequence p.cc) (hi : l.ch.Inv cap)
    (hcap : 65535 ≤ cap.toNat) (hs : l.ch.state = .assembling)
    (hfit : if l.ch.bounded then l.ch.woff.toNat + p.geometry.plen < l.ch.expected.toNat
      else l.ch.woff.toNat + p.geometry.plen ≤ cap.toNat) :
    ∃ l', absorbLane cap idx p c l = .ok l' ∧ l'.sink = l.sink ∧
      l'.ch = { l.ch.reported p.cc .assemblingContinue 0 with
        woff := BitVec.ofNat 32 (l.ch.woff.toNat + p.geometry.plen), acc := l'.ch.acc } ∧
      ∀ a, l'.ch.acc.read? a =
        if a < l.ch.woff.toNat then l.ch.acc.read? a else p.payload[a - l.ch.woff.toNat]? := by
  have ⟨_, _, hp⟩ := hc
  obtain ⟨hkeys, -, hexp, -⟩ := hi
  have hcont := continuePes_appends (cap := cap) (c := c)
    (w := { lane := l.withCh (l.ch.trackCc p.cc), fl := 0, pes := none }) hp hs (hexp.trans hcap) hfit
  exact ⟨_, absorbLane_continuation hev ht hc hseq hcont, rfl, rfl, Memory.read?_append_at_end hkeys p.payload⟩

/-! ## The statements -/

/-- Settles O29: AFC 00 and 10 carry no payload, so a channel in sequence takes the packet without one. -/
theorem zeroPayloadRowsKeepThePes : Obligations.ZeroPayloadRowsKeepThePes := by
  intro u f b s hs hports
  obtain ⟨t0, ht0, habs0⟩ := absorbPacket_total hs hports (f.packet u 0 b)
  obtain ⟨t2, ht2, habs2⟩ := absorbPacket_total hs hports (f.packet u 2 b)
  refine ⟨⟨t0, ht0, habs0, fun c l hl htakes hseq => ?_⟩, ⟨t2, ht2, habs2, fun c l hl htakes hseq hfit => ?_⟩⟩
  · have hafc := TsFields.packet_afc f u 0 b
    have hg := Packet.geometry_of_no_af (.inl hafc)
    rw [hafc] at hg
    rw [← TsFields.packet_cc f u 0 b] at hseq ⊢
    obtain ⟨l', hok, hl'⟩ := absorbLane_no_payload (hports l (List.mem_of_getElem? hl)).2 htakes hseq
      (by rw [hg]) (by rw [hg]; rfl)
    exact ⟨l', habs0.lane hl hok, hl'⟩
  · have hafc := TsFields.packet_afc f u 2 b
    have hg := Packet.geometry_of_af (.inl hafc)
    rw [hafc, TsFields.packet_byte4, decide_eq_false (Nat.not_lt.2 hfit)] at hg
    rw [← TsFields.packet_cc f u 2 b] at hseq ⊢
    obtain ⟨l', hok, hl'⟩ := absorbLane_no_payload (hports l (List.mem_of_getElem? hl)).2 htakes hseq
      (by rw [hg]) (by rw [hg]; rfl)
    exact ⟨l', habs2.lane hl hok, hl'⟩

/-- Settles O30: the rows are ABSORBs of start packets, and each channel begins its PES. -/
theorem startRowsBeginAPes : Obligations.StartRowsBeginAPes := by
  intro f b s af hs hports p
  have ⟨⟨_, _, hcap⟩, hlanes⟩ := hs
  obtain ⟨t, ht, habs⟩ := absorbPacket_total hs hports p
  refine ⟨t, by cases af <;> exact ht, habs, fun c l hl htakes hseq hidle hstart hacc hpart => ?_⟩
  have hmem := List.mem_of_getElem? hl
  have hcc : p.cc = f.cc := TsFields.packet_cc ..
  obtain ⟨l', hok, hrest⟩ := absorbLane_start_begins (hports l hmem).2 htakes hstart (hcc ▸ hseq) (hlanes l hmem)
    hcap hidle hacc hpart
  exact ⟨l', habs.lane hl hok, hrest⟩

/-- Settles O31: the rows are ABSORBs of continuation packets, and each channel appends the payload. -/
theorem continuationRowsAppend : Obligations.ContinuationRowsAppend := by
  intro f b s af hs hports p
  have ⟨⟨_, _, hcap⟩, hlanes⟩ := hs
  obtain ⟨t, ht, habs⟩ := absorbPacket_total hs hports p
  refine ⟨t, by cases af <;> exact ht, habs, fun c l hl htakes hseq hasm hcont hfit => ?_⟩
  have hmem := List.mem_of_getElem? hl
  have hcc : p.cc = f.cc := TsFields.packet_cc ..
  obtain ⟨l', hok, hrest⟩ := absorbLane_appends (hports l hmem).2 htakes hcont (hcc ▸ hseq) (hlanes l hmem)
    hcap hasm hfit
  exact ⟨l', habs.lane hl hok, hcc ▸ hrest⟩

/-- Each of the nine stream-id rows is the ABSORB of a start packet that fits (R75, log entry 11). -/
theorem streamIdRow_exec {q : PesStart} {sid : Byte} {i : Instr} (hwf : i.wellFormed = true)
    (h : (sid, i) ∈ [((0xBC : Byte), Instr.sidExclBC q), (0xBE, .sidExclBE q), (0xBF, .sidExclBF q),
      (0xF0, .sidExclF0 q), (0xF1, .sidExclF1 q), (0xF2, .sidExclF2 q), (0xF8, .sidExclF8 q), (0xFF, .sidExclFF q),
      (sid, .sidExtended sid q)]) :
    q.fits = true ∧ ∀ s, exec i s = absorbPacket (q.packet sid) s := by
  simp only [List.mem_cons, Prod.mk.injEq, List.not_mem_nil, or_false] at h
  rcases h with ⟨rfl, rfl⟩ | ⟨rfl, rfl⟩ | ⟨rfl, rfl⟩ | ⟨rfl, rfl⟩ | ⟨rfl, rfl⟩ | ⟨rfl, rfl⟩ | ⟨rfl, rfl⟩ | ⟨rfl, rfl⟩ |
    ⟨-, rfl⟩
  case inr.inr.inr.inr.inr.inr.inr.inr => exact ⟨(Bool.and_eq_true_iff.1 hwf).1, fun _ => rfl⟩
  all_goals exact ⟨hwf, fun _ => rfl⟩

/-- A start packet that fits and whose header is accepted: its PES header and its elementary bytes, by its stream-id. -/
theorem PesStart.packet_pes_accepted {q : PesStart} {sid : Byte} {policy : MalformedPolicy} (h : q.fits = true)
    (ha : (q.packet sid).pes.Accepted policy) :
    (q.packet sid).pes.sid = sid ∧ (q.packet sid).pes.len = q.len ∧
    (q.packet sid).elementary = (if sid ∈ exclSids then q.tail else q.tail.drop (3 + (q.tail.getD 2 0).toNat)) ∧
    (q.packet sid).pes.hdl = (if sid ∈ exclSids then 0 else q.tail.getD 2 0) := by
  by_cases hx : sid ∈ exclSids
  · obtain ⟨hsid, hlen, hhdl, -, hel⟩ := PesStart.packet_pes_excl h sid hx
    rw [if_pos hx, if_pos hx]
    exact ⟨hsid, hlen, hel, hhdl⟩
  · obtain ⟨hsid, hlen, htail, htrunc⟩ := PesStart.packet_pes_extended h sid hx
    obtain ⟨hhdl, -, hel⟩ := htail (htrunc ha.1)
    rw [if_neg hx, if_neg hx]
    exact ⟨hsid, hlen, hel, hhdl⟩

/-- Settles O32: each row is the ABSORB of a start packet, whose stream-id decides its header and its elementary bytes. -/
theorem streamIdRowsBeginAPes : Obligations.StreamIdRowsBeginAPes := by
  intro q s sid i hs hports hwf hrow p
  obtain ⟨hfits, hexec⟩ := streamIdRow_exec hwf hrow
  have ⟨⟨_, _, hcap⟩, hlanes⟩ := hs
  obtain ⟨t, ht, habs⟩ := absorbPacket_total hs hports p
  refine ⟨t, (hexec s).trans ht, habs, fun c l hl htakes hseq hidle hacc hpart => ?_⟩
  have hmem := List.mem_of_getElem? hl
  obtain ⟨hsid, hlen, hel, hhdl⟩ := PesStart.packet_pes_accepted hfits hacc
  rw [← PesStart.packet_cc hfits sid] at hseq
  rw [← hlen] at hpart
  obtain ⟨l', hok, hsink, hch, hread⟩ := absorbLane_start_begins (hports l hmem).2 htakes
    (PesStart.packet_isStart hfits sid) hseq (hlanes l hmem) hcap hidle hacc hpart
  refine ⟨l', habs.lane hl hok, hsink, ?_, ?_, ?_, ?_, hel ▸ hread, ?_⟩ <;> rw [hch]
  · rfl
  · exact hsid
  · exact hlen
  · rfl
  · exact hhdl

/-- Settles O40: the payload is appended to what was written, and the flush that completes the PES sends both. -/
theorem completingContinuationFlushes : Obligations.CompletingContinuationFlushes := by
  intro cap idx p c l hev ht hc hseq hi hcap hs hb he hr
  have ⟨_, _, hp⟩ := hc
  obtain ⟨hkeys, -, hexp, -⟩ := hi
  obtain ⟨burst, hburst⟩ := Memory.readRange?_of_keys _ _ hkeys
  have hread := Channel.readRange?_appended (ch := l.ch.trackCc p.cc) hp (by simp; omega) hburst
  have hflush := Work.flushAs_of_ok (c := c) (r := .assemblingFinished)
    (w := { lane := l.withCh ((l.ch.trackCc p.cc).appended p), fl := 0, pes := none }) hread hr
  have hcont := continuePes_completes (cap := cap)
    (w := { lane := l.withCh (l.ch.trackCc p.cc), fl := 0, pes := none }) hp hs hb he (hexp.trans hcap) hflush
  exact ⟨_, burst, hburst, absorbLane_continuation hev ht hc hseq hcont, rfl, rfl, rfl⟩

/-- Settles O44: the channel is Idle, so the rejected header leaves nothing but its report. -/
theorem rejectedStartIsLost : Obligations.RejectedStartIsLost := by
  intro cap idx p c l hev ht hst hseq hidle hrej fl
  have hlost : l.ch.ccLost p.cc = false := (Channel.ccLost_eq_false p.cc l.ch).2 hseq
  have hbegin : startPes cap c p p.geometry (l.ch.ccLost p.cc)
      (({ lane := l, fl := 0, pes := none } : Work).tracked p.cc (l.ch.ccLost p.cc)) = .ok (.streamPacketLost,
        { lane := l.withCh (l.ch.trackCc p.cc), fl := fl
          pes := if 6 ≤ p.geometry.plen then some p.pes.triple else none }) := by
    rw [hlost, startPes_idle hidle, beginPes_rejected hrej]
    simp [Work.tracked, Work.withCh, setFlagIf, fl]
  exact ⟨_, absorbLane_start hev ht hst hbegin, rfl, rfl, rfl⟩

end Sys2Proof.Machine
end

section
/-! SUPPORT. What of a packet assembly reads: the PID, S, the CC, the geometry and the payload region (spec/40_header_parser.md
R102, R103; 41_adaptation_field.md R122, R125). -/

namespace Sys2Proof

/-! ## The bytes of two packets of one geometry and payload -/

theorem Packet.byte_congr {p p' : Packet} (hg : p.geometry = p'.geometry) (hpay : p.payload = p'.payload) (k : Nat) :
    p.byte (p.geometry.off + k) = p'.byte (p.geometry.off + k) := by
  rw [Packet.byte_payload, hpay, ← Packet.byte_payload, hg]

theorem Packet.slice_congr {p p' : Packet} (hg : p.geometry = p'.geometry) (hpay : p.payload = p'.payload) (k : Nat) :
    p.slice (p.geometry.off + k) 188 = p'.slice (p.geometry.off + k) 188 := by
  rw [Packet.slice_payload, hpay, ← Packet.slice_payload, hg]

end Sys2Proof

namespace Sys2Proof.Machine

/-! ## What assembly makes of them -/

section
variable {p p' : Packet} (hg : p.geometry = p'.geometry) (hpay : p.payload = p'.payload)
include hg hpay

/-- The PES header lies in the payload region (R140). -/
theorem pesDecode_congr : pesDecode p p.geometry.off p.geometry.plen = pesDecode p' p'.geometry.off p'.geometry.plen := by
  have hbyte := Packet.byte_congr hg hpay
  have hbyte0 : p.byte p.geometry.off = p'.byte p.geometry.off := hbyte 0
  rw [← hg]
  simp only [pesDecode, hbyte0, hbyte]

theorem beginPes_congr (cap : Word) (c : Nat) (lost : Bool) (w : Work) :
    beginPes cap c p p.geometry lost w = beginPes cap c p' p'.geometry lost w := by
  have hpes := pesDecode_congr hg hpay
  rw [← hg] at hpes ⊢
  simp only [beginPes, hpes, Packet.slice_congr hg hpay]

theorem startPes_congr (cap : Word) (c : Nat) (lost : Bool) (w : Work) :
    startPes cap c p p.geometry lost w = startPes cap c p' p'.geometry lost w := by
  simp only [startPes, beginPes_congr hg hpay]

theorem continuePes_congr (cap : Word) (c : Nat) (w : Work) :
    continuePes cap c p p.geometry w = continuePes cap c p' p'.geometry w := by
  have hslice : p.slice p.geometry.off 188 = p'.slice p.geometry.off 188 := Packet.slice_congr hg hpay 0
  rw [← hg]
  simp only [continuePes, hslice]

/-- Behind the gates the algorithm reads S and the CC of the header, the geometry and the payload region, and nothing else. -/
theorem processPacket_congr (hpusi : p.pusi = p'.pusi) (hcc : p.cc = p'.cc) (cap : Word) (c : Nat) (w : Work) :
    processPacket cap c p (hdrDecode p) p.geometry w = processPacket cap c p' (hdrDecode p') p'.geometry w := by
  have hpusi' : (hdrDecode p).pusi = (hdrDecode p').pusi := hpusi
  have hcc' : (hdrDecode p).cc = (hdrDecode p').cc := hcc
  rw [processPacket_eq, processPacket_eq, hpusi', hcc', startPes_congr hg hpay, continuePes_congr hg hpay, hg]

end

/-! ## The gates (R173, R174) -/

/-- A channel either turns the packet away and only reports it, or takes it and finishes what `processPacket` makes of it. -/
theorem absorbLane_cases {cap idx : Word} {p : Packet} {c : Nat} {l l' : Lane} (h : absorbLane cap idx p c l = .ok l') :
    (¬ l.ch.Takes p ∧ ∃ ev, l' = l.recorded ev) ∨
    (l.ch.Takes p ∧ ∃ r w ev, l' = (w.finish r).recorded ev ∧
      processPacket cap c p (hdrDecode p) p.geometry { lane := l, fl := 0, pes := none } = .ok (r, w)) := by
  unfold absorbLane at h
  dsimp only at h
  split at h
  · cases h
  · rename_i l0 ev ha
    obtain ⟨-, rfl⟩ := eventEmit_eq_ok h
    unfold absorbChannel at ha
    split at ha
    · rename_i hgate
      cases ha
      refine .inl ⟨fun ⟨hen, hpid, _⟩ => ?_, _, rfl⟩
      have hpid' : (hdrDecode p).pid = l.ch.targetPid := hpid
      simp [hen, hpid'] at hgate
    · rename_i hgate
      split at ha
      · rename_i hfatal
        cases ha
        exact .inl ⟨fun ⟨_, _, hnf⟩ => by simp [hnf] at hfatal, _, rfl⟩
      · rename_i hnf
        have htakes : l.ch.Takes p := by
          simp only [Bool.or_eq_true, Bool.not_eq_true', bne_iff_ne, not_or, Bool.not_eq_false, not_not] at hgate
          exact ⟨hgate.1, hgate.2, by simpa using hnf⟩
        split at ha
        · cases ha
        · rename_i r w hp
          cases ha
          exact .inr ⟨htakes, r, w, _, rfl, hp⟩

/-! ## The statement -/

/-- Settles O54: the gates read the PID alone, `processPacket` S, the CC, the geometry and the payload; the rest of the packet
reaches only the event record. -/
theorem onlyHeaderGeometryAndPayloadMatter : Obligations.OnlyHeaderGeometryAndPayloadMatter := by
  intro cap idx p p' c l l1 l1' hpid hpusi hcc hg hpay h h'
  have htakes : l.ch.Takes p ↔ l.ch.Takes p' := by rw [Channel.Takes, Channel.Takes, hpid]
  rcases absorbLane_cases h with ⟨hno, ev, rfl⟩ | ⟨hyes, r, w, ev, rfl, hproc⟩ <;>
    rcases absorbLane_cases h' with ⟨hno', ev', rfl⟩ | ⟨hyes', r', w', ev', rfl, hproc'⟩
  · exact ⟨rfl, rfl⟩
  · exact absurd (htakes.2 hyes') hno
  · exact absurd (htakes.1 hyes) hno'
  · rw [processPacket_congr hg hpay hpusi hcc, hproc'] at hproc
    cases hproc
    exact ⟨rfl, rfl⟩

end Sys2Proof.Machine
end

section
/-! SUPPORT. The flags of a decoded adaptation field (spec/41_adaptation_field.md R120, R121). The field's presence and the
geometry per AFC are `Packet.afDecode_eq`, `Packet.geometry_of_no_af` and `Packet.geometry_of_af`. -/

namespace Sys2Proof.Machine

theorem Adaptation.flag_of_flags_none {a : Adaptation} (h : a.flags = none) (k : AfFlag) : a.flag k = false := by
  rw [Adaptation.flag, h]
  exact BitVec.getLsbD_zero

theorem Adaptation.flag_of_flags_some {a : Adaptation} {f : Byte} (h : a.flags = some f) (k : AfFlag) :
    a.flag k = f.getLsbD k.index := by
  rw [Adaptation.flag, h, Option.getD_some]

/-! ## The statements -/

/-- Settles O7: AFC decides whether there is a field, its length whether there is a flags byte, and a flag is read at its index. -/
theorem adaptationFieldIsDecoded : Obligations.AdaptationFieldIsDecoded := by
  intro p h
  refine ⟨fun (hafc : p.afc = 0 ∨ p.afc = 1) => ?_, fun (hafc : p.afc = 2 ∨ p.afc = 3) => ?_⟩
  · have hno : ¬ (p.afc = 2 ∨ p.afc = 3) := by rcases hafc with hafc | hafc <;> rw [hafc] <;> decide
    rw [p.afDecode_eq, if_neg hno]
  · rw [p.afDecode_eq, if_pos hafc]
    refine ⟨_, rfl, rfl, rfl, fun h0 => ?_, fun h0 => ?_⟩
    · exact ⟨if_pos h0, Adaptation.flag_of_flags_none (if_pos h0)⟩
    · rw [if_neg h0]
      have hflag := Adaptation.flag_of_flags_some (a := ⟨p.byte 4, some (p.byte 5)⟩) rfl
      exact ⟨rfl, hflag .disc, hflag .rai, hflag .espi, hflag .pcr, hflag .opcr, hflag .splice, hflag .priv,
        hflag .extension⟩

/-- Settles O8: AFC decides between the two geometries, with and without a field; of the second, L decides whether the field
fits and whether a payload is left. -/
theorem geometryFollowsTheTable : Obligations.GeometryFollowsTheTable := by
  intro p l
  refine ⟨fun h => ?_, fun h => ?_, fun h hl => ?_, fun h hl => ?_, fun h hl => ?_, fun h hl => ?_, fun h hl => ?_⟩
  · simp [Packet.geometry_of_no_af (.inl h), h]
  · simp [Packet.geometry_of_no_af (.inr h), h]
  · have hfits : ¬ 183 < l := by omega
    simp [Packet.geometry_of_af (.inl h), h, l, hfits]
  · have hover : 183 < l := by omega
    simp [Packet.geometry_of_af (.inl h), h, l, hover]
  · have hfits : ¬ 183 < l := by omega
    simp [Packet.geometry_of_af (.inr h), h, l, hfits]
  · have hfull : (p.byte 4).toNat = 183 := hl
    simp [Packet.geometry_of_af (.inr h), h, hfull]
  · have hover : 183 < l := by omega
    have hnone : 183 - l = 0 := by omega
    simp [Packet.geometry_of_af (.inr h), h, l, hover, hnone]

end Sys2Proof.Machine
end

section
/-! SUPPORT. PES_DECODE field by field and the branches of PES_CHECK (spec/42_pes_header.md R140 to R150). The equation of
PES_DECODE per case is `pesDecode_short`, `pesDecode_excl`, `pesDecode_noHdl` and `pesDecode_extended`. -/

namespace Sys2Proof.Machine

/-! ## PES_DECODE (R140) -/

theorem PesDecode.startCodeOk_iff (d : PesDecode) : d.startCodeOk = true ↔ d.startCode = 1 := beq_iff_eq

/-- The structural fields do not depend on the header being whole (R141, R142). -/
theorem pesDecode_structural {p : Packet} {off plen : Nat} (h : 6 ≤ plen) :
    (pesDecode p off plen).startCode = p.byte off ++ p.byte (off + 1) ++ p.byte (off + 2) ∧
    (pesDecode p off plen).sid = p.byte (off + 3) ∧
    (pesDecode p off plen).len = p.byte (off + 4) ++ p.byte (off + 5) := by
  cases hx : isExtended (p.byte (off + 3))
  · rw [pesDecode_excl h hx]
    exact ⟨rfl, rfl, rfl⟩
  · by_cases h9 : plen < 9
    · rw [pesDecode_noHdl h h9 hx]
      exact ⟨rfl, rfl, rfl⟩
    · rw [pesDecode_extended (Nat.not_lt.1 h9) hx]
      exact ⟨rfl, rfl, rfl⟩

/-- A 16-bit field is sent with its high byte first (R74). -/
theorem toNat_append_bytes (hi lo : Byte) : (hi ++ lo : BitVec 16).toNat = hi.toNat * 256 + lo.toNat := by
  rw [BitVec.toNat_append, ← Nat.shiftLeft_add_eq_or_of_lt lo.isLt, Nat.shiftLeft_eq]

theorem isExtended_eq_false {sid : Byte} : isExtended sid = false ↔ sid ∈ exclSids := by simp [isExtended]

theorem isExtended_eq_true {sid : Byte} : isExtended sid = true ↔ sid ∉ exclSids := by simp [isExtended]

/-! ## PES_CHECK (R150) -/

/-- The flag of the start code, which every verdict carries (R141). -/
def PesDecode.startCodeFlags (d : PesDecode) : List Flag :=
  if d.decoded = true ∧ d.startCode ≠ 1 then [.badStartCode] else []

theorem PesDecode.flagVec_startCodeFlags (d : PesDecode) :
    setFlagIf (d.decoded && !d.startCodeOk) 0 .badStartCode = flagVec d.startCodeFlags := by
  have hiff : (d.decoded && !d.startCodeOk) = true ↔ d.decoded = true ∧ d.startCode ≠ 1 := by
    simp [PesDecode.startCodeOk]
  by_cases hbad : d.decoded = true ∧ d.startCode ≠ 1
  · rw [hiff.2 hbad, startCodeFlags, if_pos hbad]; rfl
  · rw [Bool.eq_false_iff.2 (mt hiff.1 hbad), startCodeFlags, if_neg hbad]; rfl

/-- A truncated header is rejected under either policy (R145). -/
theorem pesCheck_truncated {d : PesDecode} (policy : MalformedPolicy) (ht : d.trunc = true) :
    pesCheck d policy = ⟨false, flagVec (d.startCodeFlags ++ [.hdrTrunc])⟩ := by
  rw [← flagVec_snoc, ← d.flagVec_startCodeFlags, pesCheck, if_pos ht]

/-- So is one whose declared length does not cover it (R149). -/
theorem pesCheck_tooShort {d : PesDecode} (policy : MalformedPolicy) (ht : d.trunc = false) (h0 : d.len ≠ 0)
    (hs : d.len.toNat + 6 < d.hs) :
    pesCheck d policy = ⟨false, flagVec (d.startCodeFlags ++ [.len])⟩ := by
  have hshort : (d.bounded && decide (d.len.toNat + 6 < d.hs)) = true := by
    rw [PesDecode.bounded, bne_iff_ne.2 h0, decide_eq_true hs]; rfl
  rw [← flagVec_snoc, ← d.flagVec_startCodeFlags, pesCheck, if_neg (Bool.eq_false_iff.1 ht), if_pos hshort]

/-- On any other header the start code and the policy decide. -/
theorem pesCheck_covered {d : PesDecode} (policy : MalformedPolicy) (ht : d.trunc = false)
    (hl : d.len = 0 ∨ d.hs ≤ d.len.toNat + 6) :
    pesCheck d policy = ⟨d.startCodeOk || policy == .propagate, flagVec d.startCodeFlags⟩ := by
  rw [pesCheck_sound ht hl.resolve_left, d.flagVec_startCodeFlags]

/-! ## The statements -/

/-- Settles O9: the structural fields need six bytes; the stream-id, and of an extended one the ninth byte, decide the rest. -/
theorem pesHeaderIsDecoded : Obligations.PesHeaderIsDecoded := by
  intro p off plen
  refine ⟨fun h6 => ?_, fun h6 => ?_⟩
  · rw [pesDecode_short h6]
    exact ⟨rfl, rfl, rfl, rfl, rfl⟩
  · obtain ⟨hstart, hsid, hlen⟩ := pesDecode_structural (p := p) (off := off) h6
    have hdec : (pesDecode p off plen).decoded = true := by rw [pesDecode_decoded]; exact decide_eq_true h6
    refine ⟨hdec, hstart, PesDecode.startCodeOk_iff _, hsid, ?_, fun hx => ?_, fun hx => ?_⟩
    · rw [hlen, toNat_append_bytes]
    · rw [hsid] at hx
      rw [pesDecode_excl h6 (isExtended_eq_false.2 hx)]
      exact ⟨rfl, rfl, rfl⟩
    · rw [hsid] at hx
      have hext := isExtended_eq_true.2 hx
      refine ⟨fun h9 => ?_, fun h9 => ?_⟩
      · rw [pesDecode_noHdl h6 h9 hext]
        exact ⟨rfl, rfl⟩
      · rw [pesDecode_extended h9 hext]
        exact ⟨rfl, rfl, rfl⟩

/-- Settles O10: PES_CHECK gives these verdicts on any header, whether or not PES_DECODE gives it. -/
theorem pesCheckGivesTheVerdict : Obligations.PesCheckGivesTheVerdict := by
  intro p off plen policy
  refine ⟨pesCheck_truncated policy, pesCheck_tooShort policy, fun ht hl hbad hpol => ?_, fun ht hl hacc => ?_⟩
  · rw [pesCheck_covered policy ht hl, Bool.eq_false_iff.2 (mt (PesDecode.startCodeOk_iff _).1 hbad), hpol]
    rfl
  · have haccept : ((pesDecode p off plen).startCodeOk || policy == .propagate) = true := by
      rwa [Bool.or_eq_true, PesDecode.startCodeOk_iff, beq_iff_eq]
    rw [pesCheck_covered policy ht hl, haccept]
    rfl

end Sys2Proof.Machine
end

section
/-! SUPPORT. What one packet does to a channel on each way it can be turned away or taken: the gates (spec/43_assembler.md R173, R174),
the geometry error (R175), a loss without a start (R179), no payload (R181) and a continuation (R189 to R192); with them the statements
that the laws of a whole command give at once. -/

namespace Sys2Proof.Machine

/-! ## Whole commands -/

/-- Settles O28: the row is the ABSORB, which completes when the ports answer. -/
theorem absorbPresentsThePacketToEveryChannel : Obligations.AbsorbPresentsThePacketToEveryChannel :=
  fun p _ hs hports => absorbPacket_total hs hports p

/-- A channel with FATAL keeps its state and its sink under every effect but the write to its CTRL register (R174, R267). -/
theorem LaneEffect.fatal_kept {cap idx : Word} {i : Instr} {c : Nat} {l l' : Lane} (h : LaneEffect cap idx i c l l')
    (hf : l.ch.fatal = true) (hw : ∀ index v, i = .wrreg index v → index.toNat ≠ 0x10 + 8 * c) :
    l'.ch = l.ch ∧ l'.sink = l.sink := by
  cases h with
  | absorbed _ ha =>
    obtain ⟨-, -, -, -, -, -, -, hkept⟩ := absorbLane_frame ha
    exact hkept hf
  | ended _ _ he =>
    rcases eosLane_eq_ok he with ⟨-, -, rfl⟩ | ⟨hnf, -⟩
    · exact ⟨rfl, rfl⟩
    · rw [hf] at hnf; cases hnf
  | configured hi hc => exact absurd hc (hw _ _ hi)
  | kept => exact ⟨rfl, rfl⟩

/-- Settles O56: of all effects on a lane only the write to its CTRL register touches a channel with FATAL. -/
theorem fatalClearsOnlyByCtrlWrite : Obligations.FatalClearsOnlyByCtrlWrite :=
  fun _ _ _ _ _ _ h hl hl' hf hw => ((exec_effect h).laneEffect hl hl').fatal_kept hf hw

/-! ## EOS with a sink that answers `ok` (R238) -/

/-- The Close of EOS, after a flush or where nothing is flushed. -/
theorem eosLane_closes {c : Nat} {l l1 : Lane} (hf : l.ch.fatal = false) (h1 : eosFlush c l = .ok (true, l1))
    (hch : l1.ch = l.ch) (hr : l1.nextReply c = some .ok) :
    eosLane c l = .ok (.ok, (l1.sinkGot [.close]).withCh (l.ch.afterEos false)) := by
  have h2 : eosClose c true l1 = .ok (true, l1.sinkGot [.close]) := sinkCall_ok hr
  rw [eosLane_of_calls hf h1 h2, Lane.sinkGot_ch, hch]
  rfl

/-- What EOS leaves of a channel when no call failed (R238). -/
theorem Channel.afterEos_closed (ch : Channel) : ch.afterEos false =
    { ch with state := .idle, bounded := false, expected := 0, woff := 0, acc := [], ccValid := false, lastCc := 0 } := by
  simp [Channel.afterEos, Channel.toIdle]

/-- Settles O25: the flush, where there is one, then Close. -/
theorem eosFlushesAndCloses : Obligations.EosFlushesAndCloses := by
  intro s ch l hl hf hok
  refine ⟨fun burst hs hp hb hr => ?_, fun hskip => ?_⟩
  · have hflush : eosFlush ch.toNat l = .ok (true, l.sinkGot [.bytes burst, .endOfPes]) := by
      rw [eosFlush_emits hs hp, emitAcc_of_read hb, sinkCall_ok hok]
    rw [exec_eos_of_lane hl (eosLane_closes hf hflush rfl hr), Channel.afterEos_closed, Lane.sinkGot_sinkGot]
    simp [Lane.withCh, State.setLane, State.respond, StatusCode.word]
  · have hnone : ¬ (l.ch.state = .assembling ∧ l.ch.shutdownPolicy = .flush) := by
      rintro ⟨hs, hp⟩
      rw [hs, hp] at hskip
      rcases hskip with h | h <;> cases h
    rw [exec_eos_of_lane hl (eosLane_closes hf (eosFlush_skips hnone) rfl hok), Channel.afterEos_closed]
    rfl

/-! ## The gates (R173, R174) -/

/-- A packet that a gate stops only emits its record. -/
theorem absorbLane_gated {cap idx : Word} {p : Packet} {c : Nat} {l : Lane} {r : Result} (hev : l.EventTaken)
    (h : absorbChannel cap c p (hdrDecode p) (afDecode p (hdrDecode p)) idx l = .ok (l, p.event c idx r 0 none)) :
    absorbLane cap idx p c l = .ok (l.recorded (p.event c idx r 0 none)) := by
  simp only [absorbLane, h]
  exact eventEmit_taken hev

/-- Settles O33: the first gate reads EN and the PID, the second FATAL. -/
theorem gatedPacketsLeaveTheChannel : Obligations.GatedPacketsLeaveTheChannel := by
  intro cap idx p c l hev
  refine ⟨fun hgate => ?_, fun hen hpid hfatal => ?_⟩
  · have hclosed : (!l.ch.en || (hdrDecode p).pid != l.ch.targetPid) = true := by
      rw [Bool.or_eq_true, Bool.not_eq_true', bne_iff_ne]; exact hgate
    exact ⟨_, absorbLane_gated hev (if_pos hclosed), rfl, rfl, rfl⟩
  · have hopen : ¬ (!l.ch.en || (hdrDecode p).pid != l.ch.targetPid) = true := by
      rw [Bool.or_eq_true, Bool.not_eq_true', bne_iff_ne, hen]
      rintro (h | h)
      · cases h
      · exact h hpid
    exact ⟨_, absorbLane_gated hev ((if_neg hopen).trans (if_pos hfatal)), rfl, rfl, rfl⟩

/-! ## Geometry error, loss without a start, no payload (R175, R179, R181) -/

/-- DISCARD's flag in the words of R183: F_DISCARD when a PES was in progress. -/
theorem setFlagIf_discard (k : Flag) (st : Lifecycle) : setFlagIf (st == .assembling) (setFlag 0 k) .discard =
    flagVec (k :: if st = .assembling then [.discard] else []) := by
  cases st <;> rfl

/-- Settles O34: the geometry error is looked at first, so neither S nor the counter matters. -/
theorem geometryErrorDiscards : Obligations.GeometryErrorDiscards := by
  intro cap idx p c l hev ht herr
  have hproc : processPacket cap c p (hdrDecode p) p.geometry { lane := l, fl := 0, pes := none } =
      .ok (.streamPacketLost, (({ lane := l, fl := 0, pes := none } : Work).flag .geom).discard.withCh
        (l.ch.toIdle.trackCc p.cc)) := by
    rw [processPacket_eq, if_pos herr]
    rfl
  rw [← setFlagIf_discard]
  exact ⟨_, absorbLane_taken hev ht hproc, rfl, rfl, rfl⟩

/-- A channel that lost a packet: F_DISC, the counter taken, the PES in progress discarded (R178, R179). -/
def Work.resynced (p : Packet) (l : Lane) : Work where
  lane := l.withCh (l.ch.toIdle.trackCc p.cc)
  fl := flagVec (.disc :: if l.ch.state = .assembling then [.discard] else [])
  pes := none

theorem Work.tracked_lost (p : Packet) (l : Lane) :
    ({ lane := l, fl := 0, pes := none } : Work).tracked p.cc true = Work.resynced p l := by
  rw [Work.resynced, ← setFlagIf_discard]
  rfl

/-- Settles O35: a packet that is no start ends with the loss. -/
theorem lossWithoutStartDiscards : Obligations.LossWithoutStartDiscards := by
  intro cap idx p c l hev ht herr hloss hnostart
  have hlost : l.ch.ccLost (hdrDecode p).cc = true := (Channel.ccLost_eq_true p.cc l.ch).2 hloss
  have hno : ¬ ((hdrDecode p).pusi && decide (0 < p.geometry.plen)) = true := by
    rw [Bool.and_eq_true, decide_eq_true_eq]
    exact fun ⟨hs, hp⟩ => hnostart ⟨herr, hs, hp⟩
  have hproc : processPacket cap c p (hdrDecode p) p.geometry { lane := l, fl := 0, pes := none } =
      .ok (.streamPacketLost, Work.resynced p l) := by
    rw [processPacket_eq, if_neg (by simp [herr]), if_pos (by simp [hlost, hno]), hlost, ← Work.tracked_lost]
    rfl
  exact ⟨_, absorbLane_taken hev ht hproc, rfl, rfl, rfl⟩

/-- Settles O36: only the counter is taken. -/
theorem zeroPayloadPacketKeepsThePes : Obligations.ZeroPayloadPacketKeepsThePes := by
  intro cap idx p c l hev ht herr h0 hseq
  have hlost : l.ch.ccLost (hdrDecode p).cc = false := (Channel.ccLost_eq_false p.cc l.ch).2 hseq
  have hproc : processPacket cap c p (hdrDecode p) p.geometry { lane := l, fl := 0, pes := none } =
      .ok (.assemblingContinue, (({ lane := l, fl := 0, pes := none } : Work).tracked p.cc false).flag .noPayload) := by
    rw [processPacket_eq, if_neg (by simp [herr]), if_neg (by simp [hlost]), if_pos h0, hlost]
    rfl
  exact ⟨_, absorbLane_taken hev ht hproc, rfl, rfl, rfl⟩

/-! ## A continuation in sequence (R189 to R192) -/

/-- Settles O37: there is nothing in progress to append to. -/
theorem continuationWhileIdleIsLost : Obligations.ContinuationWhileIdleIsLost := by
  intro cap idx p c l hev ht hc hseq hidle
  exact ⟨_, absorbLane_continuation hev ht hc hseq (if_pos hidle), rfl, rfl, rfl⟩

theorem Work.discard_of_assembling {w : Work} (h : w.lane.ch.state = .assembling) :
    w.discard = { w with fl := setFlag w.fl .discard, lane := w.lane.withCh w.lane.ch.toIdle } := by
  rw [Work.discard, h]
  rfl

/-- Settles O38: `Channel.room` is the capacity of the PES in progress. -/
theorem continuationOverflowDiscards : Obligations.ContinuationOverflowDiscards := by
  intro cap idx p c l hev ht hc hseq hs hover
  have hnidle : ¬ (l.ch.trackCc p.cc).state = .idle := by simp [hs]
  have hcont : continuePes cap c p p.geometry { lane := l.withCh (l.ch.trackCc p.cc), fl := 0, pes := none } =
      .ok (.streamPacketLost,
        { lane := l.withCh (l.ch.trackCc p.cc).toIdle, fl := flagVec [.cap, .discard], pes := none }) := by
    refine (if_neg hnidle).trans ((if_pos hover).trans ?_)
    rw [Work.discard_of_assembling hs]
    rfl
  exact ⟨_, absorbLane_continuation hev ht hc hseq hcont, rfl, rfl, rfl⟩

/-- A continuation that fits in the buffer and in its PES, and does not complete it, is appended (R191, R192). Unlike
`continuePes_appends` it asks nothing of EXPECTED when the PES is unbounded, where no invariant bounds it. -/
theorem continuePes_fits {cap : Word} {c : Nat} {p : Packet} {w : Work} (hp : 0 < p.geometry.plen)
    (hs : w.lane.ch.state = .assembling) (hcap : w.lane.ch.woff.toNat + p.geometry.plen ≤ cap.toNat)
    (hpart : w.lane.ch.bounded = true → w.lane.ch.woff.toNat + p.geometry.plen < w.lane.ch.expected.toNat) :
    continuePes cap c p p.geometry w = .ok (.assemblingContinue, w.withCh (w.lane.ch.appended p)) := by
  have hroom : ¬ w.lane.ch.woff.toNat + p.geometry.plen > w.lane.ch.room cap := by
    unfold Channel.room
    split
    · exact Nat.not_lt.2 (hpart ‹_›).le
    · exact Nat.not_lt.2 hcap
  have hmore : ¬ (w.lane.ch.bounded && w.lane.ch.woff.toNat + p.geometry.plen == w.lane.ch.expected.toNat) = true := by
    rw [Bool.and_eq_true, beq_iff_eq]
    exact fun ⟨hb, he⟩ => (hpart hb).ne he
  have hw : w.lane.ch.accWrite cap c w.lane.ch.woff.toNat (p.slice p.geometry.off 188) =
      .ok { w.lane.ch with acc := w.lane.ch.acc.write w.lane.ch.woff.toNat p.payload } :=
    if_pos (show w.lane.ch.woff.toNat + p.payload.length ≤ cap.toNat by rwa [(Packet.payload_length hp).1])
  unfold continuePes
  dsimp only
  rw [if_neg (by simp [hs]), if_neg hroom, hw]
  exact if_neg hmore

/-- The lane a fitting continuation leaves. -/
def Lane.appended (idx : Word) (p : Packet) (c : Nat) (l : Lane) : Lane :=
  (({ lane := l.withCh ((l.ch.trackCc p.cc).appended p), fl := 0, pes := none } : Work).finish
    .assemblingContinue).recorded (p.event c idx .assemblingContinue 0 none)

theorem absorbLane_fits {cap idx : Word} {p : Packet} {c : Nat} {l : Lane} (hev : l.EventTaken)
    (ht : l.ch.Takes p) (hc : p.IsContinuation) (hseq : l.ch.InSequence p.cc) (hs : l.ch.state = .assembling)
    (hcap : l.ch.woff.toNat + p.geometry.plen ≤ cap.toNat)
    (hpart : l.ch.bounded = true → l.ch.woff.toNat + p.geometry.plen < l.ch.expected.toNat) :
    absorbLane cap idx p c l = .ok (l.appended idx p c) := by
  have ⟨_, _, hp⟩ := hc
  have hcont := continuePes_fits (c := c) (w := { lane := l.withCh (l.ch.trackCc p.cc), fl := 0, pes := none }) hp hs
    hcap hpart
  rw [absorbLane_continuation hev ht hc hseq hcont]
  rfl

/-- Settles O39: the payload is written at WOFF, and a write changes only the addresses it covers. -/
theorem continuationAppendsAtTheWriteOffset : Obligations.ContinuationAppendsAtTheWriteOffset := by
  intro cap idx p c l hev ht hc hseq hs hcap hpart
  have ⟨_, _, hp⟩ := hc
  refine ⟨_, absorbLane_fits hev ht hc hseq hs hcap hpart, rfl, rfl, fun a => ?_, rfl⟩
  rw [← (Packet.payload_length hp).1]
  exact Memory.read?_write ..

end Sys2Proof.Machine
end

section
/-! SUPPORT. A start packet on a channel (spec/43_assembler.md R180, R184 to R188): what an accepted header leads to, from Idle, after a
loss, and after the PES in progress was flushed or aborted. -/

namespace Sys2Proof.Machine

/-! ## What an accepted header leads to (R186, R187, R188) -/

/-- A first fragment beyond the expected size; the buffer is not looked at (R186). -/
theorem beginPes_overflows {cap : Word} {c : Nat} {p : Packet} {lost : Bool} {w : Work}
    (ha : p.pes.Accepted w.lane.ch.malformedPolicy) (hlen : p.pes.len ≠ 0)
    (hover : p.pes.len.toNat + 6 < p.geometry.plen) :
    beginPes cap c p p.geometry lost w = .ok (.streamPacketLost,
      { w with pes := some p.pes.triple, fl := w.fl ||| flagVec (p.pes.acceptFlags ++ [.cap]) }) := by
  have hacc : (pesCheck p.pes w.lane.ch.malformedPolicy).accept = true := (pesCheck_accept _ _).2 ha
  obtain ⟨hdec, -, hs⟩ : p.pes.decoded = true ∧ 6 ≤ p.pes.hs ∧ p.pes.hs ≤ p.geometry.plen := pesDecode_complete ha.1
  have hcov := ha.2.1 hlen
  have hroom : p.geometry.plen - p.pes.hs > p.pes.room cap := by
    rw [PesDecode.room, PesDecode.bounded_eq, decide_eq_true hlen, if_pos rfl, PesDecode.expected_eq, if_neg hlen]
    omega
  unfold beginPes
  simp only [show pesDecode p p.geometry.off p.geometry.plen = p.pes from rfl, hacc, if_true, hdec, hroom,
    pesCheck_acceptFlags ha hdec]
  simp only [Work.flag, setFlag_eq, flagVec_append, BitVec.or_assoc]
  rfl

/-- The record of `w` with the PES of a start packet begun in it: the header kept for the event, F_START set (R187). -/
def Work.opened (p : Packet) (w : Work) : Work where
  lane := w.lane.withCh (({ w.lane.ch with acc := w.lane.ch.acc.write 0 p.elementary } : Channel).openPes
    p.pes p.elementary)
  fl := w.fl ||| flagVec (p.pes.acceptFlags ++ [.start])
  pes := some p.pes.triple

/-- The record of `beginPes_accepted` when its PES has begun. -/
theorem Work.opened_eq (p : Packet) (w : Work) : w.opened p =
    (({ w with pes := some p.pes.triple, fl := w.fl ||| flagVec p.pes.acceptFlags } : Work).withCh
      (({ w.lane.ch with acc := w.lane.ch.acc.write 0 p.elementary } : Channel).openPes p.pes p.elementary)).flag
        .start := by
  simp only [Work.opened, Work.flag, Work.withCh, setFlag_eq, flagVec_append, BitVec.or_assoc]
  rfl

/-- A first fragment that neither overflows nor completes the PES (R187). -/
theorem beginPes_begins {cap : Word} {c : Nat} {p : Packet} {lost : Bool} {w : Work} (hp : 0 < p.geometry.plen)
    (hcap : 65535 ≤ cap.toNat) (ha : p.pes.Accepted w.lane.ch.malformedPolicy)
    (hpart : p.pes.len ≠ 0 → p.geometry.plen < p.pes.len.toNat + 6) :
    beginPes cap c p p.geometry lost w =
      .ok (if lost then .streamPacketLost else .assemblingStarted, w.opened p) := by
  have hfits : ¬ (p.pes.len ≠ 0 ∧ p.pes.len.toNat + 6 < p.geometry.plen) := fun ⟨h0, h⟩ =>
    absurd (hpart h0) (by omega)
  have hmore : ¬ (p.pes.len ≠ 0 ∧ p.pes.len.toNat + 6 = p.geometry.plen) := fun ⟨h0, h⟩ =>
    absurd (hpart h0) (by omega)
  rw [beginPes_accepted hp hcap ha, Work.opened_eq]
  dsimp only
  rw [if_neg hfits, if_neg hmore]

/-- A first fragment that completes the PES (R188). -/
theorem beginPes_completes {cap : Word} {c : Nat} {p : Packet} {lost : Bool} {w : Work} (hp : 0 < p.geometry.plen)
    (hcap : 65535 ≤ cap.toNat) (ha : p.pes.Accepted w.lane.ch.malformedPolicy) (hlen : p.pes.len ≠ 0)
    (he : p.geometry.plen = p.pes.len.toNat + 6) :
    beginPes cap c p p.geometry lost w =
      (w.opened p).flushAs c (if lost then .streamPacketLost else .assemblingFinished) := by
  have hfits : ¬ (p.pes.len ≠ 0 ∧ p.pes.len.toNat + 6 < p.geometry.plen) := by omega
  rw [beginPes_accepted hp hcap ha, Work.opened_eq]
  dsimp only
  rw [if_neg hfits, if_pos ⟨hlen, he.symm⟩]

/-- The buffer of a PES just begun reads as its elementary bytes, and beyond them as before. -/
theorem Work.read?_opened {p : Packet} (w : Work) (hp : 0 < p.geometry.plen) (a : Nat) :
    (w.opened p).lane.ch.acc.read? a =
      if a < p.geometry.plen - p.pes.hs then p.elementary[a]? else w.lane.ch.acc.read? a :=
  (Memory.read?_write ..).trans (by simp [Packet.elementary_length hp])

/-! ## From Idle, in sequence -/

/-- The record of a packet in sequence on lane `l`: the counter taken (R178). -/
def Work.arrived (p : Packet) (l : Lane) : Work := { lane := l.withCh (l.ch.trackCc p.cc), fl := 0, pes := none }

/-- A start packet in sequence: first the PES in progress, then the new one (R184). -/
theorem absorbLane_start_inSequence {cap idx : Word} {p : Packet} {c : Nat} {l : Lane} {r : Result} {w : Work}
    (hev : l.EventTaken) (ht : l.ch.Takes p) (hst : p.IsStart) (hseq : l.ch.InSequence p.cc)
    (h : startPes cap c p p.geometry false (Work.arrived p l) = .ok (r, w)) :
    absorbLane cap idx p c l = .ok ((w.finish r).recorded (p.event c idx r w.fl w.pes)) := by
  refine absorbLane_start hev ht hst ?_
  rw [(Channel.ccLost_eq_false p.cc l.ch).2 hseq]
  exact h

/-- On an Idle channel only the new PES is looked at. -/
theorem absorbLane_start_idle {cap idx : Word} {p : Packet} {c : Nat} {l : Lane} {r : Result} {w : Work}
    (hev : l.EventTaken) (ht : l.ch.Takes p) (hst : p.IsStart) (hseq : l.ch.InSequence p.cc)
    (hidle : l.ch.state = .idle) (h : beginPes cap c p p.geometry false (Work.arrived p l) = .ok (r, w)) :
    absorbLane cap idx p c l = .ok ((w.finish r).recorded (p.event c idx r w.fl w.pes)) :=
  absorbLane_start_inSequence hev ht hst hseq ((startPes_idle hidle).trans h)

/-- Settles O45: the comparison comes before the write, so nothing of the channel but its report changes. -/
theorem firstFragmentOverflowIsLost : Obligations.FirstFragmentOverflowIsLost := by
  intro cap idx p c l hev ht hst hseq hidle ha hlen hover fl
  have hfl : fl = 0 ||| flagVec (p.pes.acceptFlags ++ [.cap]) := BitVec.zero_or.symm
  rw [hfl]
  exact ⟨_, absorbLane_start_idle hev ht hst hseq hidle (beginPes_overflows ha hlen hover), rfl, rfl, rfl⟩

/-- Settles O42: the new PES is the one `beginPes` opens. -/
theorem startFromIdleSetsThePesUp : Obligations.StartFromIdleSetsThePesUp := by
  intro cap idx p c l hev ht hst hseq hcap hidle ha hpart fl
  have ⟨_, _, hp⟩ := hst
  have hfl : fl = 0 ||| flagVec (p.pes.acceptFlags ++ [.start]) := BitVec.zero_or.symm
  rw [hfl]
  refine ⟨_, absorbLane_start_idle hev ht hst hseq hidle (beginPes_begins hp hcap ha hpart), rfl, ?_, ?_, rfl⟩
  · rw [Channel.started_eq p _ _ _ _ hp]; rfl
  · exact Work.read?_opened _ hp

/-! ## After a loss (R180) -/

/-- A start packet out of sequence: the channel is Idle by the loss, so only the new PES is looked at. -/
theorem absorbLane_start_lost {cap idx : Word} {p : Packet} {c : Nat} {l : Lane} {r : Result} {w : Work}
    (hev : l.EventTaken) (ht : l.ch.Takes p) (hst : p.IsStart) (hloss : ¬ l.ch.InSequence p.cc)
    (h : beginPes cap c p p.geometry true (Work.resynced p l) = .ok (r, w)) :
    absorbLane cap idx p c l = .ok ((w.finish r).recorded (p.event c idx r w.fl w.pes)) := by
  refine absorbLane_start hev ht hst ?_
  rw [(Channel.ccLost_eq_true p.cc l.ch).2 hloss, Work.tracked_lost, startPes_idle (by rfl)]
  exact h

/-- The flush of the PES a packet has just begun finds its elementary bytes. -/
theorem Work.readRange?_opened (p : Packet) (w : Work) :
    (w.opened p).lane.ch.acc.readRange? 0 (w.opened p).lane.ch.woff.toNat = some p.elementary :=
  w.lane.ch.readRange?_begun p

theorem setFlag_flush_of_start (before flags : List Flag) :
    setFlag (flagVec before ||| flagVec (flags ++ [.start])) .flush = flagVec (before ++ flags ++ [.start, .flush]) := by
  rw [← flagVec_append, flagVec_snoc]
  simp

/-- Settles O48: the five outcomes of `beginPes` on the channel the loss left Idle. -/
theorem lossWithStartResynchronises : Obligations.LossWithStartResynchronises := by
  intro cap idx p c l hev ht hst hloss hcap before header
  have ⟨_, _, hp⟩ := hst
  refine ⟨fun hrej => ?rejected, fun ha hlen hover => ?overflows, fun ha hpart => ?begins, fun ha hlen he => ?completes⟩
  case rejected =>
    exact ⟨_, absorbLane_start_lost hev ht hst hloss (beginPes_rejected (w := Work.resynced p l) hrej), rfl, rfl, rfl⟩
  case overflows =>
    rw [List.append_assoc, flagVec_append]
    exact ⟨_, absorbLane_start_lost hev ht hst hloss (beginPes_overflows (w := Work.resynced p l) ha hlen hover),
      rfl, rfl, rfl⟩
  case begins =>
    rw [List.append_assoc, flagVec_append]
    refine ⟨_, absorbLane_start_lost hev ht hst hloss (beginPes_begins (w := Work.resynced p l) hp hcap ha hpart),
      rfl, ?_, fun a => ?_, rfl⟩
    · rw [Channel.started_eq p _ _ _ _ hp]; rfl
    · exact Memory.read?_append_at_end (m := []) (n := 0) rfl p.elementary a
  case completes =>
    have hread := Work.readRange?_opened p (Work.resynced p l)
    have hbegin := beginPes_completes (c := c) (lost := true) (w := Work.resynced p l) hp hcap ha hlen he
    rw [← setFlag_flush_of_start]
    refine ⟨fun hr => ?_, fun reached hr => ?_⟩
    · exact ⟨_, absorbLane_start_lost hev ht hst hloss (hbegin.trans (Work.flushAs_of_ok hread hr)), rfl, rfl, rfl⟩
    · exact ⟨_, absorbLane_start_lost hev ht hst hloss (hbegin.trans (Work.flushAs_of_err hread hr)), rfl, rfl, rfl⟩

/-! ## Over a PES in progress (R184) -/

/-- The record with the flags `fl` set as well. -/
def Work.mark (fl : BitVec 12) (w : Work) : Work := { w with fl := w.fl ||| fl }

@[simp] theorem Work.mark_lane (fl : BitVec 12) (w : Work) : (w.mark fl).lane = w.lane := rfl
@[simp] theorem Work.mark_pes (fl : BitVec 12) (w : Work) : (w.mark fl).pes = w.pes := rfl

theorem setFlag_or (a b : BitVec 12) (k : Flag) : setFlag (a ||| b) k = setFlag a k ||| b := by
  rw [setFlag_eq, setFlag_eq, BitVec.or_assoc, BitVec.or_comm b, ← BitVec.or_assoc]

theorem setFlagIf_or (cond : Bool) (a b : BitVec 12) (k : Flag) :
    setFlagIf cond (a ||| b) k = setFlagIf cond a k ||| b := by
  cases cond
  · rfl
  · exact setFlag_or a b k

/-- Flags set before do not change what a flush does. -/
theorem Work.flushAs_mark {c : Nat} {r r' : Result} {w w' : Work} (fl : BitVec 12) (h : w.flushAs c r = .ok (r', w')) :
    (w.mark fl).flushAs c r = .ok (r', w'.mark fl) := by
  unfold Work.flushAs Work.flush at h ⊢
  rw [Work.mark_lane]
  cases he : emitAcc c w.lane with
  | error f => rw [he] at h; cases h
  | ok answer =>
    obtain ⟨ok, l⟩ := answer
    rw [he] at h
    cases ok <;> cases h <;> simp [Work.mark, Work.sinkFail, Work.discard, Work.withCh, setFlag_or, setFlagIf_or]

/-- Flags set before do not change what the new PES of a start packet does. -/
theorem beginPes_mark {cap : Word} {c : Nat} {p : Packet} {g : Geometry} {lost : Bool} {w w' : Work} {r : Result}
    (fl : BitVec 12) (h : beginPes cap c p g lost w = .ok (r, w')) :
    beginPes cap c p g lost (w.mark fl) = .ok (r, w'.mark fl) := by
  unfold beginPes at h ⊢
  dsimp only at h ⊢
  rw [Work.mark_lane, Work.mark_pes]
  have hfl (v : BitVec 12) : (w.mark fl).fl ||| v = w.fl ||| v ||| fl := by
    rw [Work.mark, BitVec.or_assoc, BitVec.or_comm fl, ← BitVec.or_assoc]
  rw [hfl]
  split at h
  · rename_i hacc
    rw [if_pos hacc]
    split at h
    · rename_i hover
      cases h
      rw [if_pos hover]
      simp [Work.mark, Work.flag, setFlag_or]
    · rename_i hroom
      rw [if_neg hroom]
      split at h
      · cases h
      · split at h
        · rename_i hdone
          rw [if_pos hdone, ← Work.flushAs_mark fl h]
          simp [Work.mark, Work.flag, Work.withCh, setFlag_or]
        · rename_i hmore
          cases h
          rw [if_neg hmore]
          simp [Work.mark, Work.flag, Work.withCh, setFlag_or]
  · rename_i hrej
    cases h
    rw [if_neg hrej]
    rfl

/-- A start packet in sequence on an Idle channel, taken back to its new PES. -/
theorem absorbLane_start_idle_eq_ok {cap idx : Word} {p : Packet} {c : Nat} {l l' : Lane} (ht : l.ch.Takes p)
    (hst : p.IsStart) (hseq : l.ch.InSequence p.cc) (hidle : l.ch.state = .idle)
    (h : absorbLane cap idx p c l = .ok l') :
    ∃ r w ev, l' = (w.finish r).recorded ev ∧
      beginPes cap c p p.geometry false (Work.arrived p l) = .ok (r, w) := by
  rcases absorbLane_cases h with ⟨hno, -⟩ | ⟨-, r, w, ev, hl', hproc⟩
  · exact absurd ht hno
  · have hlost : l.ch.ccLost (hdrDecode p).cc = false := (Channel.ccLost_eq_false p.cc l.ch).2 hseq
    obtain ⟨herr, hs, hp⟩ := hst
    have hs' : (hdrDecode p).pusi = true := hs
    rw [processPacket_eq, if_neg (by simp [herr]), if_neg (by simp [hlost]), if_neg (by omega),
      if_pos (by simp [hs', hp]), hlost] at hproc
    exact ⟨r, w, ev, hl', (startPes_idle hidle).symm.trans hproc⟩

theorem settlePrevious_unbounded {c : Nat} {w : Work} (hs : w.lane.ch.state = .assembling)
    (hb : w.lane.ch.bounded = false) : settlePrevious c w = w.flush c := by
  rw [settlePrevious, if_pos hs, if_neg (Bool.eq_false_iff.1 hb)]

theorem settlePrevious_bounded {c : Nat} {w : Work} (hs : w.lane.ch.state = .assembling)
    (hb : w.lane.ch.bounded = true) : settlePrevious c w = .ok (true, (w.flag .prevAborted).discard) := by
  rw [settlePrevious, if_pos hs, if_pos hb]

/-- A start packet over a PES in progress runs as on the lane made Idle, but for the flags of what became of that PES. -/
theorem absorbLane_start_settled {cap idx : Word} {p : Packet} {c : Nat} {l l1 l0 : Lane} {fl : BitVec 12}
    (hev : l.EventTaken) (ht : l.ch.Takes p) (hst : p.IsStart) (hseq : l.ch.InSequence p.cc)
    (hch : l1.ch = l.ch.toIdle)
    (hsettle : settlePrevious c (Work.arrived p l) = .ok (true, { Work.arrived p l1 with fl := fl }))
    (h : absorbLane cap idx p c l1 = .ok l0) :
    ∃ l', absorbLane cap idx p c l = .ok l' ∧ l'.sink = l0.sink ∧
      l'.ch = { l0.ch with lastFlags := l0.ch.lastFlags ||| fl } := by
  have ht1 : l1.ch.Takes p := by rw [hch]; exact ht
  have hseq1 : l1.ch.InSequence p.cc := by rw [hch]; exact hseq
  have hidle : l1.ch.state = .idle := by rw [hch]; rfl
  obtain ⟨r, w, ev, rfl, hbegin⟩ := absorbLane_start_idle_eq_ok ht1 hst hseq1 hidle h
  have hstart : startPes cap c p p.geometry false (Work.arrived p l) = .ok (r, w.mark fl) := by
    have hmark : { Work.arrived p l1 with fl := fl } = (Work.arrived p l1).mark fl := by
      simp [Work.mark, Work.arrived]
    rw [startPes, hsettle, hmark]
    exact beginPes_mark fl hbegin
  exact ⟨_, absorbLane_start_inSequence hev ht hst hseq hstart, rfl, rfl⟩

/-- Settles O46: the flush and the abort both leave the channel Idle, and the start goes on with their flags. -/
theorem startOverAPesInProgress : Obligations.StartOverAPesInProgress := by
  intro cap idx p c l l0 hev ht hst hseq _ hs
  have hs' : (Work.arrived p l).lane.ch.state = .assembling := hs
  refine ⟨fun hb hr burst hburst h => ?_, fun hb h => ?_⟩
  · have hsettle : settlePrevious c (Work.arrived p l) = .ok (true, { Work.arrived p
        ((l.sinkGot [.bytes burst, .endOfPes]).withCh l.ch.toIdle) with fl := flagVec [.flush] }) :=
      (settlePrevious_unbounded hs' hb).trans (Work.flush_ok (w := Work.arrived p l) hburst hr)
    exact absorbLane_start_settled hev ht hst hseq rfl hsettle h
  · have hsettle : settlePrevious c (Work.arrived p l) =
        .ok (true, { Work.arrived p (l.withCh l.ch.toIdle) with fl := flagVec [.prevAborted, .discard] }) := by
      rw [settlePrevious_bounded hs' hb, Work.discard_of_assembling (w := (Work.arrived p l).flag .prevAborted) hs']
      rfl
    exact absorbLane_start_settled hev ht hst hseq rfl hsettle h

/-- Settles O47: the flush leaves the channel Idle, so SINKFAIL adds FATAL and no flag. -/
theorem sinkErrorBeforeAStartEndsIt : Obligations.SinkErrorBeforeAStartEndsIt := by
  intro cap idx p c l reached hev ht hst hseq hi hs hb hr
  obtain ⟨hkeys, -⟩ := hi
  obtain ⟨burst, hburst⟩ := Memory.readRange?_of_keys _ _ hkeys
  have hsettle := (settlePrevious_unbounded (c := c) (w := Work.arrived p l) hs hb).trans
    (Work.flush_err (w := Work.arrived p l) hburst hr)
  have hstart : startPes cap c p p.geometry false (Work.arrived p l) = .ok (.sinkError,
      (Work.arrived p l).flushed reached { (l.ch.trackCc p.cc).toIdle with fatal := true }) := by
    rw [startPes, hsettle]
    rfl
  exact ⟨_, absorbLane_start_inSequence hev ht hst hseq hstart, rfl, rfl, rfl⟩

end Sys2Proof.Machine
end

section
/-! SUPPORT. A PES over several packets (spec/43_assembler.md R198): what a channel has collected since the start packet, kept by every
continuation that fits, and the round trips it gives. -/

namespace Sys2Proof.Machine

/-! ## What a channel has collected -/

/-- A consumer that takes every record takes this one (R298). -/
theorem Lane.eventTaken_of_room {l : Lane} (h : l.eventRoom = none) : l.EventTaken := by simp [Lane.EventTaken, h]

/-- Since lane `l` took the start packet `p0`, lane `l'` has collected `burst` of its PES and sent nothing; its last counter is
`cc`. -/
structure Lane.Collecting (cap : Word) (l : Lane) (p0 : Packet) (cc : BitVec 4) (burst : List Byte) (l' : Lane) :
    Prop where
  inv : l'.ch.Inv cap
  sink : l'.sink = l.sink
  replies : l'.replies = l.replies
  calls : l'.calls = l.calls
  eventRoom : l'.eventRoom = none
  targetPid : l'.ch.targetPid = l.ch.targetPid
  en : l'.ch.en = true
  fatal : l'.ch.fatal = false
  shutdownPolicy : l'.ch.shutdownPolicy = l.ch.shutdownPolicy
  state : l'.ch.state = .assembling
  bounded : l'.ch.bounded = p0.pes.bounded
  expected : l'.ch.expected.toNat = p0.pes.expected
  ccValid : l'.ch.ccValid = true
  lastCc : l'.ch.lastCc = cc
  read : l'.ch.acc.readRange? 0 l'.ch.woff.toNat = some burst

section
variable {cap : Word} {l l' : Lane} {p0 : Packet} {cc : BitVec 4} {burst : List Byte}

theorem Lane.Collecting.eventTaken (h : l.Collecting cap p0 cc burst l') : l'.EventTaken :=
  Lane.eventTaken_of_room h.eventRoom

theorem Lane.Collecting.takes (h : l.Collecting cap p0 cc burst l') {p : Packet} (hpid : p.pid = l.ch.targetPid) :
    l'.ch.Takes p := ⟨h.en, hpid.trans h.targetPid.symm, h.fatal⟩

theorem Lane.Collecting.inSequence (h : l.Collecting cap p0 cc burst l') {p : Packet} (hcc : p.cc = cc + 1) :
    l'.ch.InSequence p.cc := by
  rw [← Channel.ccLost_eq_false, Channel.ccLost, h.ccValid, h.lastCc, hcc, BitVec.add_comm, BitVec.add_sub_cancel]
  rfl

theorem Lane.Collecting.nextReply (h : l.Collecting cap p0 cc burst l') (c : Nat) : l'.nextReply c = l.nextReply c := by
  rw [Lane.nextReply, Lane.nextReply, h.replies, h.calls]

theorem Lane.Collecting.sinkAnswers (h : l.Collecting cap p0 cc burst l') (ha : l.SinkAnswers) : l'.SinkAnswers := by
  rw [Lane.SinkAnswers, h.replies]
  exact ha

/-- The write offset counts the collected bytes. -/
theorem Lane.Collecting.woff (h : l.Collecting cap p0 cc burst l') : l'.ch.woff.toNat = burst.length :=
  ((Memory.readRange?_eq_some ..).1 h.read).1.symm

/-- An accepted start packet on an Idle channel that does not complete its PES has collected its elementary bytes. -/
theorem absorbLane_start_collects {idx : Word} {c : Nat} (hcap : 65535 ≤ cap.toNat) (hi : l.ch.Inv cap)
    (hidle : l.ch.state = .idle) (hroom : l.eventRoom = none) (ht : l.ch.Takes p0) (hseq : l.ch.InSequence p0.cc)
    (hst : p0.IsStart) (ha : p0.pes.Accepted l.ch.malformedPolicy)
    (hpart : p0.pes.len ≠ 0 → p0.geometry.plen < p0.pes.len.toNat + 6) :
    ∃ l', absorbLane cap idx p0 c l = .ok l' ∧ l.Collecting cap p0 p0.cc p0.elementary l' := by
  have ⟨_, _, hp⟩ := hst
  have hok := absorbLane_start_idle (idx := idx) (c := c) (Lane.eventTaken_of_room hroom) ht hst hseq hidle
    (beginPes_begins (w := Work.arrived p0 l) hp hcap ha hpart)
  have hexp : p0.pes.expected < 2 ^ 32 := by
    rw [PesDecode.expected_eq]
    split <;> omega
  have ⟨hen, _, hfatal⟩ := ht
  exact ⟨_, hok, {
    inv := absorbLane_inv hi hok
    sink := rfl
    replies := rfl
    calls := rfl
    eventRoom := congrArg (Option.map (· - 1)) hroom
    targetPid := rfl
    en := hen
    fatal := hfatal
    shutdownPolicy := rfl
    state := rfl
    bounded := rfl
    expected := Nat.mod_eq_of_lt hexp
    ccValid := rfl
    lastCc := rfl
    read := Work.readRange?_opened p0 (Work.arrived p0 l) }⟩

/-- A continuation in sequence that fits and does not complete the PES adds its payload. -/
theorem Lane.Collecting.append (h : l.Collecting cap p0 cc burst l') (idx : Word) (c : Nat) {p : Packet}
    (hc : p.IsContinuation) (hpid : p.pid = l.ch.targetPid) (hcc : p.cc = cc + 1)
    (hfit : burst.length + p.payload.length ≤ cap.toNat)
    (hpart : p0.pes.bounded = true → burst.length + p.payload.length < p0.pes.expected) :
    ∃ l'', absorbLane cap idx p c l' = .ok l'' ∧ l.Collecting cap p0 p.cc (burst ++ p.payload) l'' := by
  have ⟨_, _, hp⟩ := hc
  rw [(Packet.payload_length hp).1, ← h.woff] at hfit hpart
  rw [← h.bounded, ← h.expected] at hpart
  have hok := absorbLane_fits (idx := idx) (c := c) h.eventTaken (h.takes hpid) hc (h.inSequence hcc) h.state hfit hpart
  have hcap32 : cap.toNat < 2 ^ 32 := cap.isLt
  exact ⟨_, hok, {
    inv := absorbLane_inv h.inv hok
    sink := h.sink
    replies := h.replies
    calls := h.calls
    eventRoom := congrArg (Option.map (· - 1)) h.eventRoom
    targetPid := h.targetPid
    en := h.en
    fatal := h.fatal
    shutdownPolicy := h.shutdownPolicy
    state := h.state
    bounded := h.bounded
    expected := h.expected
    ccValid := rfl
    lastCc := rfl
    read := Channel.readRange?_appended (ch := l'.ch.trackCc p.cc) hp (hfit.trans_lt hcap32) h.read }⟩

/-- A continuation in sequence that completes the bounded PES sends what was collected and its payload. -/
theorem Lane.Collecting.complete (h : l.Collecting cap p0 cc burst l') (hcap : 65535 ≤ cap.toNat) (idx : Word) {c : Nat}
    {p : Packet} (hc : p.IsContinuation) (hpid : p.pid = l.ch.targetPid) (hcc : p.cc = cc + 1)
    (hb : p0.pes.bounded = true) (hfull : burst.length + p.payload.length = p0.pes.expected)
    (hr : l.nextReply c = some .ok) :
    ∃ l'', absorbLane cap idx p c l' = .ok l'' ∧ l''.sink = l.sink ++ [.bytes (burst ++ p.payload), .endOfPes] ∧
      l''.ch.state = .idle ∧ l''.ch.lastResult = .assemblingFinished ∧ l''.ch.fatal = false := by
  have ⟨_, _, hp⟩ := hc
  rw [(Packet.payload_length hp).1, ← h.woff, ← h.expected] at hfull
  obtain ⟨l'', burst', hread, hok, hsink, hch, -⟩ := completingContinuationFlushes cap idx p c l' h.eventTaken
    (h.takes hpid) hc (h.inSequence hcc) h.inv hcap h.state (h.bounded.trans hb) hfull ((h.nextReply c).trans hr)
  obtain rfl : burst' = burst := Option.some.inj (hread.symm.trans h.read)
  refine ⟨l'', hok, ?_, ?_, ?_, ?_⟩
  · rw [hsink, h.sink]
  · rw [hch]; rfl
  · rw [hch]; rfl
  · rw [hch]; exact h.fatal

end

/-! ## Sequences of packets -/

/-- The counter of the last of a sequence of packets that follows `cc`. -/
def lastCcOf (cc : BitVec 4) : List Packet → BitVec 4
  | [] => cc
  | p :: rest => lastCcOf p.cc rest

theorem ccChain_snoc (cc : BitVec 4) (packets : List Packet) (p : Packet) :
    ccChain cc (packets ++ [p]) ↔ ccChain cc packets ∧ p.cc = lastCcOf cc packets + 1 := by
  induction packets generalizing cc with
  | nil => simp [ccChain, lastCcOf]
  | cons q rest ih => simp [ccChain, lastCcOf, ih, and_assoc]

theorem absorbSeq_cons {cap idx : Word} {c : Nat} {p : Packet} {l l' : Lane} (h : absorbLane cap idx p c l = .ok l')
    (rest : List Packet) : absorbSeq cap c idx (p :: rest) l = absorbSeq cap c (idx + 1) rest l' := by
  simp only [absorbSeq, h]

/-- The last packet of a sequence, at whatever index it has. -/
theorem absorbSeq_snoc {cap idx : Word} {c : Nat} {packets : List Packet} {l l' : Lane} (p : Packet)
    (h : absorbSeq cap c idx packets l = .ok l') :
    ∃ idx', ∀ l'', absorbLane cap idx' p c l' = .ok l'' → absorbSeq cap c idx (packets ++ [p]) l = .ok l'' := by
  induction packets generalizing idx l with
  | nil =>
    cases h
    exact ⟨idx, fun l'' hl => absorbSeq_cons hl []⟩
  | cons q rest ih =>
    cases hq : absorbLane cap idx q c l with
    | error f => simp [absorbSeq, hq] at h
    | ok lq =>
      rw [absorbSeq_cons hq] at h
      obtain ⟨idx', hidx⟩ := ih h
      exact ⟨idx', fun l'' hl => (absorbSeq_cons hq _).trans (hidx l'' hl)⟩

/-- Continuations in sequence that fit and do not complete the PES add their payloads (R191, R192). -/
theorem Lane.Collecting.absorbSeq {cap : Word} {l l' : Lane} {p0 : Packet} {cc : BitVec 4} {burst : List Byte}
    {packets : List Packet} (h : l.Collecting cap p0 cc burst l') (idx : Word) (c : Nat)
    (hpackets : ∀ p ∈ packets, p.IsContinuation ∧ p.pid = l.ch.targetPid) (hchain : ccChain cc packets)
    (hfit : (burst ++ packets.flatMap Packet.payload).length ≤ cap.toNat)
    (hpart : p0.pes.bounded = true → (burst ++ packets.flatMap Packet.payload).length < p0.pes.expected) :
    ∃ l'', Machine.absorbSeq cap c idx packets l' = .ok l'' ∧
      l.Collecting cap p0 (lastCcOf cc packets) (burst ++ packets.flatMap Packet.payload) l'' := by
  induction packets generalizing idx cc burst l' with
  | nil => exact ⟨l', rfl, by simpa [lastCcOf] using h⟩
  | cons p rest ih =>
    obtain ⟨hcc, hrest⟩ := hchain
    obtain ⟨hc, hpid⟩ := hpackets p List.mem_cons_self
    simp only [List.flatMap_cons, ← List.append_assoc] at hfit hpart ⊢
    have hle : burst.length + p.payload.length ≤ (burst ++ p.payload ++ rest.flatMap Packet.payload).length := by
      simp only [List.length_append]; omega
    obtain ⟨l1, hok, h1⟩ := h.append idx c hc hpid hcc (hle.trans hfit) (fun hb => hle.trans_lt (hpart hb))
    obtain ⟨l2, hseq, h2⟩ := ih h1 (idx + 1) (fun q hq => hpackets q (List.mem_cons_of_mem p hq)) hrest hfit hpart
    exact ⟨l2, (absorbSeq_cons hok rest).trans hseq, h2⟩

/-! ## The bounded half of R198 -/

/-- An accepted header has at least six bytes and lies in the payload, whose other bytes are the elementary ones. -/
theorem PesDecode.Accepted.split_payload {p : Packet} {policy : MalformedPolicy} (ha : p.pes.Accepted policy)
    (hp : 0 < p.geometry.plen) : 6 ≤ p.pes.hs ∧ p.elementary.length + p.pes.hs = p.geometry.plen := by
  obtain ⟨-, h6, hs⟩ : p.pes.decoded = true ∧ 6 ≤ p.pes.hs ∧ p.pes.hs ≤ p.geometry.plen := pesDecode_complete ha.1
  rw [Packet.elementary_length hp]
  omega

/-- Settles O59: the start packet completes the PES alone, or it begins it, the continuations but the last add to it, and the last one
completes it. -/
theorem boundedPesRoundTrip : Obligations.BoundedPesRoundTrip := by
  intro cap idx c l p0 rest hcap hi hidle hroom hr ht hseq hst ha hlen hrest hchain hsize
  have ⟨_, _, hp⟩ := hst
  obtain ⟨h6, hplen⟩ := PesDecode.Accepted.split_payload ha hp
  have hcov := ha.2.1 hlen
  have hb : p0.pes.bounded = true := by rw [PesDecode.bounded_eq]; exact decide_eq_true hlen
  have hexp : p0.pes.expected = p0.pes.len.toNat + 6 - p0.pes.hs := by rw [PesDecode.expected_eq, if_neg hlen]
  rcases List.eq_nil_or_concat' rest with rfl | ⟨init, p, rfl⟩
  · rw [List.flatMap_nil, List.append_nil] at hsize ⊢
    obtain ⟨l', hok, hsink, hch, -⟩ := (startThatCompletesFlushesAtOnce cap idx p0 c l (Lane.eventTaken_of_room hroom) ht hst
      hseq hcap hidle ha hlen (by omega)).1 hr
    refine ⟨l', absorbSeq_cons hok [], hsink, ?_, ?_, ?_⟩ <;> rw [hch]
    · rfl
    · rfl
    · exact ht.2.2
  · obtain ⟨hc, hpid⟩ := hrest p (by simp)
    have ⟨_, _, hpp⟩ := hc
    have hpay : 0 < p.payload.length := by rw [(Packet.payload_length hpp).1]; exact hpp
    obtain ⟨hchain, hcc⟩ := (ccChain_snoc ..).1 hchain
    simp only [List.flatMap_append, List.flatMap_cons, List.flatMap_nil, List.append_nil,
      ← List.append_assoc] at hsize ⊢
    have hsum : (p0.elementary ++ init.flatMap Packet.payload).length + p.payload.length = p0.pes.expected := by
      rw [← List.length_append, hsize, hexp]
    have hfirst : p0.elementary.length ≤ (p0.elementary ++ init.flatMap Packet.payload).length := by simp
    obtain ⟨l1, hok1, h1⟩ := absorbLane_start_collects (idx := idx) (c := c) hcap hi hidle hroom ht hseq hst ha
      (fun _ => by omega)
    obtain ⟨l2, hok2, h2⟩ := h1.absorbSeq (idx + 1) c (fun q hq => hrest q (by simp [hq])) hchain (by omega)
      (fun _ => by omega)
    obtain ⟨idx', hlast⟩ := absorbSeq_snoc p ((absorbSeq_cons hok1 init).trans hok2)
    obtain ⟨l3, hok3, hfinal⟩ := h2.complete hcap idx' hc hpid hcc hb hsum hr
    exact ⟨l3, hlast l3 hok3, hfinal⟩

/-! ## The unbounded half of R198 -/

/-- A start packet in sequence on an Idle channel sends nothing, unless it completes its own PES. -/
theorem absorbLane_start_idle_sink {cap idx : Word} {p : Packet} {c : Nat} {l l' : Lane} (hev : l.EventTaken)
    (ht : l.ch.Takes p) (hst : p.IsStart) (hseq : l.ch.InSequence p.cc) (hcap : 65535 ≤ cap.toNat)
    (hidle : l.ch.state = .idle) (hpart : p.pes.len = 0 ∨ p.geometry.plen ≠ p.pes.len.toNat + 6)
    (h : absorbLane cap idx p c l = .ok l') : l'.sink = l.sink := by
  have hsame {l1 : Lane} (h1 : absorbLane cap idx p c l = .ok l1) : l1 = l' := Except.ok.inj (h1.symm.trans h)
  by_cases ha : p.pes.Accepted l.ch.malformedPolicy
  · by_cases hover : p.pes.len ≠ 0 ∧ p.pes.len.toNat + 6 < p.geometry.plen
    · obtain ⟨l1, h1, hsink, -⟩ := firstFragmentOverflowIsLost cap idx p c l hev ht hst hseq hidle ha hover.1 hover.2
      exact hsame h1 ▸ hsink
    · have hbegins (h0 : p.pes.len ≠ 0) : p.geometry.plen < p.pes.len.toNat + 6 := by
        have hne := hpart.resolve_left h0
        have hle : ¬ p.pes.len.toNat + 6 < p.geometry.plen := fun hlt => hover ⟨h0, hlt⟩
        omega
      obtain ⟨l1, h1, hsink, -⟩ := startFromIdleSetsThePesUp cap idx p c l hev ht hst hseq hcap hidle ha hbegins
      exact hsame h1 ▸ hsink
  · obtain ⟨l1, h1, hsink, -⟩ := rejectedStartIsLost cap idx p c l hev ht hst hseq hidle ha
    exact hsame h1 ▸ hsink

/-- The lane whose PES in progress a flush has sent as `burst` (R182). -/
def Lane.flushed (burst : List Byte) (l : Lane) : Lane := (l.sinkGot [.bytes burst, .endOfPes]).withCh l.ch.toIdle

/-- The next start packet in sequence sends what an unbounded PES has collected, and then only what it completes itself (R184). -/
theorem Lane.Collecting.next_start {cap : Word} {l l' : Lane} {p0 : Packet} {cc : BitVec 4} {burst : List Byte}
    (h : l.Collecting cap p0 cc burst l') (hcap : 65535 ≤ cap.toNat) (idx : Word) {c : Nat} {p : Packet}
    (hb : p0.pes.bounded = false) (hr : l.nextReply c = some .ok) (ha : l.SinkAnswers) (hst : p.IsStart)
    (hpid : p.pid = l.ch.targetPid) (hcc : p.cc = cc + 1) :
    ∃ l2, absorbLane cap idx p c l' = .ok l2 ∧ l.sink ++ [.bytes burst, .endOfPes] <+: l2.sink ∧
      (p.pes.len = 0 ∨ p.geometry.plen ≠ p.pes.len.toNat + 6 → l2.sink = l.sink ++ [.bytes burst, .endOfPes]) := by
  have hsent : (l'.flushed burst).sink = l.sink ++ [.bytes burst, .endOfPes] := by
    rw [Lane.flushed, Lane.withCh_sink, Lane.sinkGot_sink, h.sink]
  have hansw : (l'.flushed burst).SinkAnswers := Lane.sinkAnswers_sinkGot (h.sinkAnswers ha) [.bytes burst, .endOfPes]
  have hev : (l'.flushed burst).EventTaken := h.eventTaken
  have ht : (l'.flushed burst).ch.Takes p := h.takes hpid
  have hseq : (l'.flushed burst).ch.InSequence p.cc := h.inSequence hcc
  obtain ⟨l0, hok0⟩ := absorbLane_total idx p c (Channel.inv_toIdle l'.ch) hcap hansw hev
  obtain ⟨l2, hok2, hsink2, -⟩ := (startOverAPesInProgress cap idx p c l' l0 h.eventTaken (h.takes hpid) hst
    (h.inSequence hcc) h.inv h.state).1 (h.bounded.trans hb) ((h.nextReply c).trans hr) burst h.read hok0
  obtain ⟨-, -, -, -, hgrows, -⟩ := absorbLane_frame hok0
  refine ⟨l2, hok2, ?_, fun hpart => ?_⟩
  · rw [hsink2, ← hsent]; exact hgrows
  · rw [hsink2, ← hsent]; exact absorbLane_start_idle_sink hev ht hst hseq hcap rfl hpart hok0

/-- EOS under FLUSH sends what was collected, then Close (R238). -/
theorem Lane.Collecting.eos {cap : Word} {l l' : Lane} {p0 : Packet} {cc : BitVec 4} {burst : List Byte}
    (h : l.Collecting cap p0 cc burst l') {s : State} {ch : BitVec 4} (hl : s.lanes[ch.toNat]? = some l')
    (hpolicy : l.ch.shutdownPolicy = .flush) (hr : l.nextReply ch.toNat = some .ok)
    (hr2 : (l.sinkGot []).nextReply ch.toNat = some .ok) :
    ∃ t l2, exec (.eos ch) s = .next t ∧ t.lanes[ch.toNat]? = some l2 ∧
      l2.sink = l.sink ++ [.bytes burst, .endOfPes, .close] ∧ l2.ch.state = .idle := by
  have hr2' : (l'.sinkGot []).nextReply ch.toNat = some .ok := by
    rw [← hr2, Lane.nextReply, Lane.nextReply, Lane.sinkGot_replies, Lane.sinkGot_calls, h.replies, h.calls]
    rfl
  have hexec := (eosFlushesAndCloses s ch l' hl h.fatal ((h.nextReply _).trans hr)).1 burst h.state
    (h.shutdownPolicy.trans hpolicy) h.read hr2'
  have hlt := (List.getElem?_eq_some_iff.1 hl).1
  exact ⟨_, _, hexec, List.getElem?_set_self hlt, congrArg (· ++ _) h.sink, rfl⟩

/-- Settles O60: the start packet begins the PES and every continuation adds to it; the flush before a start, or at EOS, sends what was
collected. -/
theorem unboundedPesRoundTrip : Obligations.UnboundedPesRoundTrip := by
  intro cap idx c l p0 rest hcap hi hidle hroom hr ht hseq hst ha hlen hrest hchain hfit burst
  have hb : p0.pes.bounded = false := by rw [PesDecode.bounded_eq, hlen]; rfl
  obtain ⟨l0, hok0, h0⟩ := absorbLane_start_collects (idx := idx) (c := c) hcap hi hidle hroom ht hseq hst ha
    (fun h => absurd hlen h)
  obtain ⟨l1, hok1, h1⟩ := h0.absorbSeq (idx + 1) c hrest hchain hfit (fun h => by rw [hb] at h; cases h)
  refine ⟨l1, (absorbSeq_cons hok0 rest).trans hok1, h1.sink, h1.state, ?_, ?_⟩
  · intro idx' p hans hstart hpid hchain'
    exact h1.next_start hcap idx' hb hr hans hstart hpid ((ccChain_snoc ..).1 hchain').2
  · rintro s ch rfl hl hpolicy hr2
    exact h1.eos hl hpolicy hr hr2

end Sys2Proof.Machine
end

section
/-! SUPPORT. The host commands that only answer, WRREG by what its index names, and the frame of EOS
(spec/44_host_commands.md R231 to R239); a step whose input is no command (R230, 70_reset_and_hazards.md R290). -/

namespace Sys2Proof.Machine

/-! ## A step that runs no command -/

theorem runTxn_of_decode_error {x : Txn} {e : DecodeError} (h : decodeCommand x = .error e) (s : State) :
    runTxn x s = .refused (.badTransaction e) := by
  simp [runTxn, h]

/-- Settles O13: a step without an input holds the state, and one whose transaction decodes to no command is refused. -/
theorem stepWithoutACommand : Obligations.StepWithoutACommand :=
  ⟨fun _ hhost => step_of_no_input hhost,
   fun _ _ _ _ hhost he => (step_of_hostIn hhost).trans (runTxn_of_decode_error he _)⟩

/-! ## Commands that only answer (R231, R235, R239) -/

theorem exec_nop (s : State) : exec .nop s = .next (s.respond .ok none) := rfl

theorem exec_rdreg (index : BitVec 8) (s : State) : exec (.rdreg index) s = .next (s.respond .ok (some (s.readReg index))) :=
  rfl

/-- The eleven reserved commands are one (R239). -/
theorem exec_reserved {i : Instr} (hi : i ∈ [Instr.reserved5, .reserved6, .reserved7, .reserved8, .reserved9, .reservedA,
    .reservedB, .reservedC, .reservedD, .reservedE, .reservedF]) (s : State) : exec i s = .next (s.respond .illegal none) := by
  simp only [List.mem_cons, List.not_mem_nil, or_false] at hi
  rcases hi with rfl | rfl | rfl | rfl | rfl | rfl | rfl | rfl | rfl | rfl | rfl <;> rfl

/-- Settles O16: NOP is its answer alone. -/
theorem nopOnlyAnswers : Obligations.NopOnlyAnswers := exec_nop

/-- Settles O17: each of the eleven constructors is the reserved command. -/
theorem reservedCommandsAreIllegal : Obligations.ReservedCommandsAreIllegal := fun s _ hi => exec_reserved hi s

/-- Settles O20: RDREG is its answer alone. -/
theorem rdregAnswersTheRegister : Obligations.RdregAnswersTheRegister := fun s index => exec_rdreg index s

/-! ## WRREG by what its index names (R232) -/

/-- A write to CTRL(c) of an existing channel replaces that channel's state (R233). -/
theorem State.writeReg_ctrl {s : State} {index : BitVec 8} {c : Nat} {l : Lane} (hl : s.lanes[c]? = some l)
    (hi : index.toNat = 0x10 + 8 * c) (v : Word) : s.writeReg index v = s.setLane c (l.withCh (ctrlWrite v)) := by
  rcases s.writeReg_cases index v with ⟨k, lk, hk, hik, hw⟩ | ⟨hnone, -⟩
  · obtain rfl : k = c := by omega
    obtain rfl := Option.some.inj (hk.symm.trans hl)
    exact hw
  · exact absurd hi (hnone c (List.getElem?_eq_some_iff.1 hl).1)

/-- Every other index is written without effect (R234). -/
theorem State.writeReg_other {s : State} {index : BitVec 8} (h : ∀ c < s.lanes.length, index.toNat ≠ 0x10 + 8 * c)
    (v : Word) : s.writeReg index v = s := by
  rcases s.writeReg_cases index v with ⟨c, l, hl, hi, -⟩ | ⟨-, hw⟩
  · exact absurd hi (h c (List.getElem?_eq_some_iff.1 hl).1)
  · exact hw

theorem exec_wrreg (index : BitVec 8) (v : Word) (s : State) :
    exec (.wrreg index v) s = .next ((s.writeReg index v).respond .ok none) := rfl

/-- Settles O18: the write replaces the channel's state by `ctrlWrite`, every field of which is the data word's or the reset's. -/
theorem ctrlWriteRecreatesTheChannel : Obligations.CtrlWriteRecreatesTheChannel := by
  intro s index v c l hl hi
  refine ⟨_, exec_wrreg index v s, ?_⟩
  rw [State.writeReg_ctrl hl hi]
  rfl

/-- Settles O19: the write leaves the state alone, so the answer is all there is. -/
theorem otherRegisterWritesChangeNothing : Obligations.OtherRegisterWritesChangeNothing := by
  intro s index v h
  rw [exec_wrreg, State.writeReg_other h]
  rfl

/-! ## EOS turned away, and the frame of EOS (R236 to R238) -/

theorem exec_eos_of_missing {s : State} {ch : BitVec 4} (h : s.lanes[ch.toNat]? = none) :
    exec (.eos ch) s = .next (s.respond .illegal none) := by
  show execEos ch s = _
  simp [execEos, h]

theorem eosLane_of_fatal {l : Lane} (h : l.ch.fatal = true) (c : Nat) : eosLane c l = .ok (.sinkError, l) := if_pos h

theorem State.setLane_self {s : State} {c : Nat} {l : Lane} (h : s.lanes[c]? = some l) : s.setLane c l = s := by
  obtain ⟨hlt, rfl⟩ := List.getElem?_eq_some_iff.1 h
  simp [State.setLane]

/-- Settles O24: a missing channel is answered at once, and a channel with FATAL is put back as it was. -/
theorem eosTurnedAwayOnlyAnswers : Obligations.EosTurnedAwayOnlyAnswers := by
  intro s ch
  refine ⟨fun hmissing => exec_eos_of_missing (List.getElem?_eq_none hmissing), fun l hl hfatal => ?_⟩
  rw [exec_eos_of_lane hl (eosLane_of_fatal hfatal ch.toNat), State.setLane_self hl]
  rfl

/-- A channel that meets the invariant ends when its sink answers (R297). -/
theorem eosLane_total {cap : Word} {l : Lane} (c : Nat) (hi : l.ch.Inv cap) (ha : l.SinkAnswers) :
    ∃ st l', eosLane c l = .ok (st, l') := by
  cases h : eosLane c l with
  | error f => exact absurd ha (eosLane_error hi h).2
  | ok r => exact ⟨r.1, r.2, rfl⟩

/-- What EOS leaves of its channel: the records, and every field but those of the assembly, the CC history and FATAL. -/
theorem eosLane_frame {c : Nat} {l l' : Lane} {st : StatusCode} (h : eosLane c l = .ok (st, l')) :
    l'.events = l.events ∧ l'.ch.targetPid = l.ch.targetPid ∧ l'.ch.en = l.ch.en ∧
      l'.ch.malformedPolicy = l.ch.malformedPolicy ∧ l'.ch.shutdownPolicy = l.ch.shutdownPolicy ∧
      l'.ch.pesSid = l.ch.pesSid ∧ l'.ch.pesLen = l.ch.pesLen ∧ l'.ch.pesHdl = l.ch.pesHdl ∧
      l'.ch.lastResult = l.ch.lastResult ∧ l'.ch.lastFlags = l.ch.lastFlags := by
  rcases eosLane_eq_ok h with ⟨-, -, rfl⟩ | ⟨-, failed, hch, -, hev, -⟩
  · simp
  · rw [hch]
    exact ⟨hev, rfl, rfl, rfl, rfl, rfl, rfl, rfl, rfl, rfl⟩

/-- Settles O27: EOS on a missing channel only answers; on an existing one it completes under the invariant and replaces that lane
alone, whose kept fields `eosLane_frame` lists. -/
theorem eosCompletesAndTouchesOneChannel : Obligations.EosCompletesAndTouchesOneChannel := by
  intro s ch hs hports
  cases hl : s.lanes[ch.toNat]? with
  | none =>
    refine ⟨_, exec_eos_of_missing hl, rfl, rfl, rfl, rfl, ⟨_, rfl⟩, fun _ _ => rfl, fun l l' h => ?_⟩
    cases h
  | some l =>
    have hmem := List.mem_of_getElem? hl
    obtain ⟨st, l1, hend⟩ := eosLane_total ch.toNat (hs.2 l hmem) (hports l hmem).1
    refine ⟨_, exec_eos_of_lane hl hend, rfl, rfl, rfl, List.length_set, ⟨_, rfl⟩,
      fun c hne => List.getElem?_set_ne hne.symm, fun l0 l' h hl' => ?_⟩
    obtain rfl := Option.some.inj h
    have hset : (s.lanes.set ch.toNat l1)[ch.toNat]? = some l1 :=
      List.getElem?_set_self (List.getElem?_eq_some_iff.1 hl).1
    obtain rfl := Option.some.inj (hset.symm.trans hl')
    exact eosLane_frame hend

end Sys2Proof.Machine
end
